-- ==== Sys2Proof/Word.lean ====
section
/-! DEFINITION. The quantities MD5E treats as bits: bytes, 32-bit words, 64-bit counters (R5, R7 of
`00_scope.md`). Every register value is unsigned (R7). -/

namespace Sys2Proof

/-- A byte, 8 bits (R7). -/
abbrev Byte := BitVec 8

/-- A word, `XLEN` = 32 bits (R5, R7). -/
abbrev Word := BitVec 32

/-- A 64-bit counter: `MSGLEN` (R24, D7), `NBLK`, `BLKIDX` (R29). -/
abbrev Dword := BitVec 64

end Sys2Proof
end

