-- ==== Sys2Proof/Machine/Bytes.lean ====
section
/-! DEFINITION. Byte order: the conversions of R9 (`00_scope.md`), little-endian as R81 (`20_memory.md`) has it
everywhere. -/

namespace Sys2Proof.Machine

/-- The unsigned number a byte sequence spells, its first byte least significant (R9 `le32`, R11). -/
def leNat : List Byte → Nat
  | [] => 0
  | b :: bs => b.toNat + 256 * leNat bs

/-- `bytes_le(v, n)` of R9: byte `k` is `(v div 2^(8k)) mod 256`. -/
def bytesLE : Nat → Nat → List Byte
  | 0, _ => []
  | n + 1, v => BitVec.ofNat 8 v :: bytesLE n (v / 256)

/-- `le32(s)` of R9. -/
def le32 (s : List Byte) : Word := BitVec.ofNat 32 (leNat s)

/-- The subsequence `s[i .. i + n)` of R8. -/
def slice (s : List Byte) (i n : Nat) : List Byte := (s.drop i).take n

end Sys2Proof.Machine
end

