-- ==== Sys2Proof/Config.lean ====
section
/-! DEFINITION. What is fixed for one MD5E: the parameters of R5 and R6 (`00_scope.md`), and the free values,
constants without a body of which nothing can be proved. -/

namespace Sys2Proof

/-- `BLOCK_BYTES` of R5: the bytes of a block, and of a full window (`WIN_BYTES`). -/
def Config.blockBytes : Nat := 64

/-- `MAX_MSG_BYTES` of R6 (D8): the longest message the spec gives a meaning. -/
def Config.maxMsgBytes : Nat := 2 ^ 61 - 1

/-- The parameters R6 leaves open, one value for one machine. State holds them (log 5), so that a
statement about every state holds for every choice: a claim "takes the parameter as a variable" (R248). -/
structure Params where
  /-- `BLKMEM_BLOCKS`: blocks the stepper's store holds, `none` for unbounded (D9, R73). -/
  blkmemBlocks : Option Nat
  /-- `DIR_MAX_ENTRIES`: entries the directory table holds, `none` for unbounded (D10, R28). -/
  dirMaxEntries : Option Nat
  /-- `PATH_SEP`: the byte string after a directory name in a sort key (D11, R244). -/
  pathSep : List Byte
  /-- `EMPTY_DIR_FAULTS`: does a directory without a regular file fault (D12, R248)? -/
  emptyDirFaults : Bool
deriving DecidableEq, Repr

/-- Free: the spec gives `EMPTY_DIR_FAULTS` no default (R6, D12: OPEN). DESIGN CHOICE, log 5, safe. -/
opaque Config.emptyDirFaults : Bool

/-- The parameters at the defaults of R6; the one without a default stays free (log 5). -/
def Params.default : Params :=
  { blkmemBlocks := none, dirMaxEntries := none, pathSep := [0x2F#8],
    emptyDirFaults := Config.emptyDirFaults }

/-- Free 32-bit values, by draw and register: what a register "holds no value" in (X11, R41, R286). Log 7, safe. -/
opaque Config.freeWord : Nat → Nat → Word

/-- Free 64-bit values, by draw: a dead `MSGLEN` (X11). Log 7, safe. -/
opaque Config.freeDword : Nat → Dword

/-- Free byte sequences, by draw: a dead `SC.WIN` or `DD.HEXCAT` (X11). Log 7, safe. -/
opaque Config.freeBytes : Nat → List Byte

/-- Free tables of keyed identifiers, by draw and table: a dead `DD.ENT` or work list (X11). Log 7, safe. -/
opaque Config.freeTable : Nat → Nat → List (List Byte × Word)

end Sys2Proof
end

