-- ==== Sys2Proof/Syntax.lean ====
section
/-! DEFINITION. The instructions of MD5E, one constructor per row of `spec/opcode_table.json`: the six
commands (R103 of `30_encoding.md`) and the four step kinds (R111). -/

namespace Sys2Proof

/-- An instruction. `srck` is the field `SRCK` = w[9:8] of the command word (R101, R104); `pos` is the field
`POS` = i[3:0] of the step number (R111), whose `RND` = i[5:4] is the constructor. -/
inductive Instr where
  /-- `HASH` (R210). -/
  | hash (srck : BitVec 2)
  /-- `HASHF` (R217). -/
  | hashf
  /-- `HASHD` (R240). -/
  | hashd
  /-- `STPNEW` (R270). -/
  | stpnew (srck : BitVec 2)
  /-- `STPADV` (R275). -/
  | stpadv
  /-- `STPRST` (R285). -/
  | stprst
  /-- `STEP.FF` (R164), steps 0 to 15. -/
  | stepFF (pos : BitVec 4)
  /-- `STEP.GG` (R165), steps 16 to 31. -/
  | stepGG (pos : BitVec 4)
  /-- `STEP.HH` (R166), steps 32 to 47. -/
  | stepHH (pos : BitVec 4)
  /-- `STEP.II` (R167), steps 48 to 63. -/
  | stepII (pos : BitVec 4)
deriving DecidableEq, Repr

end Sys2Proof
end

