-- ==== Sys2Proof/WellFormed.lean ====
section
/-! DEFINITION. The checks an instruction passes before its rule is executed: checks 4 and 5 of R102
(`30_encoding.md`). Checks 1 to 3 are about words that are no instruction at all; the decoder makes them. -/

namespace Sys2Proof

/-- Check 4 of R102: `HASH` takes the sources `BYTES` = 0 and `STREAM` = 1 (R104). -/
def hashSourceOk (srck : BitVec 2) : Bool := srck.toNat < 2

/-- Check 5 of R102: `STPNEW` takes the source `BYTES` = 0 only (R274). -/
def stpnewSourceOk (srck : BitVec 2) : Bool := srck == 0#2

/-- The instruction leads R102 to its step 6, "execute the command's rule". An instruction that is not
well-formed still decodes and still runs: it raises `TYPE_SOURCE` (R312). Every step number is legal (R111). -/
def Instr.wellFormed : Instr → Bool
  | .hash srck => hashSourceOk srck
  | .stpnew srck => stpnewSourceOk srck
  | .hashf => true
  | .hashd => true
  | .stpadv => true
  | .stprst => true
  | .stepFF _ => true
  | .stepGG _ => true
  | .stepHH _ => true
  | .stepII _ => true

end Sys2Proof
end

