-- ==== Sys2Proof/Decode.lean ====
section
/-! DEFINITION. Decoding (R100 to R107, R111 of `30_encoding.md`), total on any bytes and rejecting by name; then the
encoder, written from the same tables. -/

namespace Sys2Proof

/-- Why bytes are no instruction. The first three are checks 1 to 3 of R102, each of which raises `ILLEGAL_CMD`. -/
inductive Reject where
  /-- Check 1: w[31:10] is not 0. -/
  | reservedBits
  /-- Check 2: `OPC` is not one of 0x01 to 0x06. -/
  | unknownOpcode
  /-- Check 3: `SRCK` is not 0 on a command that does not use it. -/
  | unusedSrck
  /-- A step number is 6 bits (R100): the upper two bits of its byte are not 0 (log 22). -/
  | notAStepNumber
  /-- Neither a command word (4 bytes) nor a step number (1 byte): there are no other formats (R107). -/
  | badLength
deriving DecidableEq, Repr

/-- `OPC` = w[7:0] (R101). -/
def opcOf (w : Word) : BitVec 8 := w.extractLsb' 0 8

/-- `SRCK` = w[9:8] (R101, R105). -/
def srckOf (w : Word) : BitVec 2 := w.extractLsb' 8 2

/-- The reserved bits w[31:10] (R101). -/
def reservedOf (w : Word) : BitVec 22 := w.extractLsb' 10 22

/-- A command that does not use `SRCK` (R103): check 3 of R102. -/
def withoutSrck (k : BitVec 2) (i : Instr) : Except Reject Instr :=
  if k = 0#2 then .ok i else .error .unusedSrck

/-- Checks 2 and 3 of R102, on the fields of a word without reserved bits (opcodes of R103). -/
def decodeFields (opc : BitVec 8) (k : BitVec 2) : Except Reject Instr :=
  match opc.toNat with
  | 1 => .ok (.hash k)
  | 2 => withoutSrck k .hashf
  | 3 => withoutSrck k .hashd
  | 4 => .ok (.stpnew k)
  | 5 => withoutSrck k .stpadv
  | 6 => withoutSrck k .stprst
  | _ => .error .unknownOpcode

/-- Format `CMD`: R102, its checks in its order. Checks 4 and 5 are `Instr.wellFormed` (log 13). -/
def decodeCmd (w : Word) : Except Reject Instr :=
  if reservedOf w = 0#22 then decodeFields (opcOf w) (srckOf w) else .error .reservedBits

/-- Format `STEP` (R111): `RND` = i[5:4] selects the kind, `POS` = i[3:0]. Every step number is legal. -/
def decodeStep (i : BitVec 6) : Instr :=
  let pos := i.extractLsb' 0 4
  match (i.extractLsb' 4 2).toNat with
  | 0 => .stepFF pos
  | 1 => .stepGG pos
  | 2 => .stepHH pos
  | _ => .stepII pos

/-- The decoder on bytes: a command word is 4 bytes in the order of R81, a step number is one byte (log 22). -/
def decode : List Byte → Except Reject Instr
  | [b] => if b.toNat < 64 then .ok (decodeStep (b.setWidth 6)) else .error .notAStepNumber
  | [b0, b1, b2, b3] => decodeCmd (Machine.le32 [b0, b1, b2, b3])
  | _ => .error .badLength

/-- The command word of an opcode of R103 and a source kind of R104. -/
def cmdWord (opc : BitVec 8) (k : BitVec 2) : Word := 0#22 ++ k ++ opc

/-- The step number of a round select and a position (R111). -/
def stepNumber (rnd : BitVec 2) (pos : BitVec 4) : BitVec 6 := rnd ++ pos

/-- The bytes of a step number (log 22). -/
def stepBytes (i : BitVec 6) : List Byte := [i.setWidth 8]

/-- The bytes of a command word (R81). -/
def cmdBytes (w : Word) : List Byte := Machine.bytesLE 4 w.toNat

/-- The encoder: the bytes of an instruction, from the tables of R101, R103 and R111. -/
def encode : Instr → List Byte
  | .hash k => cmdBytes (cmdWord 0x01#8 k)
  | .hashf => cmdBytes (cmdWord 0x02#8 0#2)
  | .hashd => cmdBytes (cmdWord 0x03#8 0#2)
  | .stpnew k => cmdBytes (cmdWord 0x04#8 k)
  | .stpadv => cmdBytes (cmdWord 0x05#8 0#2)
  | .stprst => cmdBytes (cmdWord 0x06#8 0#2)
  | .stepFF p => stepBytes (stepNumber 0#2 p)
  | .stepGG p => stepBytes (stepNumber 1#2 p)
  | .stepHH p => stepBytes (stepNumber 2#2 p)
  | .stepII p => stepBytes (stepNumber 3#2 p)

/-- The instruction a row of the opcode table gives: a step number in one byte, or a command word. -/
def decodeTableWord (nbits w : Nat) : Option Instr :=
  (decode (Machine.bytesLE (if nbits ≤ 8 then 1 else 4) w)).toOption

end Sys2Proof
end

