-- ==== Sys2Proof/Machine/State.lean ====
section
/-! DEFINITION. The state of MD5E: everything `spec/10_state.md` names, the parameters of R6, and the engine's inputs
from its host and its environment (`spec/20_memory.md`). Plain data. -/

namespace Sys2Proof.Machine

/-- The chaining registers `H[0..3]` of a context (R24), also the shape of `DIGEST0..3` (R36). -/
structure Chain where
  h0 : Word
  h1 : Word
  h2 : Word
  h3 : Word
deriving DecidableEq, Repr

/-- The working registers `A, B, C, D` of a context (R24). -/
structure Work where
  a : Word
  b : Word
  c : Word
  d : Word
deriving DecidableEq, Repr

/-- A context (R24): the register set one digest computation owns. -/
structure Context where
  /-- `X.H[0..3]`. -/
  h : Chain
  /-- `X.A, X.B, X.C, X.D`. -/
  w : Work
  /-- `X.M[0..15]`. -/
  m : Vector Word 16
  /-- `X.MSGLEN`, bytes before padding. -/
  msglen : Dword
deriving DecidableEq, Repr

/-- A window of a source: 0 to 64 bytes (R77). -/
structure Window where
  bytes : List Byte
  short : bytes.length ≤ 64
deriving DecidableEq, Repr

/-- The streaming context `SC` (R25) with its window buffer `SC.WIN` (R27). -/
structure Streaming where
  ctx : Context
  win : Window
deriving DecidableEq, Repr

/-- `DD`, the directory sequencer's state during one `HASHD` (R28). -/
structure Directory where
  /-- `DD.ENT`: (key, identifier). -/
  ent : List (List Byte × Word)
  /-- `DD.HEXCAT`. -/
  hexcat : List Byte
  /-- Directories still to be scanned: (key prefix, identifier). -/
  work : List (List Byte × Word)
deriving DecidableEq, Repr

/-- `ST.PHASE` (R30). Codes 5 to 7 never occur. -/
inductive Phase where
  | noSession
  | ready
  | inStep
  | blockBoundary
  | completed
deriving DecidableEq, Repr

/-- BLKMEM as cells: addresses rising, no zero byte listed (an unlisted byte reads 0, log 9). -/
abbrev Memory := List Host.Cell

/-- The stepper context `ST` (R29). -/
structure Stepper where
  ctx : Context
  /-- `ST.BLKMEM`, the padded block sequence (R73). -/
  blkmem : Memory
  /-- `ST.NBLK`. -/
  nblk : Dword
  /-- `ST.BLKIDX`. -/
  blkidx : Dword
  /-- `ST.STEPIDX`. -/
  stepidx : BitVec 6
  /-- `ST.PHASE`. -/
  phase : Phase
  /-- `ST.ROUND`, of the step last performed. -/
  round : BitVec 3
  /-- `ST.WIDX`, the message-word index that step used. -/
  widx : BitVec 4
  /-- `ST.PRE`, its pre-rotation value. -/
  pre : Word
deriving DecidableEq, Repr

/-- `STATUS.RKIND` (R108): how the most recent command ended. Codes 10 to 15 are never produced. -/
inductive RKind where
  | none
  | digest
  | created
  | step
  | boundary
  | complete
  | already
  | discarded
  | error
  | cancelled
deriving DecidableEq, Repr

/-- `STATUS.CAUSE` (R311). `encoding` and `validation` are reserved and never produced (R323). -/
inductive Cause where
  | none
  | typeSource
  | ioNotFound
  | ioOpen
  | ioRead
  | ioNotDir
  | ioScan
  | ioEmpty
  | encoding
  | validation
  | stateCompleted
  | stateNoSession
  | illegalCmd
deriving DecidableEq, Repr

/-- Which of the two contexts (R25). -/
inductive CtxSel where
  | sc
  | st
deriving DecidableEq, Repr

/-- What the environment may answer to `SrcRead` (R77). -/
inductive ReadAnswer where
  | window (w : Window)
  | fail
deriving DecidableEq, Repr

/-- What the environment may answer to `EnvOpen` (R78). -/
inductive OpenAnswer where
  | opened (h : Word)
  | notFound
  | fail
deriving DecidableEq, Repr

/-- The kinds of directory entries (R79, R245). -/
inductive EntryKind where
  | file
  | dir
  | other
deriving DecidableEq, Repr

/-- An entry of one directory (R79). -/
structure Entry where
  name : List Byte
  kind : EntryKind
  id : Word
deriving DecidableEq, Repr

/-- What the environment may answer to `EnvScan` (R79). -/
inductive ScanAnswer where
  | entries (l : List Entry)
  | notDir
  | fail
deriving DecidableEq, Repr

/-- Which source a window is asked of (R75). -/
inductive SourceName where
  | bytes
  | stream (h : Word)
deriving DecidableEq, Repr

/-- A request the environment has seen (R12). -/
inductive Request where
  | srcRead (src : SourceName)
  | envOpen (id : Word)
  | envClose (h : Word)
  | envScan (id : Word)
  | cancelPoll
deriving DecidableEq, Repr

/-- What the environment answers once the answers listed for a primitive are used up, every time it is asked. -/
structure Later where
  read : ReadAnswer
  opened : OpenAnswer
  scan : ScanAnswer
  poll : Bool
deriving DecidableEq, Repr

/-- The environment as an oracle (R76): for each primitive the answers still to come, in the order they will be asked
for, and every answer after those (log 3); and the requests made so far, newest first (log 20). -/
structure Env where
  reads : List ReadAnswer
  opens : List OpenAnswer
  scans : List ScanAnswer
  polls : List Bool
  later : Later
  seen : List Request
deriving DecidableEq, Repr

/-- A transaction of the host (R72), or the reset of the platform (R350). -/
inductive HostOp where
  /-- `RegRead(off)`. -/
  | read (off : Nat)
  /-- `RegWrite(off, v)`; `data` is the byte sequence presented with it, the operand of a `BYTES` source (R75). -/
  | write (off : Nat) (v : Word) (data : List Byte)
  /-- Reset, which can happen between commands only (R350). -/
  | reset
deriving DecidableEq, Repr

/-- The state of MD5E. -/
structure State where
  /-- `STATUS.RKIND` (R34). -/
  rkind : RKind
  /-- `STATUS.CAUSE` (R34). -/
  cause : Cause
  /-- `SRCID` (R35). -/
  srcid : Word
  /-- `DIGEST0..3` (R36). -/
  digest : Chain
  /-- `DIGHEX0..7` (R37). -/
  dighex : Vector Word 8
  /-- `SC` (R25, R27). -/
  sc : Streaming
  /-- `ST` (R29). -/
  st : Stepper
  /-- `DD` (R28). -/
  dd : Directory
  /-- The parameters of R6; no step changes them (log 5). -/
  params : Params
  /-- The environment (R76). -/
  env : Env
  /-- The byte sequence presented with the command being run (R75, log 14). -/
  data : List Byte
  /-- The host's transactions still to come, next first (R72, R86, log 1). -/
  host : List HostOp
  /-- A step number the engine has produced and not performed (R100): the model's own field, none at reset (DESIGN CHOICE, log 4). -/
  stepReq : Option (BitVec 6)
  /-- The context that step number is for (R163). The spec has no such register: the field is the model's, and so is its value at reset, `ST`
  (DESIGN CHOICE, log 4). -/
  stepCtx : CtxSel
  /-- What the last `RegRead` returned to the host (R72, log 15). -/
  rdata : Word
  /-- How many free values have been drawn (X11, log 7). -/
  draws : Nat
deriving DecidableEq, Repr

/-- Why the machine stops. -/
inductive Fault where
  /-- Raised by `HASH`, `HASHF` and `HASHD` when the source, or the tree of directories, never ends: "the `CMD` write never
  completes" (X6, R362). Safe: the hardware gives the host no later state either (log 10). -/
  | neverCompletes
  /-- Raised by `STPADV` when it would read a block outside `BLKMEM` (R73): no such address. Safe; no state that meets the
  invariant of Safety.lean raises it (log 9). -/
  | noSuchBlock
  /-- Raised by `STPADV` at a block boundary with `BLKIDX + 1 > NBLK`, where R275 has no transition. Safe; no state that meets
  the invariant of Safety.lean raises it (log 19). -/
  | noTransition
deriving DecidableEq, Repr

/-- Where the spec gives no meaning. -/
inductive Refusal where
  /-- An instruction this model gives no meaning. Raised by no arm. Safe. -/
  | notModelled (mnemonic : String)
  /-- Raised by a host access that is no aligned 32-bit access inside REG (R72, X4). Safe. -/
  | notATransaction
  /-- Raised by `HASH`, `HASHF`, `HASHD`, `STPNEW` for a message above `MAX_MSG_BYTES` (R195, X2). Safe. -/
  | messageTooLong
  /-- Raised by `STPNEW` for more blocks than `BLKMEM_BLOCKS` (R270, X3). Safe. -/
  | blkmemFull
  /-- Raised by `HASHD` for more files than `DIR_MAX_ENTRIES` (R243, X3). Safe. -/
  | dirTooLarge
  /-- Raised by `HASHD` for two entries with equal keys (R246, X5). Safe. -/
  | equalKeys
deriving DecidableEq, Repr

/-- What a step or a command ends in. -/
abbrev Result := Host.Outcome State Fault Refusal

/-- Every register of a context 0. -/
def Context.zero : Context :=
  { h := ⟨0, 0, 0, 0⟩, w := ⟨0, 0, 0, 0⟩, m := Vector.replicate 16 0, msglen := 0 }

/-- No session: the values of R41 and R286; `M`, `MSGLEN` and `BLKMEM`, which R41 leaves unspecified, by log 6. -/
def Stepper.zero : Stepper :=
  { ctx := Context.zero, blkmem := [], nblk := 0, blkidx := 0, stepidx := 0, phase := .noSession, round := 0,
    widx := 0, pre := 0 }

/-- `SC` after reset: unspecified in R41, zero by log 6. -/
def Streaming.zero : Streaming := { ctx := Context.zero, win := ⟨[], by decide⟩ }

/-- `DD` after reset: unspecified in R41, empty by log 6. -/
def Directory.empty : Directory := { ent := [], hexcat := [], work := [] }

/-- The environment of `State.reset`: nothing asked yet, no file, no directory, no byte, no cancel request (log 3). -/
def Env.quiet : Env :=
  { reads := [], opens := [], scans := [], polls := [], seen := [],
    later := { read := .window ⟨[], by decide⟩, opened := .notFound, scan := .notDir, poll := false } }

/-- The machine right after reset (R41, R351). R41 leaves `SC`, `DD`, `ST.M`, `ST.MSGLEN` and `ST.BLKMEM` unspecified: their values are the model's (log 6). So
are those of its own fields, for which the spec has no register: no step number pending and the context `ST` for one (`stepReq`, `stepCtx`: DESIGN CHOICE, log 4),
`env` (log 3), `host` (log 1), `data` (log 14), `rdata` (log 15), `draws` (log 7), `params` (log 5). -/
def State.reset : State :=
  { rkind := .none, cause := .none, srcid := 0, digest := ⟨0, 0, 0, 0⟩, dighex := Vector.replicate 8 0,
    sc := Streaming.zero, st := Stepper.zero, dd := Directory.empty, params := Params.default, env := Env.quiet,
    data := [], host := [], stepReq := none, stepCtx := .st, rdata := 0, draws := 0 }

end Sys2Proof.Machine
end

