-- ==== Sys2Proof/Machine/Flags.lean ====
section
/-! DEFINITION. The codes of the status word: `RKIND` (R108 of `30_encoding.md`), `PHASE` (R30 of `10_state.md`), `CAUSE` (R311
of `60_exceptions.md`), and `STATUS` itself (R34). They are all the flags MD5E has (R34). -/

namespace Sys2Proof.Machine

/-- The codes of R108. -/
def RKind.code : RKind → BitVec 4
  | .none => 0
  | .digest => 1
  | .created => 2
  | .step => 3
  | .boundary => 4
  | .complete => 5
  | .already => 6
  | .discarded => 7
  | .error => 8
  | .cancelled => 9

/-- The codes of R30. -/
def Phase.code : Phase → BitVec 3
  | .noSession => 0
  | .ready => 1
  | .inStep => 2
  | .blockBoundary => 3
  | .completed => 4

/-- The codes of R311: class in the high four bits, case in the low four. -/
def Cause.code : Cause → BitVec 8
  | .none => 0x00
  | .typeSource => 0x10
  | .ioNotFound => 0x20
  | .ioOpen => 0x21
  | .ioRead => 0x22
  | .ioNotDir => 0x23
  | .ioScan => 0x24
  | .ioEmpty => 0x25
  | .encoding => 0x30
  | .validation => 0x40
  | .stateCompleted => 0x50
  | .stateNoSession => 0x51
  | .illegalCmd => 0x60

/-- `STATUS` (R34): [3:0] `RKIND`, [6:4] `PHASE` (live), [7] 0, [15:8] `CAUSE`, [31:16] 0. -/
def State.statusWord (s : State) : Word :=
  0#16 ++ s.cause.code ++ 0#1 ++ s.st.phase.code ++ s.rkind.code

end Sys2Proof.Machine
end

