-- ==== Sys2Proof/Machine/Primitives.lean ====
section
/-! DEFINITION. Unit U1, part 1: the bit and word primitives (R140 to R146 of `40_primitives.md`). -/

namespace Sys2Proof.Machine

/-- `add32` (R140): addition modulo 2^32, the carry out dropped. -/
def add32 (x y : Word) : Word := x + y

/-- `rotl32(x, n)` (R142): the low part shifted up plus the high part brought down. R142 defines it for `1 ≤ n ≤ 31`, the only
amounts that occur; elsewhere it is total and unobserved (X16, log 24). -/
def rotl32 (x : Word) (n : Nat) : Word := (x <<< n) ||| (x >>> (32 - n))

/-- `F(B, C, D) = (B ∧ C) ∨ (¬B ∧ D)` (R143). -/
def fnF (b c d : Word) : Word := (b &&& c) ||| (~~~b &&& d)

/-- `G(B, C, D) = (B ∧ D) ∨ (C ∧ ¬D)` (R144). -/
def fnG (b c d : Word) : Word := (b &&& d) ||| (c &&& ~~~d)

/-- `H(B, C, D) = B ⊕ C ⊕ D` (R145). -/
def fnH (b c d : Word) : Word := b ^^^ c ^^^ d

/-- `I(B, C, D) = C ⊕ (B ∨ ¬D)` (R146). -/
def fnI (b c d : Word) : Word := c ^^^ (b ||| ~~~d)

end Sys2Proof.Machine
end

