-- ==== Sys2Proof/Machine/Operands.lean ====
section
/-! DEFINITION. Every operand form: the source of a command (R104, R105 of `30_encoding.md`), the operands of a step
(R112), the registers of a context a step works on, and the digits of a rendered digest (R110). -/

namespace Sys2Proof.Machine

/-- A source of message bytes (R75), with the part of a byte sequence that is still to be read (R77). -/
inductive Source where
  | bytes (rest : List Byte)
  | stream (h : Word)
deriving DecidableEq, Repr

/-- How the environment sees a source named. -/
def Source.name : Source → SourceName
  | .bytes _ => .bytes
  | .stream h => .stream h

/-- The source `HASH` takes (R104, R210): the bytes presented, or the stream whose handle is in `SRCID`; `SRCK` 2 and 3 name
neither. -/
def State.sourceOf (s : State) (srck : BitVec 2) : Option Source :=
  match srck.toNat with
  | 0 => some (.bytes s.data)
  | 1 => some (.stream s.srcid)
  | _ => none

/-- `ROUND(i) = (i div 16) + 1` (R112). -/
def roundOf (i : BitVec 6) : BitVec 3 := BitVec.ofNat 3 (i.toNat / 16 + 1)

/-- `g(i) = step`, round 1 (R112). -/
def gRound1 (i : BitVec 6) : BitVec 4 := BitVec.ofNat 4 i.toNat

/-- `g(i) = (5 · step + 1) mod 16`, round 2 (R112); `step` is the full step number. -/
def gRound2 (i : BitVec 6) : BitVec 4 := BitVec.ofNat 4 (5 * i.toNat + 1)

/-- `g(i) = (3 · step + 5) mod 16`, round 3 (R112). -/
def gRound3 (i : BitVec 6) : BitVec 4 := BitVec.ofNat 4 (3 * i.toNat + 5)

/-- `g(i) = (7 · step) mod 16`, round 4 (R112). -/
def gRound4 (i : BitVec 6) : BitVec 4 := BitVec.ofNat 4 (7 * i.toNat)

/-- The message word `X.M[g]`. -/
def Context.word (x : Context) (g : BitVec 4) : Word := x.m[g.toNat]

/-- `HEXDIGIT(n)` (R110): `0` to `9`, then lowercase `a` to `f`. -/
def hexDigit (n : Nat) : Byte := if n < 10 then BitVec.ofNat 8 (0x30 + n) else BitVec.ofNat 8 (0x61 + (n - 10))

/-- `DIGESTBYTES(H)` (R221). -/
def digestBytes (h : Chain) : List Byte :=
  bytesLE 4 h.h0.toNat ++ bytesLE 4 h.h1.toNat ++ bytesLE 4 h.h2.toNat ++ bytesLE 4 h.h3.toNat

/-- The two characters of a byte, its high half first (R222). -/
def hexByte (b : Byte) : List Byte := [hexDigit (b.toNat / 16), hexDigit (b.toNat % 16)]

/-- `RENDER(H)` (R222): the 32 characters of a digest. -/
def render (h : Chain) : List Byte := (digestBytes h).flatMap hexByte

/-- The eight words that hold 32 characters, character `4n + j` in byte `j` of word `n` (R37). -/
def packHex (chars : List Byte) : Vector Word 8 := Vector.ofFn fun n => le32 (slice chars (4 * n.val) 4)

end Sys2Proof.Machine
end

