-- ==== Sys2Proof/Machine/Ops.lean ====
section
/-! DEFINITION. The shared operations: BLKMEM (R73 of `20_memory.md`), the environment's primitives (R77 to R80), how a command
ends and how a fault is taken (R320 of `60_exceptions.md`), delivery (R220 of `43_streaming.md`), the register space (R32, R39). -/

namespace Sys2Proof.Machine

/-! ## BLKMEM -/

/-- The byte at an address; an address that is not listed reads 0 (log 9). -/
def Memory.read : Memory → Nat → Byte
  | [], _ => 0
  | (x, v) :: r, a => if x = a then v else Memory.read r a

/-- A cell in front of a memory, unless it holds what an unlisted address reads as. -/
def Memory.cons (a : Nat) (b : Byte) (r : Memory) : Memory := if b = 0 then r else (a, b) :: r

/-- Writes one byte and keeps the canonical form: a zero byte is not listed. -/
def Memory.write (a : Nat) (b : Byte) : Memory → Memory
  | [] => Memory.cons a b []
  | (x, v) :: r =>
    if a < x then Memory.cons a b ((x, v) :: r)
    else if a = x then Memory.cons a b r
    else (x, v) :: Memory.write a b r

/-- Writes a byte sequence at rising addresses (`MemWrite` of R11, byte by byte). -/
def Memory.store : Nat → List Byte → Memory → Memory
  | _, [], m => m
  | a, b :: bs, m => Memory.write a b (Memory.store (a + 1) bs m)

/-- The `n` bytes from an address on (`MemRead` of R11, as bytes). -/
def Memory.readBytes (m : Memory) (a n : Nat) : List Byte := (List.range n).map fun k => m.read (a + k)

/-- The canonical form: addresses strictly rising, nothing listed that reads as an unlisted address does. -/
abbrev Memory.wf (m : Memory) : Prop := m.Pairwise (fun x y => x.1 < y.1) ∧ ∀ c ∈ m, c.2 ≠ 0

/-- Block `b` of `ST.BLKMEM`, bytes `64b` to `64b + 63`; only blocks below `NBLK` exist (R73). -/
def Stepper.block (t : Stepper) (b : Nat) : Option (List Byte) :=
  if b < t.nblk.toNat then some (t.blkmem.readBytes (64 * b) 64) else none

/-! ## The environment -/

/-- The environment has seen a request. -/
def Env.see (e : Env) (r : Request) : Env := { e with seen := r :: e.seen }

/-- The next 64 bytes of a byte sequence, or what is left of it (R77). -/
def Window.ofBytes (s : List Byte) : Window := ⟨s.take 64, by simp⟩

/-- `SrcRead(src)` (R77): the answer, what is left of the source, the environment after. A `BYTES` source never fails. -/
def Env.srcRead (src : Source) (e : Env) : ReadAnswer × Source × Env :=
  match src with
  | .bytes rest => (.window (Window.ofBytes rest), .bytes (rest.drop 64), e.see (.srcRead .bytes))
  | .stream h =>
    match e.reads with
    | [] => (e.later.read, .stream h, e.see (.srcRead (.stream h)))
    | a :: r => (a, .stream h, { e with reads := r }.see (.srcRead (.stream h)))

/-- `EnvOpen(id)` (R78). -/
def Env.openFile (id : Word) (e : Env) : OpenAnswer × Env :=
  match e.opens with
  | [] => (e.later.opened, e.see (.envOpen id))
  | a :: r => (a, { e with opens := r }.see (.envOpen id))

/-- `EnvClose(h)` (R78): no answer, cannot fail. -/
def Env.close (h : Word) (e : Env) : Env := e.see (.envClose h)

/-- `EnvScan(id)` (R79): one directory, not its subdirectories. -/
def Env.scan (id : Word) (e : Env) : ScanAnswer × Env :=
  match e.scans with
  | [] => (e.later.scan, e.see (.envScan id))
  | a :: r => (a, { e with scans := r }.see (.envScan id))

/-- `CancelPoll()` (R80). -/
def Env.cancelPoll (e : Env) : Bool × Env :=
  match e.polls with
  | [] => (e.later.poll, e.see .cancelPoll)
  | a :: r => (a, { e with polls := r }.see .cancelPoll)

/-! ## Free values -/

/-- A context that holds no value any rule reads: free values, by the number of the draw (X11, log 7). -/
def Context.free (n : Nat) : Context :=
  { h := ⟨Config.freeWord n 0, Config.freeWord n 1, Config.freeWord n 2, Config.freeWord n 3⟩
    w := ⟨Config.freeWord n 4, Config.freeWord n 5, Config.freeWord n 6, Config.freeWord n 7⟩
    m := Vector.ofFn fun j => Config.freeWord n (8 + j.val)
    msglen := Config.freeDword n }

/-- `SC` is dead (R25, R320.3, R355): free values. -/
def State.dropSC (s : State) : State :=
  { s with sc := { ctx := Context.free s.draws, win := Window.ofBytes (Config.freeBytes s.draws) }, draws := s.draws + 1 }

/-- `DD` is dead (R28, R320.3, R355): free values. -/
def State.dropDD (s : State) : State :=
  { s with
    dd := { ent := Config.freeTable s.draws 0, hexcat := Config.freeBytes s.draws, work := Config.freeTable s.draws 1 }
    draws := s.draws + 1 }

/-! ## The end of a command -/

/-- `respond(kind)` (R13) with a cause: `RKIND` and `CAUSE` are written at the end of every command, by nothing else (R34). -/
def State.respond (k : RKind) (c : Cause) (s : State) : State := { s with rkind := k, cause := c }

/-- TAKING A FAULT, `raise Fault(c)` (R320): `STATUS.RKIND <- ERROR`, `STATUS.CAUSE <- c`, and nothing else of the host-visible
state. Nothing is saved, no mode changes, control goes nowhere; there is no return instruction (R328). Steps 2 and 3 of R320
(handles closed, `SC` and `DD` dead) concern the digest commands, which do them before they come here (`finish`). -/
def State.raiseFault (c : Cause) (s : State) : State := s.respond .error c

/-- `DELIVER(X)` (R220): the twelve result registers from `X.H`, together. -/
def State.deliver (h : Chain) (s : State) : State := { s with digest := h, dighex := packHex (render h) }

/-- How the work of a digest command ends. -/
inductive End where
  | done
  | failed (c : Cause)
  | cancelled
  /-- It never ends (X6). -/
  | endless
  /-- The spec gives it no meaning. -/
  | refused (r : Refusal)
deriving DecidableEq, Repr

/-- The end of a digest command (R210, R217, R240): `SC` dies whatever the end (R355); a digest is delivered only by `Done`; a failed
or cancelled command leaves `DIGEST*` and `DIGHEX*` (R224, R325). -/
def State.finish (e : End) (s : State) : Result :=
  match e with
  | .done => .next ((s.deliver s.sc.ctx.h).dropSC.respond .digest .none)
  | .failed c => .next (s.dropSC.raiseFault c)
  | .cancelled => .next (s.dropSC.respond .cancelled .none)
  | .endless => .fault .neverCompletes
  | .refused r => .refused r

/-! ## The register space REG -/

/-- A 64-bit register's low word (R32). -/
def loWord (x : Dword) : Word := x.extractLsb' 0 32

/-- A 64-bit register's high word (R32). -/
def hiWord (x : Dword) : Word := x.extractLsb' 32 32

/-- `RegRead(off)` of an aligned offset (R32, R33 to R39): `CMD` and reserved offsets read 0; `STP_*` are a live view of `ST`. -/
def State.regRead (s : State) (off : Nat) : Word :=
  match off with
  | 0x04 => s.statusWord
  | 0x08 => s.srcid
  | 0x10 => s.digest.h0
  | 0x14 => s.digest.h1
  | 0x18 => s.digest.h2
  | 0x1C => s.digest.h3
  | 0x20 => s.dighex[0]
  | 0x24 => s.dighex[1]
  | 0x28 => s.dighex[2]
  | 0x2C => s.dighex[3]
  | 0x30 => s.dighex[4]
  | 0x34 => s.dighex[5]
  | 0x38 => s.dighex[6]
  | 0x3C => s.dighex[7]
  | 0x40 => s.st.ctx.w.a
  | 0x44 => s.st.ctx.w.b
  | 0x48 => s.st.ctx.w.c
  | 0x4C => s.st.ctx.w.d
  | 0x50 => s.st.ctx.h.h0
  | 0x54 => s.st.ctx.h.h1
  | 0x58 => s.st.ctx.h.h2
  | 0x5C => s.st.ctx.h.h3
  | 0x60 => loWord s.st.blkidx
  | 0x64 => hiWord s.st.blkidx
  | 0x68 => loWord s.st.nblk
  | 0x6C => hiWord s.st.nblk
  | 0x70 => s.st.stepidx.setWidth 32
  | 0x74 => s.st.round.setWidth 32
  | 0x78 => s.st.widx.setWidth 32
  | 0x7C => s.st.pre
  | _ => 0

/-- The byte of REG at an offset: registers are little-endian (R71, R81). -/
def State.regByte (s : State) (a : Nat) : Byte := (bytesLE 4 (s.regRead (4 * (a / 4))).toNat).getD (a % 4) 0

/-- `RegWrite(off, v)` of an aligned offset other than `CMD`: only `SRCID` stores (R35, R39). -/
def State.regWrite (s : State) (off : Nat) (v : Word) : State :=
  match off with
  | 0x08 => { s with srcid := v }
  | _ => s

/-- An offset of a host transaction: a multiple of 4 from 0x00 to 0xFC (R72). -/
def isRegOffset (off : Nat) : Bool := off % 4 == 0 && off ≤ 0xFC

/-- Reset (R350 to R352): every piece of engine state as in `State.reset`; the environment and the host's own queue are not the
engine's and stay, as do the parameters (log 16). The model's own `stepReq` and `stepCtx` go back to none and `ST`, which the spec does not say (DESIGN
CHOICE, logs 4 and 16). -/
def State.resetEngine (s : State) : State :=
  { State.reset with params := s.params, env := s.env, data := s.data, host := s.host, rdata := s.rdata, draws := s.draws }

/-- Where a step finds its next instruction (R100): the engine's own step number as it stands, or a command word as the next
write of `CMD`, with the data operand already at the port. -/
def State.placeWord (s : State) (nbits w : Nat) : State :=
  if nbits ≤ 8 then { s with stepReq := some (BitVec.ofNat 6 w) }
  else { s with stepReq := none, host := .write 0x00 (BitVec.ofNat 32 w) s.data :: s.host }

end Sys2Proof.Machine
end

