-- ==== Sys2Proof/Machine/Compressor.lean ====
section
/-! DEFINITION. Unit U1, part 2: the block compressor (`41_block_compressor.md`): LOADBLK, INITW, the four kinds of STEP, FOLD,
COMPRESS, and the meanings of the rows `STEP.FF`, `STEP.GG`, `STEP.HH`, `STEP.II`. -/

namespace Sys2Proof.Machine

/-- `LOADBLK(X, blk)` (R161): `X.M[j] <- le32(blk[4j .. 4j+4))`. -/
def Context.loadBlk (x : Context) (blk : List Byte) : Context :=
  { x with m := Vector.ofFn fun j => le32 (slice blk (4 * j.val) 4) }

/-- `INITW(X)` (R162): the working registers are a copy of the chaining registers. -/
def Context.initW (x : Context) : Context := { x with w := ⟨x.h.h0, x.h.h1, x.h.h2, x.h.h3⟩ }

/-- The result record of a step (R163): round number, message-word index, pre-rotation value. -/
structure StepRecord where
  round : BitVec 3
  widx : BitVec 4
  pre : Word
deriving DecidableEq, Repr

/-- `STEP(X, i)` in the shape all four kinds share (R163), for a round function and a message-word index. `f` and all four right-hand
sides are computed from the registers before the step; `X.H`, `X.M`, `X.MSGLEN` are unchanged. -/
def Context.stepShape (fn : Word → Word → Word → Word) (g : BitVec 4) (i : BitVec 6) (x : Context) : Context × StepRecord :=
  let f := fn x.w.b x.w.c x.w.d
  let pre := add32 (add32 (add32 x.w.a f) (tOf i)) (x.word g)
  let newB := add32 x.w.b (rotl32 pre (sOf i))
  ({ x with w := ⟨x.w.d, newB, x.w.b, x.w.c⟩ }, ⟨roundOf i, g, pre⟩)

/-- `STEP.FF` (R164): step `i = 00pppp`, `FN = F`, `g = i`. -/
def Context.stepFF (pos : BitVec 4) (x : Context) : Context × StepRecord :=
  let i := stepNumber 0#2 pos
  x.stepShape fnF (gRound1 i) i

/-- `STEP.GG` (R165): step `i = 01pppp`, `FN = G`, `g = (5i + 1) mod 16`. -/
def Context.stepGG (pos : BitVec 4) (x : Context) : Context × StepRecord :=
  let i := stepNumber 1#2 pos
  x.stepShape fnG (gRound2 i) i

/-- `STEP.HH` (R166): step `i = 10pppp`, `FN = H`, `g = (3i + 5) mod 16`. -/
def Context.stepHH (pos : BitVec 4) (x : Context) : Context × StepRecord :=
  let i := stepNumber 2#2 pos
  x.stepShape fnH (gRound3 i) i

/-- `STEP.II` (R167): step `i = 11pppp`, `FN = I`, `g = 7i mod 16`. -/
def Context.stepII (pos : BitVec 4) (x : Context) : Context × StepRecord :=
  let i := stepNumber 3#2 pos
  x.stepShape fnI (gRound4 i) i

/-- The step a step number selects (R111): `i[5:4]` chooses the kind, `i[3:0]` is its position. -/
def Context.stepAt (i : BitVec 6) (x : Context) : Context × StepRecord :=
  let pos := i.extractLsb' 0 4
  match (i.extractLsb' 4 2).toNat with
  | 0 => x.stepFF pos
  | 1 => x.stepGG pos
  | 2 => x.stepHH pos
  | _ => x.stepII pos

/-- The steps `0` to `n - 1`, in this order (R170). -/
def Context.steps (n : Nat) (x : Context) : Context :=
  (List.range n).foldl (fun y i => (y.stepAt (BitVec.ofNat 6 i)).1) x

/-- `FOLD(X)` (R169): the working registers are added into the chaining registers; nothing else changes. -/
def Context.fold (x : Context) : Context :=
  { x with h := ⟨add32 x.h.h0 x.w.a, add32 x.h.h1 x.w.b, add32 x.h.h2 x.w.c, add32 x.h.h3 x.w.d⟩ }

/-- `COMPRESS(X, blk)` (R170). -/
def Context.compress (x : Context) (blk : List Byte) : Context := (((x.loadBlk blk).initW).steps 64).fold

/-- What a step leaves in the stepper (R29): the registers, and the record "of the step last performed". -/
def Stepper.withStep (t : Stepper) (r : Context × StepRecord) : Stepper :=
  { t with ctx := r.1, round := r.2.round, widx := r.2.widx, pre := r.2.pre }

/-- A step on the context it is for (R163). `SC` has no registers for the record; no flag changes. -/
def State.applyStep (f : Context → Context × StepRecord) (s : State) : State :=
  match s.stepCtx with
  | .sc => { s with sc := { s.sc with ctx := (f s.sc.ctx).1 } }
  | .st => { s with st := s.st.withStep (f s.st.ctx) }

/-- `STEP.FF` as an instruction (R164). -/
def execStepFF (pos : BitVec 4) (s : State) : Result := .next (s.applyStep (Context.stepFF pos))

/-- `STEP.GG` as an instruction (R165). -/
def execStepGG (pos : BitVec 4) (s : State) : Result := .next (s.applyStep (Context.stepGG pos))

/-- `STEP.HH` as an instruction (R166). -/
def execStepHH (pos : BitVec 4) (s : State) : Result := .next (s.applyStep (Context.stepHH pos))

/-- `STEP.II` as an instruction (R167). -/
def execStepII (pos : BitVec 4) (s : State) : Result := .next (s.applyStep (Context.stepII pos))

end Sys2Proof.Machine
end

