-- ==== Sys2Proof/Machine/Padding.lean ====
section
/-! DEFINITION. Unit U2: padding and framing (`42_padding.md`). -/

namespace Sys2Proof.Machine

/-- `z`, the number of zero bytes for a tail of `t` bytes: `(55 - t) mod 64`, the non-negative remainder (R192). -/
def padZeros (t : Nat) : Nat := ((55 - (t : Int)) % 64).toNat

/-- `bitlen = (8 · n) mod 2^64` (R192, R195). -/
def bitLen (n : Nat) : Nat := 8 * n % 2 ^ 64

/-- `P`, the bytes `PAD` makes of a tail and a message length (R192). -/
def padBytes (tail : List Byte) (n : Nat) : List Byte :=
  tail ++ [0x80#8] ++ List.replicate (padZeros tail.length) 0#8 ++ bytesLE 8 (bitLen n)

/-- `PAD(tail, n)` (R192): one block, or two when `P` has 128 bytes. R191's precondition holds wherever it is used (X16, log 24). -/
def pad (tail : List Byte) (n : Nat) : List (List Byte) :=
  let p := padBytes tail n
  if p.length = 128 then [p.take 64, p.drop 64] else [p.take 64]

/-- `NBLK(n)` (R196). -/
def nblkOf (n : Nat) : Nat := if n % 64 ≤ 55 then n / 64 + 1 else n / 64 + 2

/-- `PADMSG(data)` (R197). -/
def padMsg (data : List Byte) : List Byte :=
  data.take (64 * (data.length / 64)) ++ padBytes (data.drop (64 * (data.length / 64))) data.length

end Sys2Proof.Machine
end

