-- ==== Sys2Proof/Machine/Streaming.lean ====
section
/-! DEFINITION. Unit U3: the streaming digest controller (`43_streaming.md`): DIGEST_OF, and the commands `HASH` and `HASHF`. -/

namespace Sys2Proof.Machine

/-- The start of a digest (R212): `SC.H <- IV`, `SC.MSGLEN <- 0`. -/
def Streaming.start (c : Streaming) : Streaming := { c with ctx := { c.ctx with h := iv, msglen := 0 } }

/-- The message length with a window added (R213, R214). -/
def Streaming.grow (c : Streaming) (n : Nat) : Streaming :=
  { c with ctx := { c.ctx with msglen := c.ctx.msglen + BitVec.ofNat 64 n } }

/-- A full window (R213): `SC.WIN <- w`, `COMPRESS(SC, w)`, `MSGLEN` grows by 64. -/
def Streaming.fullWindow (c : Streaming) (w : Window) : Streaming :=
  { ctx := c.ctx.compress w.bytes, win := w : Streaming }.grow 64

/-- The final window (R214): `SC.WIN <- w`, `MSGLEN` grows by its length, and the blocks of `PAD(w, MSGLEN)` are compressed in order. -/
def Streaming.finalWindow (c : Streaming) (w : Window) : Streaming :=
  let c' := { c with win := w }.grow w.bytes.length
  { c' with ctx := (pad w.bytes c'.ctx.msglen.toNat).foldl Context.compress c'.ctx }

/-- A digest computation at its end: how it ended, and `SC` and the environment as it leaves them. -/
structure DigestRun where
  how : End
  sc : Streaming
  env : Env
deriving DecidableEq, Repr

/-- The loop of R211. The first number bounds the windows (`digestFuel`); `first` tells the window that no `CancelPoll` precedes (R216). -/
def digestLoop : Nat → Bool → Source → Streaming → Env → DigestRun
  | 0, _, _, c, e => ⟨.endless, c, e⟩
  | fuel + 1, first, src, c, e =>
    let poll := if first then (false, e) else e.cancelPoll
    if poll.1 then ⟨.cancelled, c, poll.2⟩
    else
      let ans := poll.2.srcRead src
      match ans.1 with
      | .fail => ⟨.failed .ioRead, c, ans.2.2⟩
      | .window w =>
        if Config.maxMsgBytes < c.ctx.msglen.toNat + w.bytes.length then ⟨.refused .messageTooLong, c, ans.2.2⟩
        else if w.bytes.length = 64 then digestLoop fuel false ans.2.1 (c.fullWindow w) ans.2.2
        else ⟨.done, c.finalWindow w, ans.2.2⟩

/-- How many windows suffice: a byte sequence has `n div 64 + 1`; a stream that has not ended when its answers and the answers to
`CancelPoll` are all used up never ends (X6, log 10). -/
def digestFuel (src : Source) (e : Env) : Nat :=
  match src with
  | .bytes rest => rest.length / 64 + 1
  | .stream _ => e.reads.length + e.polls.length + 2

/-- `DIGEST_OF(src)` (R211). -/
def digestOf (src : Source) (c : Streaming) (e : Env) : DigestRun :=
  digestLoop (digestFuel src e) true src c.start e

/-- The engine's state after a digest computation: it owns `SC` and has asked the environment, and nothing else. -/
def State.withRun (s : State) (r : DigestRun) : State := { s with sc := r.sc, env := r.env }

/-- The digest of a source the engine does not close (R210, R218). -/
def State.hashSource (src : Source) (s : State) : Result :=
  let r := digestOf src s.sc s.env
  (s.withRun r).finish r.how

/-- The digest of a file the engine opens and closes (R217, R249): how it ended, `SC` and the environment after. `EnvClose` comes after the
last read, whatever the end (R218). -/
def digestFile (id : Word) (c : Streaming) (e : Env) : DigestRun :=
  let o := e.openFile id
  match o.1 with
  | .notFound => ⟨.failed .ioNotFound, c, o.2⟩
  | .fail => ⟨.failed .ioOpen, c, o.2⟩
  | .opened h =>
    let r := digestOf (.stream h) c o.2
    { r with env := r.env.close h }

/-- `HASH` (R210). `SRCK` 2 and 3 raise `TYPE_SOURCE` before anything else happens (R102 check 4, R312). -/
def execHash (srck : BitVec 2) (s : State) : Result :=
  match s.sourceOf srck with
  | none => .next (s.raiseFault .typeSource)
  | some src => s.hashSource src

/-- `HASHF` (R217). -/
def execHashf (s : State) : Result :=
  let r := digestFile s.srcid s.sc s.env
  (s.withRun r).finish r.how

end Sys2Proof.Machine
end

