-- ==== Sys2Proof/Machine/Directory.lean ====
section
/-! DEFINITION. Unit U4: the directory digest sequencer (`44_directory.md`), the command `HASHD`. -/

namespace Sys2Proof.Machine

/-- The files of one directory with their keys, in list order (R243, R244): the key is the prefix and the name, as bytes. -/
def fileEntries (pre : List Byte) (l : List Entry) : List (List Byte × Word) :=
  l.filterMap fun e => if e.kind = .file then some (pre ++ e.name, e.id) else none

/-- The subdirectories of one directory with their key prefixes, each name followed by `PATH_SEP` (R243, R244). -/
def dirEntries (sep pre : List Byte) (l : List Entry) : List (List Byte × Word) :=
  l.filterMap fun e => if e.kind = .dir then some (pre ++ e.name ++ sep, e.id) else none

/-- The body of `WALK` for one answer (R243): files go into `DD.ENT`, directories onto the work list, `OTHER` entries nowhere. The next
directory taken is the first of the list: depth first, in list order (X7, log 12). -/
def Directory.enter (d : Directory) (sep pre : List Byte) (l : List Entry) : Directory :=
  { d with ent := d.ent ++ fileEntries pre l, work := dirEntries sep pre l ++ d.work }

/-- `DD.ENT` is within `DIR_MAX_ENTRIES` (R243, X3). -/
def Directory.fits (d : Directory) (p : Params) : Bool :=
  match p.dirMaxEntries with
  | none => true
  | some cap => d.ent.length ≤ cap

/-- A stage of `HASHD` at its end: how it ended, and `SC`, `DD` and the environment as it leaves them. -/
structure DirRun where
  how : End
  sc : Streaming
  dd : Directory
  env : Env
deriving DecidableEq, Repr

/-- The rest of the walk (R243), once the root is scanned. A failed scan of any subdirectory aborts the command. -/
def walkLoop (p : Params) (c : Streaming) : Nat → Directory → Env → DirRun
  | 0, d, e => ⟨.endless, c, d, e⟩
  | fuel + 1, d, e =>
    match d.work with
    | [] => ⟨.done, c, d, e⟩
    | (pre, id) :: rest =>
      let a := e.scan id
      match a.1 with
      | .notDir => ⟨.failed .ioScan, c, d, a.2⟩
      | .fail => ⟨.failed .ioScan, c, d, a.2⟩
      | .entries l =>
        let d' := { d with work := rest }.enter p.pathSep pre l
        if d'.fits p then walkLoop p c fuel d' a.2 else ⟨.refused .dirTooLarge, c, d', a.2⟩

/-- The subdirectories an answer to `EnvScan` presents. -/
def ScanAnswer.dirs : ScanAnswer → Nat
  | .entries l => (dirEntries [] [] l).length
  | .notDir => 0
  | .fail => 0

/-- How many scans suffice: one for every directory the listed answers present. A walk not at its end by then is answered with
subdirectories for ever (X6, log 10). -/
def walkFuel (d : Directory) (e : Env) : Nat := d.work.length + (e.scans.map ScanAnswer.dirs).sum + 1

/-- The enumeration (R240 part 1, R242): the scan of the root, then the walk. -/
def enumerate (p : Params) (root : Word) (c : Streaming) (e : Env) : DirRun :=
  let a := e.scan root
  match a.1 with
  | .notDir => ⟨.failed .ioNotDir, c, Directory.empty, a.2⟩
  | .fail => ⟨.failed .ioScan, c, Directory.empty, a.2⟩
  | .entries l =>
    let d := Directory.empty.enter p.pathSep [] l
    if d.fits p then walkLoop p c (walkFuel d a.2) d a.2 else ⟨.refused .dirTooLarge, c, d, a.2⟩

/-- Key `x` does not come after key `y` (R246): at the first difference the smaller unsigned byte first, a proper prefix before its extensions. -/
def keyLe : List Byte → List Byte → Bool
  | [], _ => true
  | _ :: _, [] => false
  | x :: xs, y :: ys => x.toNat < y.toNat || (x == y && keyLe xs ys)

/-- The entries sorted by key, ascending (R246). -/
def sortEntries (l : List (List Byte × Word)) : List (List Byte × Word) :=
  l.insertionSort fun x y => keyLe x.1 y.1 = true

/-- No two entries have the same key; otherwise their order is not defined (R246, X5). -/
def keysDistinct (l : List (List Byte × Word)) : Bool := decide (l.map Prod.fst).Nodup

/-- Hashing the files in sorted order (R240 part 4, R249 to R251); the first failure ends it. -/
def hashFiles : List (List Byte × Word) → Bool → Streaming → Directory → Env → DirRun
  | [], _, c, d, e => ⟨.done, c, d, e⟩
  | (_, id) :: rest, first, c, d, e =>
    let poll := if first then (false, e) else e.cancelPoll
    if poll.1 then ⟨.cancelled, c, d, poll.2⟩
    else
      let r := digestFile id c poll.2
      match r.how with
      | .done => hashFiles rest false r.sc { d with hexcat := d.hexcat ++ render r.sc.ctx.h } r.env
      | .failed x => ⟨.failed x, r.sc, d, r.env⟩
      | .cancelled => ⟨.cancelled, r.sc, d, r.env⟩
      | .endless => ⟨.endless, r.sc, d, r.env⟩
      | .refused x => ⟨.refused x, r.sc, d, r.env⟩

/-- The digest of the concatenation (R240 part 5, R252), after one cancel poll when there was a file (R250). -/
def digestHexcat (c : Streaming) (d : Directory) (e : Env) : DirRun :=
  let poll := if d.ent.isEmpty then (false, e) else e.cancelPoll
  if poll.1 then ⟨.cancelled, c, d, poll.2⟩
  else
    let r := digestOf (.bytes d.hexcat) c poll.2
    ⟨r.how, r.sc, d, r.env⟩

/-- Parts 2 to 5 of R240, on the entries the walk found. -/
def hashEntries (p : Params) (c : Streaming) (d : Directory) (e : Env) : DirRun :=
  if d.ent.isEmpty && p.emptyDirFaults then ⟨.failed .ioEmpty, c, d, e⟩
  else if keysDistinct d.ent then
    let r := hashFiles (sortEntries d.ent) true c d e
    match r.how with
    | .done => digestHexcat r.sc r.dd r.env
    | .failed _ => r
    | .cancelled => r
    | .endless => r
    | .refused _ => r
  else ⟨.refused .equalKeys, c, d, e⟩

/-- The whole of R240. -/
def hashDirectory (p : Params) (root : Word) (c : Streaming) (e : Env) : DirRun :=
  let r := enumerate p root c e
  match r.how with
  | .done => hashEntries p r.sc r.dd r.env
  | .failed _ => r
  | .cancelled => r
  | .endless => r
  | .refused _ => r

/-- The engine's state after the sequencer's work. -/
def State.withDirRun (s : State) (r : DirRun) : State := { s with sc := r.sc, dd := r.dd, env := r.env }

/-- `HASHD` (R240). `DD` dies with the command (R355). -/
def execHashd (s : State) : Result :=
  let r := hashDirectory s.params s.srcid s.sc s.env
  ((s.withDirRun r).dropDD).finish r.how

end Sys2Proof.Machine
end

