-- ==== Sys2Proof/Machine/Stepper.lean ====
section
/-! DEFINITION. Unit U5: the stepwise digest state machine (`45_stepper.md`): `STPNEW`, `STPADV`, `STPRST`. -/

namespace Sys2Proof.Machine

/-! ## STPNEW -/

/-- A new session over a message (R272). `ST.M` is not written and holds no value until the first LOADBLK: free (log 7). -/
def Stepper.create (data : List Byte) (draw : Nat) : Stepper :=
  { ctx :=
      { h := iv, w := ⟨iv.h0, iv.h1, iv.h2, iv.h3⟩, m := (Context.free draw).m, msglen := BitVec.ofNat 64 data.length }
    blkmem := Memory.store 0 (padMsg data) []
    nblk := BitVec.ofNat 64 (nblkOf data.length)
    blkidx := 0, stepidx := 0, phase := .ready, round := 0, widx := 0, pre := 0 }

/-- The block store holds a message of this many blocks (R270, X3). -/
def blkmemHolds (p : Params) (nblk : Nat) : Bool :=
  match p.blkmemBlocks with
  | none => true
  | some cap => nblk ≤ cap

/-- `STPNEW` (R270). `SRCK` other than `BYTES` raises `TYPE_SOURCE` (R274) and leaves the old session (R273). -/
def execStpnew (srck : BitVec 2) (s : State) : Result :=
  if srck ≠ 0#2 then .next (s.raiseFault .typeSource)
  else if Config.maxMsgBytes < s.data.length then .refused .messageTooLong
  else if blkmemHolds s.params (nblkOf s.data.length) then
    .next ({ s with st := Stepper.create s.data s.draws, draws := s.draws + 1 }.respond .created .none)
  else .refused .blkmemFull

/-! ## STPADV -/

/-- LOADBLK, INITW and step 0 of a block (R276, R279). -/
def Stepper.enterBlock (t : Stepper) (b : Nat) (blk : List Byte) : Stepper :=
  { t.withStep ((t.ctx.loadBlk blk).initW.stepAt 0#6) with
    blkidx := BitVec.ofNat 64 b, stepidx := 0#6, phase := .inStep }

/-- The transitions into `InStep(b, 0)` (R276, R279). -/
def State.advanceInto (b : Nat) (s : State) : Result :=
  match s.st.block b with
  | none => .fault .noSuchBlock
  | some blk => .next ({ s with st := s.st.enterBlock b blk }.respond .step .none)

/-- From `InStep(b, s)` with `s < 63` (R277): exactly one step. -/
def Stepper.nextStep (t : Stepper) : Stepper :=
  { t.withStep (t.ctx.stepAt (t.stepidx + 1#6)) with stepidx := t.stepidx + 1#6 }

/-- From `InStep(b, 63)` (R278). -/
def Stepper.foldBlock (t : Stepper) : Stepper := { t with ctx := t.ctx.fold, phase := .blockBoundary }

/-- The last transition (R280): the digest is delivered. -/
def State.completeSession (s : State) : State :=
  { s.deliver s.st.ctx.h with st := { s.st with phase := .completed } }.respond .complete .none

/-- `STPADV` (R275): exactly one transition, chosen by `ST.PHASE`. -/
def execStpadv (s : State) : Result :=
  match s.st.phase with
  | .noSession => .next (s.raiseFault .stateNoSession)
  | .ready => s.advanceInto 0
  | .inStep =>
    if s.st.stepidx.toNat < 63 then .next ({ s with st := s.st.nextStep }.respond .step .none)
    else .next ({ s with st := s.st.foldBlock }.respond .boundary .none)
  | .blockBoundary =>
    if s.st.blkidx.toNat + 1 < s.st.nblk.toNat then s.advanceInto (s.st.blkidx.toNat + 1)
    else if s.st.blkidx.toNat + 1 = s.st.nblk.toNat then .next s.completeSession
    else .fault .noTransition
  | .completed => .next (s.respond .already .stateCompleted)

/-! ## STPRST -/

/-- No session (R286): every field `STP_*` shows is 0; `M` and `MSGLEN` hold no value (free, log 7); `BLKMEM` has its
64 · NBLK = 0 bytes (log 8). -/
def Stepper.cleared (draw : Nat) : Stepper :=
  { Stepper.zero with
    ctx := { Context.zero with m := (Context.free draw).m, msglen := (Context.free draw).msglen } }

/-- `STPRST` (R285): legal in every phase. -/
def execStprst (s : State) : Result :=
  .next ({ s with st := Stepper.cleared s.draws, draws := s.draws + 1 }.respond .discarded .none)

end Sys2Proof.Machine
end

