-- ==== Sys2Proof/Machine/Dispatch.lean ====
section
/-! DEFINITION. What each instruction does: one arm per constructor. -/

namespace Sys2Proof.Machine

def exec (i : Instr) (s : State) : Host.Outcome State Fault Refusal :=
  match i with
  | .hash srck => Sys2Proof.Machine.execHash srck s
  | .hashf => Sys2Proof.Machine.execHashf s
  | .hashd => Sys2Proof.Machine.execHashd s
  | .stpnew srck => Sys2Proof.Machine.execStpnew srck s
  | .stpadv => Sys2Proof.Machine.execStpadv s
  | .stprst => Sys2Proof.Machine.execStprst s
  | .stepFF pos => Sys2Proof.Machine.execStepFF pos s
  | .stepGG pos => Sys2Proof.Machine.execStepGG pos s
  | .stepHH pos => Sys2Proof.Machine.execStepHH pos s
  | .stepII pos => Sys2Proof.Machine.execStepII pos s

end Sys2Proof.Machine
end

