-- ==== Sys2Proof/Machine/HostPort.lean ====
section
/-! DEFINITION. What the engine does next: its own step number, or the host's next transaction (R72, R86 of `20_memory.md`,
R33 of `10_state.md`). -/

namespace Sys2Proof.Machine

/-- What is to be done. -/
inductive Fetched where
  /-- An instruction is to be executed on a state. -/
  | run (i : Instr) (s : State)
  /-- The transaction is done. -/
  | settled (s : State)
  /-- No transaction of the interface. -/
  | refuse (r : Refusal)
deriving DecidableEq, Repr

/-- A write of `CMD` (R33): the word is decoded (R102); a word that is no command raises `ILLEGAL_CMD` (R106, R318). -/
def State.command (v : Word) (data : List Byte) (s : State) : Fetched :=
  let s' := { s with data := data }
  match decodeCmd v with
  | .ok i => .run i s'
  | .error _ => .settled (s'.raiseFault .illegalCmd)

/-- One transaction of the host (R39, R72), or the platform's reset (R350). -/
def State.transaction (op : HostOp) (s : State) : Fetched :=
  match op with
  | .reset => .settled s.resetEngine
  | .read off => if isRegOffset off then .settled { s with rdata := s.regRead off } else .refuse .notATransaction
  | .write off v data =>
    if isRegOffset off then
      if off = 0 then s.command v data else .settled (s.regWrite off v)
    else .refuse .notATransaction

/-- The step number the engine has produced comes before the host's next transaction, since a command is atomic (R83); without
either the engine is idle and keeps its state (R334). -/
def State.fetch (s : State) : Fetched :=
  match s.stepReq with
  | some i => .run (decodeStep i) { s with stepReq := none }
  | none =>
    match s.host with
    | [] => .settled s
    | op :: rest => { s with host := rest }.transaction op

end Sys2Proof.Machine
end

