-- ==== Sys2Proof/Safety.lean ====
section
/-! DEFINITION. What claims are stated in: the digest of a message as a pure function, environments that deliver a message,
and the invariant of the machine. -/

namespace Sys2Proof.Machine

/-! ## The digest of a message, as the rules define it -/

/-- `COMPRESS` as a function of four registers and a block (R160): "4 input registers" in, "4 updated registers" out. -/
def Chain.compress (h : Chain) (blk : List Byte) : Chain := ({ Context.zero with h := h }.compress blk).h

/-- The blocks of a byte sequence (R197): block `b` is `s[64b .. 64b + 64)`. -/
def blocksOf (s : List Byte) : List (List Byte) := (List.range (s.length / 64)).map fun b => slice s (64 * b) 64

/-- The digest of a message (R171): the blocks of `PADMSG(data)` compressed in order from `IV`. -/
def digestOfMessage (data : List Byte) : Chain := (blocksOf (padMsg data)).foldl Chain.compress iv

/-! ## Environments -/

/-- The answers a stream gives that delivers a message (R77): its full windows, then one shorter window. -/
def windowsOf (data : List Byte) : List ReadAnswer :=
  (List.range (data.length / 64 + 1)).map fun k => .window (Window.ofBytes (data.drop (64 * k)))

/-- An environment that never asks the command to stop (R80). -/
def Env.neverCancels (e : Env) : Prop := (∀ p ∈ e.polls, p = false) ∧ e.later.poll = false

/-- An environment that delivers the messages of `files`, one after another, each read through a handle of its own: what `EnvOpen` and
`SrcRead` answer next (R78, R249). -/
def Env.delivers (e : Env) (files : List (Word × List Byte)) : Prop :=
  (files.map fun f => OpenAnswer.opened f.1) <+: e.opens ∧ (files.flatMap fun f => windowsOf f.2) <+: e.reads

/-- The requests an environment has seen, oldest first (R86.3, log 20). -/
def Env.requests (e : Env) : List Request := e.seen.reverse

/-- What the environment will answer to `CancelPoll` number `k` from now on, counted from 0 (R80). -/
def Env.pollAnswer (e : Env) (k : Nat) : Bool := e.polls.getD k e.later.poll

/-- The next `n` answers to `CancelPoll` do not ask the command to stop. -/
def Env.continues (e : Env) (n : Nat) : Prop := ∀ k, k < n → e.pollAnswer k = false

/-- Poll number `n` from now on, counted from 0, is the first that asks the command to stop (R80). -/
def Env.cancelsAt (e : Env) (n : Nat) : Prop := e.continues n ∧ e.pollAnswer n = true

/-- A stream that delivers full windows for ever and is never cancelled (X6). -/
def Env.endlessStream (e : Env) : Prop :=
  e.neverCancels ∧ (∀ a ∈ e.reads, ∃ v : Window, a = .window v ∧ v.bytes.length = 64) ∧
    ∃ w : Window, e.later.read = .window w ∧ w.bytes.length = 64

/-! ## Requests, in the order the rules write them -/

/-- `n` full windows, each followed by the poll before the next read (R213, R216). -/
def windowRequests (src : SourceName) (n : Nat) : List Request := (List.replicate n [Request.srcRead src, .cancelPoll]).flatten

/-- The digest of `n` bytes: the full windows, then the final one (R214, R216). -/
def readRequests (src : SourceName) (n : Nat) : List Request := windowRequests src (n / 64) ++ [.srcRead src]

/-- The digest of a file of `n` bytes: opened, read, closed (R217, R218). -/
def fileRequests (id h : Word) (n : Nat) : List Request := .envOpen id :: (readRequests (.stream h) n ++ [.envClose h])

/-- The digests of files one after another, each followed by the poll before the next open or before the final digest (R249, R250):
the entries in their order, with the handle and the message each is answered with. -/
def filesRequests (ents : List (List Byte × Word)) (files : List (Word × List Byte)) : List Request :=
  (ents.zip files).flatMap fun x => fileRequests x.1.2 x.2.1 x.2.2.length ++ [.cancelPoll]

/-- How many polls that takes. -/
def pollCount (files : List (Word × List Byte)) : Nat := (files.map fun f => f.2.length / 64 + 1).sum

/-! ## Directory trees -/

/-- The content of a directory, entry by entry in list order, with the content of each subdirectory: a finite tree (R243). -/
inductive Forest where
  | nil
  | file (name : List Byte) (id : Word) (rest : Forest)
  | other (name : List Byte) (id : Word) (rest : Forest)
  | dir (name : List Byte) (id : Word) (content rest : Forest)
deriving DecidableEq, Repr

/-- What `EnvScan` answers for the directory itself (R79). -/
def Forest.entries : Forest → List Entry
  | .nil => []
  | .file n i r => ⟨n, .file, i⟩ :: r.entries
  | .other n i r => ⟨n, .other, i⟩ :: r.entries
  | .dir n i _ r => ⟨n, .dir, i⟩ :: r.entries

/-- What `EnvScan` answers for the directories below it, depth first in list order (log 12). -/
def Forest.answers : Forest → List ScanAnswer
  | .nil => []
  | .file _ _ r => r.answers
  | .other _ _ r => r.answers
  | .dir _ _ c r => .entries c.entries :: (c.answers ++ r.answers)

/-- The identifiers of the directories below it, each once, in the same order. -/
def Forest.dirs : Forest → List Word
  | .nil => []
  | .file _ _ r => r.dirs
  | .other _ _ r => r.dirs
  | .dir _ i c r => i :: (c.dirs ++ r.dirs)

/-- Every regular file at or below it, with its key: the names of the directories on the way, each followed by `PATH_SEP`, and its own name
(R243, R244, R245). -/
def Forest.files (sep pre : List Byte) : Forest → List (List Byte × Word)
  | .nil => []
  | .file n i r => (pre ++ n, i) :: r.files sep pre
  | .other _ _ r => r.files sep pre
  | .dir n _ c r => c.files sep (pre ++ n ++ sep) ++ r.files sep pre

/-- What `EnvScan` answers when the root has this content, in the order the walk asks. -/
def Forest.scans (f : Forest) : List ScanAnswer := .entries f.entries :: f.answers

/-- The directory table holds this many files: `DIR_MAX_ENTRIES` (R243). -/
def tableHolds (p : Params) (n : Nat) : Prop := ∀ cap, p.dirMaxEntries = some cap → n ≤ cap

/-- How many entries of a kind these answers present. -/
def presented (k : EntryKind) (ls : List (List Entry)) : Nat := (ls.map fun l => l.countP fun e => e.kind = k).sum

/-- After each of these scans, the root's first, there is a directory still to scan (R243). -/
def walkGoesOn (ls : List (List Entry)) : Prop := ∀ j, 0 < j → j ≤ ls.length → j ≤ presented .dir (ls.take j)

/-! ## The invariant -/

/-- The bytes of block `b` of the session. -/
def Stepper.blockBytes (t : Stepper) (b : Nat) : List Byte := t.blkmem.readBytes (64 * b) 64

/-- The chaining values on entry to block `b` (R290). -/
def Stepper.chainBefore (t : Stepper) (b : Nat) : Chain :=
  (List.range b).foldl (fun h k => h.compress (t.blockBytes k)) iv

/-- The context on entry to block `b`, before its step 0 (R276, R279). -/
def Stepper.entry (t : Stepper) (b : Nat) : Context :=
  (({ t.ctx with h := t.chainBefore b } : Context).loadBlk (t.blockBytes b)).initW

/-- `ROUND`, `WIDX` and `PRE` are those of step `i` of block `b` (R290). -/
def Stepper.recordOf (t : Stepper) (b i : Nat) : Prop :=
  let r := (((t.entry b).steps i).stepAt (BitVec.ofNat 6 i)).2
  t.round = r.round ∧ t.widx = r.widx ∧ t.pre = r.pre

/-- The session is one over this message (R272). -/
def Stepper.holdsMessage (t : Stepper) (data : List Byte) : Prop :=
  data.length ≤ Config.maxMsgBytes ∧ t.blkmem = Memory.store 0 (padMsg data) [] ∧
    t.nblk = BitVec.ofNat 64 (nblkOf data.length) ∧ t.ctx.msglen = BitVec.ofNat 64 data.length

/-- No session: every field `STP_*` shows is 0, and BLKMEM has no byte (R38, R286). -/
def Stepper.isClear (t : Stepper) : Prop :=
  t.ctx.h = ⟨0, 0, 0, 0⟩ ∧ t.ctx.w = ⟨0, 0, 0, 0⟩ ∧ t.blkidx = 0 ∧ t.nblk = 0 ∧ t.stepidx = 0 ∧ t.round = 0 ∧ t.widx = 0 ∧
    t.pre = 0 ∧ t.blkmem = []

/-- `Ready` (R290). -/
def Stepper.isReady (t : Stepper) : Prop :=
  t.ctx.h = iv ∧ t.ctx.w = ⟨iv.h0, iv.h1, iv.h2, iv.h3⟩ ∧ t.blkidx = 0 ∧ t.stepidx = 0 ∧ t.round = 0 ∧ t.widx = 0 ∧ t.pre = 0

/-- `InStep(b, s)` (R290): the registers after step `s` of block `b`, and the record of that step. -/
def Stepper.isInStep (t : Stepper) : Prop :=
  t.blkidx.toNat < t.nblk.toNat ∧ t.ctx = (t.entry t.blkidx.toNat).steps (t.stepidx.toNat + 1) ∧
    t.recordOf t.blkidx.toNat t.stepidx.toNat

/-- All 64 steps of block `b` done and folded (R278, R290). -/
def Stepper.isFolded (t : Stepper) : Prop :=
  t.blkidx.toNat < t.nblk.toNat ∧ t.stepidx = 63#6 ∧ t.ctx = ((t.entry t.blkidx.toNat).steps 64).fold ∧
    t.recordOf t.blkidx.toNat 63

/-- What `ST` holds in each phase (R31, R290). -/
def Stepper.ok (t : Stepper) : Prop :=
  match t.phase with
  | .noSession => t.isClear
  | .ready => (∃ data, t.holdsMessage data) ∧ t.isReady
  | .inStep => (∃ data, t.holdsMessage data) ∧ t.isInStep
  | .blockBoundary => (∃ data, t.holdsMessage data) ∧ t.isFolded
  | .completed => (∃ data, t.holdsMessage data) ∧ t.isFolded ∧ t.blkidx.toNat + 1 = t.nblk.toNat

/-- The outcomes a command can leave in `STATUS` (R34, R108, R311): which cause and which phase go with each `RKIND`. -/
def statusOk (k : RKind) (c : Cause) (p : Phase) : Prop :=
  match k with
  | .none => c = .none ∧ p = .noSession
  | .digest => c = .none
  | .created => c = .none ∧ p = .ready
  | .step => c = .none ∧ p = .inStep
  | .boundary => c = .none ∧ p = .blockBoundary
  | .complete => c = .none ∧ p = .completed
  | .already => c = .stateCompleted ∧ p = .completed
  | .discarded => c = .none ∧ p = .noSession
  | .error =>
    c ∈ [.typeSource, .ioNotFound, .ioOpen, .ioRead, .ioNotDir, .ioScan, .ioEmpty, .illegalCmd] ∨
      (c = .stateNoSession ∧ p = .noSession)
  | .cancelled => c = .none

/-- `DIGHEX*` is the rendering of `DIGEST*` (R37), or neither was written since reset (R41). -/
def State.resultOk (s : State) : Prop :=
  s.dighex = packHex (render s.digest) ∨ (s.digest = ⟨0, 0, 0, 0⟩ ∧ s.dighex = Vector.replicate 8 0)

/-- THE INVARIANT. No step number is pending between transactions (a command is atomic, R83); BLKMEM is in its canonical form; the stepper
shows what its phase says; the status is one a command can leave; the two result forms agree. -/
structure State.Inv (s : State) : Prop where
  noStepPending : s.stepReq = none
  memoryCanonical : s.st.blkmem.wf
  stepperOk : s.st.ok
  statusOk : Machine.statusOk s.rkind s.cause s.st.phase
  resultOk : s.resultOk

/-! ## Words claims use -/

/-- The state R163 gives after a step with round function `fn`, message-word index `g`, constant `k`, amount `n`, of round `rnd`: on the context
`stepCtx` names, with the record in the stepper's registers (R29) if that is `ST`. Every other field is the old one. -/
def afterStep (fn : Word → Word → Word → Word) (g : BitVec 4) (k : Word) (n : Nat) (rnd : BitVec 3) (s : State) : State :=
  let pre := fun x : Context => x.w.a + fn x.w.b x.w.c x.w.d + k + x.word g
  let new := fun x : Context => ({ x with w := ⟨x.w.d, x.w.b + rotl32 (pre x) n, x.w.b, x.w.c⟩ } : Context)
  match s.stepCtx with
  | .sc => { s with sc := { s.sc with ctx := new s.sc.ctx } }
  | .st => { s with st := { s.st with ctx := new s.st.ctx, round := rnd, widx := g, pre := pre s.st.ctx } }

/-- The position of the cursor in the order of R31: `Ready < InStep(0,0) < … < InStep(0,63) < BlockBoundary(0) < InStep(1,0) < … < Completed`. -/
def Stepper.position (t : Stepper) : Nat :=
  match t.phase with
  | .noSession => 0
  | .ready => 0
  | .inStep => 65 * t.blkidx.toNat + t.stepidx.toNat + 1
  | .blockBoundary => 65 * t.blkidx.toNat + 65
  | .completed => 65 * t.nblk.toNat + 1

/-- An instruction the host writes to `CMD` (R100); the others are step numbers. -/
def isCommand : Instr → Bool
  | .stepFF _ => false
  | .stepGG _ => false
  | .stepHH _ => false
  | .stepII _ => false
  | .hash _ => true
  | .hashf => true
  | .hashd => true
  | .stpnew _ => true
  | .stpadv => true
  | .stprst => true

/-- The outcome with a function applied to its next state. -/
def mapNext (f : State → State) : Result → Result
  | .next s => .next (f s)
  | .fault r => .fault r
  | .refused r => .refused r

/-! ## Runs -/

/-- The same command issued `n` times, stopping at the first fault or refusal (`RUN` of R114, with `STPADV`). -/
def repeatExec (i : Instr) : Nat → State → Result
  | 0, s => .next s
  | n + 1, s =>
    match exec i s with
    | .next t => repeatExec i n t
    | .fault f => .fault f
    | .refused r => .refused r

end Sys2Proof.Machine
end

