-- ==== Sys2Proof/Certificates/Slice0/Obligations.lean ====
section
/-! DEFINITION. What is claimed of the model, for the provers: from the numbered rules of `spec/`. -/

open Sys2Proof Sys2Proof.Machine

/-! ## Encoding and decoding -/

/-- R100, R101, R103, R111: a byte sequence decodes to an instruction exactly when it is that instruction's encoding, so no bit of an encoding is
dropped and no reserved encoding falls to an instruction. -/
def Obligations.DecodeExactlyEncodings : Prop :=
  ∀ (bs : List Byte) (i : Instr), decode bs = .ok i ↔ encode i = bs

/-- R81, R101, R103, R104, R111: words written out by hand from the tables. That a step number is one byte with bits 7 and 6 zero is the model's layout (log 22). -/
def Obligations.WrittenWordsDecode : Prop :=
  decode [0x01, 0x00, 0x00, 0x00] = .ok (.hash 0) ∧ decode [0x01, 0x01, 0x00, 0x00] = .ok (.hash 1) ∧
  decode [0x02, 0x00, 0x00, 0x00] = .ok .hashf ∧ decode [0x03, 0x00, 0x00, 0x00] = .ok .hashd ∧
  decode [0x04, 0x00, 0x00, 0x00] = .ok (.stpnew 0) ∧ decode [0x05, 0x00, 0x00, 0x00] = .ok .stpadv ∧
  decode [0x06, 0x00, 0x00, 0x00] = .ok .stprst ∧ decode [0b00000101] = .ok (.stepFF 5) ∧
  decode [0b00010001] = .ok (.stepGG 1) ∧ decode [0b00101001] = .ok (.stepHH 9) ∧ decode [0b00111111] = .ok (.stepII 15)

/-- A step runs the decoded command: when the next transaction is a write of `CMD` whose word decodes to an instruction, the step is that
instruction on the state with the transaction taken and its data operand presented (R33, R75; the queue and the data port are the model's, logs 1 and 14). -/
def Obligations.StepRunsDecodedCommand : Prop :=
  ∀ (s : State) (w : Word) (data : List Byte) (rest : List HostOp) (i : Instr),
    s.stepReq = none → s.host = .write 0x00 w data :: rest → decode (bytesLE 4 w.toNat) = .ok i →
      step s = exec i { s with host := rest, data := data }

/-- A step runs the decoded step number (R100, R111), before any transaction of the host (R83); the pending number is the model's (log 4). -/
def Obligations.StepRunsStepNumber : Prop :=
  ∀ (s : State) (n : BitVec 6) (i : Instr),
    s.stepReq = some n → decode [n.setWidth 8] = .ok i → step s = exec i { s with stepReq := none }

/-- The instruction of a table word placed by `withFetchWord` is what the next step runs (log 2). -/
def Obligations.PlacedWordRuns : Prop :=
  (∀ (s : State) (w : Nat) (i : Instr), w < 2 ^ 32 → decodeTableWord 32 w = some i →
    step (s.withFetchWord 32 w) = exec i { s with stepReq := none }) ∧
  (∀ (s : State) (w : Nat) (i : Instr), w < 2 ^ 8 → decodeTableWord 8 w = some i →
    step (s.withFetchWord 8 w) = exec i { s with stepReq := none })

/-- R102, check by check in its order: the command word is what the first check that fails says, and otherwise the command of R103 is executed. -/
def Obligations.CommandWordChecks : Prop :=
  ∀ (s : State) (w : Word) (data : List Byte) (rest : List HostOp),
    s.stepReq = none → s.host = .write 0x00 w data :: rest →
      let s' := { s with host := rest, data := data }
      let illegal := step s = .next { s' with rkind := .error, cause := .illegalCmd }
      let badSource := step s = .next { s' with rkind := .error, cause := .typeSource }
      let opc := w.toNat % 2 ^ 8
      let srck := w.toNat / 2 ^ 8 % 2 ^ 2
      if w.toNat / 2 ^ 10 ≠ 0 then illegal
      else if opc < 1 ∨ 6 < opc then illegal
      else if (opc = 2 ∨ opc = 3 ∨ opc = 5 ∨ opc = 6) ∧ srck ≠ 0 then illegal
      else if opc = 1 ∧ 2 ≤ srck then badSource
      else if opc = 4 ∧ srck ≠ 0 then badSource
      else
        (opc = 1 → step s = exec (.hash (BitVec.ofNat 2 srck)) s') ∧ (opc = 2 → step s = exec .hashf s') ∧
        (opc = 3 → step s = exec .hashd s') ∧ (opc = 4 → step s = exec (.stpnew 0) s') ∧
        (opc = 5 → step s = exec .stpadv s') ∧ (opc = 6 → step s = exec .stprst s')

/-- R111, R112: the step number selects the kind, and the operands of step `i`: round, message-word index, and constant and amount as used in `pre` and
the new `B`. -/
def Obligations.StepNumberSelects : Prop :=
  ∀ (i : BitVec 6) (x : Context),
    (i.toNat < 16 → x.stepAt i = x.stepFF (BitVec.ofNat 4 i.toNat) ∧ (x.stepAt i).2.round = 1 ∧
      (x.stepAt i).2.widx = BitVec.ofNat 4 i.toNat) ∧
    (16 ≤ i.toNat → i.toNat < 32 → x.stepAt i = x.stepGG (BitVec.ofNat 4 i.toNat) ∧ (x.stepAt i).2.round = 2 ∧
      (x.stepAt i).2.widx = BitVec.ofNat 4 (5 * i.toNat + 1)) ∧
    (32 ≤ i.toNat → i.toNat < 48 → x.stepAt i = x.stepHH (BitVec.ofNat 4 i.toNat) ∧ (x.stepAt i).2.round = 3 ∧
      (x.stepAt i).2.widx = BitVec.ofNat 4 (3 * i.toNat + 5)) ∧
    (48 ≤ i.toNat → x.stepAt i = x.stepII (BitVec.ofNat 4 i.toNat) ∧ (x.stepAt i).2.round = 4 ∧
      (x.stepAt i).2.widx = BitVec.ofNat 4 (7 * i.toNat))

/-! ## The register space -/

/-- R32: what `RegRead` returns at every offset of the map, and that the read changes nothing but the value handed to the host (log 15). -/
def Obligations.RegisterMap : Prop :=
  ∀ (s : State) (off : Nat) (rest : List HostOp), s.stepReq = none → s.host = .read off :: rest → off % 4 = 0 → off ≤ 0xFC →
    ∃ v, step s = .next { s with host := rest, rdata := v } ∧
      (off = 0x04 → v = s.statusWord) ∧ (off = 0x08 → v = s.srcid) ∧
      (off = 0x10 → v = s.digest.h0) ∧ (off = 0x14 → v = s.digest.h1) ∧ (off = 0x18 → v = s.digest.h2) ∧ (off = 0x1C → v = s.digest.h3) ∧
      (∀ k : Fin 8, off = 0x20 + 4 * k.val → v = s.dighex[k]) ∧
      (off = 0x40 → v = s.st.ctx.w.a) ∧ (off = 0x44 → v = s.st.ctx.w.b) ∧ (off = 0x48 → v = s.st.ctx.w.c) ∧ (off = 0x4C → v = s.st.ctx.w.d) ∧
      (off = 0x50 → v = s.st.ctx.h.h0) ∧ (off = 0x54 → v = s.st.ctx.h.h1) ∧ (off = 0x58 → v = s.st.ctx.h.h2) ∧
      (off = 0x5C → v = s.st.ctx.h.h3) ∧
      (off = 0x60 → v.toNat = s.st.blkidx.toNat % 2 ^ 32) ∧ (off = 0x64 → v.toNat = s.st.blkidx.toNat / 2 ^ 32) ∧
      (off = 0x68 → v.toNat = s.st.nblk.toNat % 2 ^ 32) ∧ (off = 0x6C → v.toNat = s.st.nblk.toNat / 2 ^ 32) ∧
      (off = 0x70 → v.toNat = s.st.stepidx.toNat) ∧ (off = 0x74 → v.toNat = s.st.round.toNat) ∧
      (off = 0x78 → v.toNat = s.st.widx.toNat) ∧ (off = 0x7C → v = s.st.pre) ∧
      (off = 0x00 ∨ off = 0x0C ∨ 0x80 ≤ off → v = 0)

/-- R35, R39: a write of `SRCID` stores the word; a write to any other offset but `CMD` changes nothing. The transaction is taken off the model's queue. -/
def Obligations.RegisterWrites : Prop :=
  ∀ (s : State) (off : Nat) (v : Word) (data : List Byte) (rest : List HostOp),
    s.stepReq = none → s.host = .write off v data :: rest → off % 4 = 0 → off ≤ 0xFC → off ≠ 0x00 →
      (off = 0x08 → step s = .next { s with host := rest, srcid := v }) ∧
      (off ≠ 0x08 → step s = .next { s with host := rest })

/-- R34: the fields of `STATUS`, with the codes of R108 (`RKIND`), R30 (`PHASE`) and R311 (`CAUSE`) written out; bit 7 and the upper half read 0. -/
def Obligations.StatusFields : Prop :=
  ∀ s : State,
    let w := (s.regRead 0x04).toNat
    w / 2 ^ 7 % 2 = 0 ∧ w / 2 ^ 16 = 0 ∧
    (∀ x ∈ [(RKind.none, 0), (.digest, 1), (.created, 2), (.step, 3), (.boundary, 4), (.complete, 5), (.already, 6), (.discarded, 7), (.error, 8),
        (.cancelled, 9)], s.rkind = x.1 → w % 2 ^ 4 = x.2) ∧
    (∀ x ∈ [(Phase.noSession, 0), (.ready, 1), (.inStep, 2), (.blockBoundary, 3), (.completed, 4)], s.st.phase = x.1 → w / 2 ^ 4 % 2 ^ 3 = x.2) ∧
    (∀ x ∈ [(Cause.none, 0x00), (.typeSource, 0x10), (.ioNotFound, 0x20), (.ioOpen, 0x21), (.ioRead, 0x22), (.ioNotDir, 0x23), (.ioScan, 0x24),
        (.ioEmpty, 0x25), (.encoding, 0x30), (.validation, 0x40), (.stateCompleted, 0x50), (.stateNoSession, 0x51), (.illegalCmd, 0x60)],
      s.cause = x.1 → w / 2 ^ 8 % 2 ^ 8 = x.2)

/-- R38: without a session every `STP_*` register reads 0. -/
def Obligations.NoSessionReadsZero : Prop :=
  ∀ (s : State) (off : Nat), s.Inv → s.st.phase = .noSession → 0x40 ≤ off → off ≤ 0x7C → s.regRead off = 0

/-- R41, R351, R352: what reset leaves, in the state after power-on and after a reset of the platform: status clear, no digest, no session; and the engine idles (R334).
That an idle engine is a step that changes nothing, and that the platform's reset keeps the parameters and the host's list, are the model's (logs 1, 16). -/
def Obligations.ResetValues : Prop :=
  (∀ off, State.reset.regRead off = 0) ∧ State.reset.st.phase = .noSession ∧ State.reset.rkind = .none ∧ State.reset.cause = .none ∧
    step State.reset = .next State.reset ∧
    ∀ (s : State) (rest : List HostOp), s.stepReq = none → s.host = .reset :: rest →
      ∃ t, step s = .next t ∧ (∀ off, t.regRead off = 0) ∧ t.st.phase = .noSession ∧ t.env = s.env ∧ t.host = rest ∧ t.params = s.params

/-! ## Primitives and the block compressor -/

/-- R142: `rotl32(x, n)` as a number, and where each bit goes. -/
def Obligations.RotateLeft : Prop :=
  ∀ (x : Word) (n : Nat), 1 ≤ n → n ≤ 31 →
    (rotl32 x n).toNat = x.toNat * 2 ^ n % 2 ^ 32 + x.toNat / 2 ^ (32 - n) ∧
    ∀ k, k < 32 → (rotl32 x n).getLsbD ((k + n) % 32) = x.getLsbD k

/-- R143 to R146: bit by bit, `F` selects by `B`, `G` selects by `D`, `H` is the exclusive or, `I` is `C ⊕ (B ∨ ¬D)`. -/
def Obligations.RoundFunctions : Prop :=
  ∀ (b c d : Word) (k : Nat), k < 32 →
    (fnF b c d).getLsbD k = (if b.getLsbD k then c.getLsbD k else d.getLsbD k) ∧
    (fnG b c d).getLsbD k = (if d.getLsbD k then b.getLsbD k else c.getLsbD k) ∧
    (fnH b c d).getLsbD k = ((b.getLsbD k ^^ c.getLsbD k) ^^ d.getLsbD k) ∧
    (fnI b c d).getLsbD k = (c.getLsbD k ^^ (b.getLsbD k || !d.getLsbD k))

/-- R163 to R167: the whole next state of each step row, for either context: registers, record, and nothing else (the frame). -/
def Obligations.StepKinds : Prop :=
  ∀ (pos : BitVec 4) (s : State),
    (let i := pos.toNat
     exec (.stepFF pos) s = .next (afterStep fnF (BitVec.ofNat 4 i) (tTable.getD i 0) ([7, 12, 17, 22].getD (i % 4) 0) 1 s)) ∧
    (let i := 16 + pos.toNat
     exec (.stepGG pos) s = .next (afterStep fnG (BitVec.ofNat 4 (5 * i + 1)) (tTable.getD i 0) ([5, 9, 14, 20].getD (i % 4) 0) 2 s)) ∧
    (let i := 32 + pos.toNat
     exec (.stepHH pos) s = .next (afterStep fnH (BitVec.ofNat 4 (3 * i + 5)) (tTable.getD i 0) ([4, 11, 16, 23].getD (i % 4) 0) 3 s)) ∧
    (let i := 48 + pos.toNat
     exec (.stepII pos) s = .next (afterStep fnI (BitVec.ofNat 4 (7 * i)) (tTable.getD i 0) ([6, 10, 15, 21].getD (i % 4) 0) 4 s))

/-- The four step rows leave every flag, every register of the register space but the step's own, the environment and every byte of BLKMEM (R163). -/
def Obligations.StepKindsFrame : Prop :=
  ∀ (pos : BitVec 4) (s t : State) (i : Instr), i ∈ [.stepFF pos, .stepGG pos, .stepHH pos, .stepII pos] → exec i s = .next t →
    t.statusWord = s.statusWord ∧ t.srcid = s.srcid ∧ t.digest = s.digest ∧ t.dighex = s.dighex ∧ t.dd = s.dd ∧ t.env = s.env ∧
    t.sc.win = s.sc.win ∧ t.sc.ctx.h = s.sc.ctx.h ∧ t.sc.ctx.m = s.sc.ctx.m ∧ t.sc.ctx.msglen = s.sc.ctx.msglen ∧
    t.st.ctx.h = s.st.ctx.h ∧ t.st.ctx.m = s.st.ctx.m ∧ t.st.ctx.msglen = s.st.ctx.msglen ∧
    t.st.nblk = s.st.nblk ∧ t.st.blkidx = s.st.blkidx ∧ t.st.stepidx = s.st.stepidx ∧ t.st.phase = s.st.phase ∧
    (∀ a, t.st.blkmem.read a = s.st.blkmem.read a) ∧ (s.stepCtx = .sc → t.st = s.st) ∧ (s.stepCtx = .st → t.sc = s.sc)

/-- R160: the chaining registers after `COMPRESS` depend on the chaining registers before and on the block, and on nothing else. -/
def Obligations.CompressIsPure : Prop :=
  ∀ (x y : Context) (blk : List Byte), x.h = y.h → (x.compress blk).h = (y.compress blk).h

/-- R161, R162, R169: LOADBLK, INITW (which the spec marks as derived from the fold) and FOLD. -/
def Obligations.LoadInitFold : Prop :=
  ∀ (x : Context) (blk : List Byte), blk.length = 64 →
    (∀ j : Fin 16, ((x.loadBlk blk).m[j]).toNat =
      (blk.getD (4 * j.val) 0).toNat + 2 ^ 8 * (blk.getD (4 * j.val + 1) 0).toNat + 2 ^ 16 * (blk.getD (4 * j.val + 2) 0).toNat +
        2 ^ 24 * (blk.getD (4 * j.val + 3) 0).toNat) ∧
    ((x.loadBlk blk).h = x.h ∧ (x.loadBlk blk).w = x.w ∧ (x.loadBlk blk).msglen = x.msglen) ∧
    x.initW = { x with w := ⟨x.h.h0, x.h.h1, x.h.h2, x.h.h3⟩ } ∧
    x.fold = { x with h := ⟨x.h.h0 + x.w.a, x.h.h1 + x.w.b, x.h.h2 + x.w.c, x.h.h3 + x.w.d⟩ }

/-! ## Padding -/

/-- R192, R193, R195: the padded message byte by byte: the message, 0x80, zeros, and the bit length in the last eight bytes. -/
def Obligations.PaddingLayout : Prop :=
  ∀ data : List Byte, data.length ≤ Config.maxMsgBytes →
    (∀ k, k < data.length → (padMsg data)[k]? = data[k]?) ∧
    (padMsg data)[data.length]? = some 0x80 ∧
    (∀ k, data.length < k → k < 64 * nblkOf data.length - 8 → (padMsg data)[k]? = some 0) ∧
    (∀ k, k < 8 → (padMsg data)[64 * nblkOf data.length - 8 + k]? = some (BitVec.ofNat 8 (8 * data.length / 2 ^ (8 * k))))

/-- R196, R197: the padded message is `NBLK(n)` whole blocks, `NBLK(n)` is `n div 64` plus one or two, and the padding adds 9 to 72 bytes (R194); the
spec marks the count as derived from R192. -/
def Obligations.BlockCount : Prop :=
  ∀ data : List Byte,
    (padMsg data).length = 64 * nblkOf data.length ∧
    (data.length % 64 ≤ 55 → nblkOf data.length = data.length / 64 + 1) ∧
    (56 ≤ data.length % 64 → nblkOf data.length = data.length / 64 + 2) ∧
    (data.length ≤ Config.maxMsgBytes → nblkOf data.length ≤ 2 ^ 55 + 1) ∧
    data.length + 9 ≤ (padMsg data).length ∧ (padMsg data).length ≤ data.length + 72

/-! ## HASH, HASHF -/

/-- R210, R211, R219: `HASH.B` of an admitted message that is not cancelled delivers the digest of the padded message's blocks, with its rendering. -/
def Obligations.HashBytesDelivers : Prop :=
  ∀ s : State, s.data.length ≤ Config.maxMsgBytes → s.env.neverCancels →
    ∃ t, exec (.hash 0) s = .next t ∧ t.digest = digestOfMessage s.data ∧ t.dighex = packHex (render (digestOfMessage s.data)) ∧
      t.rkind = .digest ∧ t.cause = .none

/-- R210, R214, R216, R219 (which the spec marks as derived): `HASH.S` of a stream that delivers a message gives the digest `HASH.B` gives of the same bytes. The message is
read with one poll between each two reads, its short window is the last read, what the stream holds beyond it stays, and no other request is made. -/
def Obligations.HashStreamEqualsBytes : Prop :=
  ∀ (s : State) (msg : List Byte) (more : List ReadAnswer), msg.length ≤ Config.maxMsgBytes → s.env.continues (msg.length / 64) →
    s.env.reads = windowsOf msg ++ more →
    ∃ t u, exec (.hash 1) s = .next t ∧ exec (.hash 0) { s with data := msg } = .next u ∧
      t.digest = digestOfMessage msg ∧ t.rkind = .digest ∧ t.cause = .none ∧
      t.digest = u.digest ∧ t.dighex = u.dighex ∧ t.statusWord = u.statusWord ∧
      t.env.reads = more ∧ t.env.polls = s.env.polls.drop (msg.length / 64) ∧ t.env.opens = s.env.opens ∧
      t.env.requests = s.env.requests ++ readRequests (.stream s.srcid) msg.length

/-- R217, R219 (which the spec marks as derived): `HASHF` of a file that opens and delivers a message gives its digest; the requests are the open, the reads of its
handle with one poll between each two, the short window's the last (R214, R216), and the close (R218). -/
def Obligations.HashFileDelivers : Prop :=
  ∀ (s : State) (h : Word) (msg : List Byte) (more : List ReadAnswer), msg.length ≤ Config.maxMsgBytes → s.env.continues (msg.length / 64) →
    s.env.opens.headD s.env.later.opened = .opened h → s.env.reads = windowsOf msg ++ more →
    ∃ t, exec .hashf s = .next t ∧ t.digest = digestOfMessage msg ∧ t.dighex = packHex (render (digestOfMessage msg)) ∧
      t.rkind = .digest ∧ t.cause = .none ∧ t.env.reads = more ∧ t.env.polls = s.env.polls.drop (msg.length / 64) ∧ t.env.opens = s.env.opens.tail ∧
      t.env.requests = s.env.requests ++ fileRequests s.srcid h msg.length

/-- R110, R222: after a delivery character `2k` of the rendering, at offset 0x20 + 2k (R37), is the digit of the high half of byte `k` of the digest, at offset
0x10 + k (R36, R221), and character `2k + 1` that of its low half; a digit is `0` to `9`, then lowercase `a` to `f`. That the
high half comes first the spec supplies from general knowledge (G3, log 18). -/
def Obligations.DeliveredTextIsDigest : Prop :=
  (∀ n, n < 10 → (hexDigit n).toNat = 0x30 + n) ∧ (∀ n, 10 ≤ n → n < 16 → (hexDigit n).toNat = 0x61 + (n - 10)) ∧
  ∀ (s : State) (h : Chain) (k : Nat), k < 16 →
    let t := s.deliver h
    t.regByte (0x20 + 2 * k) = hexDigit ((t.regByte (0x10 + k)).toNat / 16) ∧
    t.regByte (0x20 + 2 * k + 1) = hexDigit ((t.regByte (0x10 + k)).toNat % 16) ∧
    (t.regByte (0x10 + k)).toNat = ([h.h0, h.h1, h.h2, h.h3].getD (k / 4) 0).toNat / 2 ^ (8 * (k % 4)) % 256

/-- R312: `HASH` with `SRCK` 2 or 3, and `STPNEW` with `SRCK` 1, 2 or 3, raise `TYPE_SOURCE` and change nothing but `STATUS` (R273: the old session stays). -/
def Obligations.TypeSourceFaults : Prop :=
  ∀ (s : State) (k : BitVec 2),
    (2 ≤ k.toNat → exec (.hash k) s = .next { s with rkind := .error, cause := .typeSource }) ∧
    (1 ≤ k.toNat → exec (.stpnew k) s = .next { s with rkind := .error, cause := .typeSource })

/-- R313, R314: a file that cannot be opened ends `HASHF` with its cause; nothing is delivered and the one request made is the open. -/
def Obligations.HashFileCannotOpen : Prop :=
  ∀ (s : State) (a : OpenAnswer), s.env.opens.headD s.env.later.opened = a →
    (a = .notFound → ∃ t, exec .hashf s = .next t ∧ t.rkind = .error ∧ t.cause = .ioNotFound ∧ t.digest = s.digest ∧ t.dighex = s.dighex ∧
      t.env.seen = .envOpen s.srcid :: s.env.seen) ∧
    (a = .fail → ∃ t, exec .hashf s = .next t ∧ t.rkind = .error ∧ t.cause = .ioOpen ∧ t.digest = s.digest ∧ t.dighex = s.dighex ∧
      t.env.seen = .envOpen s.srcid :: s.env.seen)

/-- R215, R315: a read that fails after any number of full windows ends `HASH.S` and `HASHF` with `IO_READ`; no digest is delivered, the failing read is the last, and
a handle the engine opened is closed (R218). (For the files of `HASHD` see FirstFileFailureDecides.) -/
def Obligations.ReadFailureFaults : Prop :=
  ∀ (s : State) (ws : List Window) (rest : List ReadAnswer), s.env.continues ws.length → (∀ w ∈ ws, w.bytes.length = 64) →
    64 * ws.length ≤ Config.maxMsgBytes → s.env.reads = ws.map ReadAnswer.window ++ .fail :: rest →
      (∃ t, exec (.hash 1) s = .next t ∧ t.rkind = .error ∧ t.cause = .ioRead ∧ t.digest = s.digest ∧ t.dighex = s.dighex ∧
        t.env.requests = s.env.requests ++ windowRequests (.stream s.srcid) ws.length ++ [.srcRead (.stream s.srcid)]) ∧
      (∀ h, s.env.opens.headD s.env.later.opened = .opened h →
        ∃ t, exec .hashf s = .next t ∧ t.rkind = .error ∧ t.cause = .ioRead ∧ t.digest = s.digest ∧ t.dighex = s.dighex ∧
          t.env.requests = s.env.requests ++ .envOpen s.srcid :: (windowRequests (.stream h) ws.length ++ [.srcRead (.stream h), .envClose h]))

/-- R216, R325, R326, R363: a cancel request seen after `n` full windows ends `HASH.B`, `HASH.S` and `HASHF` as `CANCELLED`, before the read that would follow; nothing is
delivered, and a handle the engine opened is closed (R218). (For `HASHD` see CancelEndsDirectory.) -/
def Obligations.CancelEndsStream : Prop :=
  (∀ (s : State) (n : Nat), 64 * (n + 1) ≤ s.data.length → 64 * (n + 1) ≤ Config.maxMsgBytes → s.env.cancelsAt n →
    ∃ t, exec (.hash 0) s = .next t ∧ t.rkind = .cancelled ∧ t.cause = .none ∧ t.digest = s.digest ∧ t.dighex = s.dighex ∧
      t.env.reads = s.env.reads ∧ t.env.polls = s.env.polls.drop (n + 1) ∧ t.env.requests = s.env.requests ++ windowRequests .bytes (n + 1)) ∧
  ∀ (s : State) (ws : List Window) (w : Window) (rest : List ReadAnswer), (∀ v ∈ ws ++ [w], v.bytes.length = 64) →
    64 * (ws.length + 1) ≤ Config.maxMsgBytes → s.env.reads = (ws ++ [w]).map ReadAnswer.window ++ rest → s.env.cancelsAt ws.length →
      (∃ t, exec (.hash 1) s = .next t ∧ t.rkind = .cancelled ∧ t.cause = .none ∧ t.digest = s.digest ∧ t.dighex = s.dighex ∧
        t.env.reads = rest ∧ t.env.polls = s.env.polls.drop (ws.length + 1) ∧
        t.env.requests = s.env.requests ++ windowRequests (.stream s.srcid) (ws.length + 1)) ∧
      (∀ h, s.env.opens.headD s.env.later.opened = .opened h →
        ∃ t, exec .hashf s = .next t ∧ t.rkind = .cancelled ∧ t.cause = .none ∧ t.digest = s.digest ∧ t.dighex = s.dighex ∧
          t.env.reads = rest ∧ t.env.polls = s.env.polls.drop (ws.length + 1) ∧
          t.env.requests = s.env.requests ++ .envOpen s.srcid :: (windowRequests (.stream h) (ws.length + 1) ++ [.envClose h]))

/-- R216, R363: a message of fewer than 64 bytes has no cancel point: whatever `CancelPoll` would answer, the digest is delivered and it is not asked. -/
def Obligations.ShortMessageNeverPolls : Prop :=
  ∀ s : State, s.data.length < 64 →
    ∃ t, exec (.hash 0) s = .next t ∧ t.rkind = .digest ∧ t.digest = digestOfMessage s.data ∧ t.env.polls = s.env.polls ∧
      t.env.seen = .srcRead .bytes :: s.env.seen

/-- R213, R216, R365: an uncancelled `HASH.B` of `n` bytes makes `n div 64 + 1` reads with one poll between each two, and no other request. -/
def Obligations.HashBytesRequests : Prop :=
  ∀ s : State, s.data.length ≤ Config.maxMsgBytes → s.env.neverCancels →
    ∃ t, exec (.hash 0) s = .next t ∧
      t.env.seen = (List.replicate (s.data.length / 64) [Request.srcRead .bytes, .cancelPoll]).flatten ++ .srcRead .bytes :: s.env.seen

/-- R218: `HASHF` closes the handle it was given exactly once, after its last read; everything between is a read of that handle or a poll. `HASH` opens and closes
nothing: its requests are polls and reads of its source, the bytes for `SRCK` 0 and the stream `SRCID` for `SRCK` 1 (R210), and none for `SRCK` 2 and 3 (R312). -/
def Obligations.HandlesOpenedAreClosed : Prop :=
  (∀ (s t : State) (h : Word), s.env.opens.headD s.env.later.opened = .opened h → exec .hashf s = .next t →
    ∃ mid, t.env.seen = .envClose h :: (mid ++ .envOpen s.srcid :: s.env.seen) ∧ ∀ r ∈ mid, r = .cancelPoll ∨ r = .srcRead (.stream h)) ∧
  (∀ (s t : State) (k : BitVec 2), exec (.hash k) s = .next t →
    t.env.opens = s.env.opens ∧ t.env.scans = s.env.scans ∧
    ∃ mid, t.env.seen = mid ++ s.env.seen ∧
      (k = 0 → mid ≠ [] ∧ ∀ r ∈ mid, r = .cancelPoll ∨ r = .srcRead .bytes) ∧
      (k = 1 → mid ≠ [] ∧ ∀ r ∈ mid, r = .cancelPoll ∨ r = .srcRead (.stream s.srcid)) ∧
      (2 ≤ k.toNat → mid = []))

/-- The frame of `HASH`, `HASHF`, `HASHD` (R224, R289, R35): the stepper with every byte of BLKMEM, `SRCID` and the parameters are unchanged; the result registers
too unless the command ends `DIGEST`; `HASH` and `HASHF` leave `DD`. -/
def Obligations.DigestCommandsFrame : Prop :=
  ∀ (s t : State) (k : BitVec 2) (i : Instr), i ∈ [.hash k, .hashf, .hashd] → exec i s = .next t →
    t.st = s.st ∧ (∀ a, t.st.blkmem.read a = s.st.blkmem.read a) ∧ t.srcid = s.srcid ∧ t.params = s.params ∧ t.host = s.host ∧
    t.data = s.data ∧ t.stepReq = s.stepReq ∧ t.stepCtx = s.stepCtx ∧ t.rdata = s.rdata ∧
    (t.rkind ≠ .digest → t.digest = s.digest ∧ t.dighex = s.dighex) ∧ (i ≠ .hashd → t.dd = s.dd)

/-- R362, R243, X6: when a digest command never ends. `HASH.B` always ends. `HASH.S` does not exactly when its stream delivers full windows for ever and no poll asks to
stop, and neither does `HASHF` when the file opens with such a stream. `HASHD` does not only if the directories it is shown never end, or a file does; and it does not when
the directories never end and the table is unbounded, and when a file opened in its turn never ends. (The fault is the model's form of `stuck`; a source without an end is held as
listed answers and an answer for ever after, and a stream that would pass `MAX_MSG_BYTES` within the model's bound is refused instead: logs 3 and 10.) -/
def Obligations.EndlessWhenSourceIs : Prop :=
  (∀ s : State, ∀ f, exec (.hash 0) s ≠ .fault f) ∧
  (∀ (s : State) (f : Fault), exec (.hash 1) s = .fault f ↔
    f = .neverCompletes ∧ s.env.endlessStream ∧ 64 * (s.env.reads.length + s.env.polls.length + 2) ≤ Config.maxMsgBytes) ∧
  (∀ (s : State) (f : Fault), exec .hashf s = .fault f ↔
    f = .neverCompletes ∧ (∃ h, s.env.opens.headD s.env.later.opened = .opened h) ∧ s.env.endlessStream ∧
      64 * (s.env.reads.length + s.env.polls.length + 2) ≤ Config.maxMsgBytes) ∧
  (∀ (s : State) (f : Fault), exec .hashd s = .fault f →
    let r := enumerate s.params s.srcid s.sc s.env
    f = .neverCompletes ∧
      ((∃ l ls, s.env.scans = ls.map ScanAnswer.entries ∧ s.env.later.scan = .entries l ∧ 0 < presented .dir [l] ∧ walkGoesOn ls) ∨
        (r.how = .done ∧ r.dd.ent ≠ [] ∧ s.env.neverCancels ∧ ∃ w : Window, s.env.later.read = .window w ∧ w.bytes.length = 64))) ∧
  (∀ (s : State) (l : List Entry) (ls : List (List Entry)), s.params.dirMaxEntries = none → s.env.scans = ls.map ScanAnswer.entries →
    s.env.later.scan = .entries l → 0 < presented .dir [l] → walkGoesOn ls → exec .hashd s = .fault .neverCompletes) ∧
  (∀ (s : State) (good rest : List (List Byte × Word)) (e : List Byte × Word) (files : List (Word × List Byte)) (h : Word) (opens : List OpenAnswer)
      (reads : List ReadAnswer),
    let r := enumerate s.params s.srcid s.sc s.env
    r.how = .done → keysDistinct r.dd.ent = true → sortEntries r.dd.ent = good ++ e :: rest → files.length = good.length →
    (∀ f ∈ files, f.2.length ≤ Config.maxMsgBytes) → s.env.opens = files.map (fun f => OpenAnswer.opened f.1) ++ opens →
    s.env.reads = files.flatMap (fun f => windowsOf f.2) ++ reads → opens.headD s.env.later.opened = .opened h →
    ({ s.env with reads := reads } : Env).endlessStream → 64 * (reads.length + s.env.polls.length + 2) ≤ Config.maxMsgBytes →
      exec .hashd s = .fault .neverCompletes)

/-! ## HASHD -/

/-- R246: the sort is by key, ascending in the bytewise order with prefixes first, a rearrangement of the entries, and with distinct keys the same for every
order they come in. -/
def Obligations.SortByKey : Prop :=
  (∀ l, (sortEntries l).Perm l ∧ (sortEntries l).Pairwise fun x y => keyLe x.1 y.1 = true) ∧
  (∀ l m, keysDistinct l = true → l.Perm m → sortEntries l = sortEntries m) ∧
  (∀ x y : List Byte, keyLe x y = true ↔ x <+: y ∨ ∃ p a b x' y', x = p ++ a :: x' ∧ y = p ++ b :: y' ∧ a.toNat < b.toNat)

/-- R243, R244, R245: a finite tree is enumerated to its end. With `Entries` answers for as many directories as the answers present, and no bound on the table, the enumeration
completes and nothing is left to scan. With the answers for a tree, and a table that holds its files, the table of files is the tree's, every file once, under the names of the
directories on its way, each followed by `PATH_SEP`, and its own; entries of the kind `OTHER` are skipped; every directory is scanned once and nothing else is asked. And every
enumeration that completes is one of a tree. (The order in which the tree's answers are given and its directories asked for is the model's choice, log 12.) -/
def Obligations.FiniteTreeIsEnumerated : Prop :=
  (∀ (s : State) (l : List Entry) (more : List ScanAnswer), s.params.dirMaxEntries = none → s.env.scans = .entries l :: more →
    (∀ a ∈ more, ∃ l', a = .entries l') → (s.env.scans.map ScanAnswer.dirs).sum ≤ more.length →
      (enumerate s.params s.srcid s.sc s.env).how = .done ∧ (enumerate s.params s.srcid s.sc s.env).dd.work = []) ∧
  (∀ (s : State) (f : Forest) (more : List ScanAnswer), tableHolds s.params (f.files s.params.pathSep []).length → s.env.scans = f.scans ++ more →
    let r := enumerate s.params s.srcid s.sc s.env
    r.how = .done ∧ r.dd.ent.Perm (f.files s.params.pathSep []) ∧ r.dd.work = [] ∧ r.env.scans = more ∧
      r.env.requests = s.env.requests ++ (s.srcid :: f.dirs).map Request.envScan) ∧
  (∀ s : State,
    let r := enumerate s.params s.srcid s.sc s.env
    r.how = .done → ∃ (f : Forest) (n : Nat), r.dd.ent.Perm (f.files s.params.pathSep []) ∧ tableHolds s.params r.dd.ent.length ∧
      f.scans <+: s.env.scans ++ List.replicate n s.env.later.scan ∧
      r.env.requests = s.env.requests ++ (s.srcid :: f.dirs).map Request.envScan)

/-- R240, R249 to R252: when the enumeration completes with distinct keys and a file, and every file in sorted order opens and delivers its message,
uncancelled, `HASHD` delivers the digest of the concatenated renderings of the files' digests. The files are opened in the order of the sorted keys, each once and each read and
closed before the next, with a poll after each, and the last reads are those of the concatenation: these are all the requests after the walk. -/
def Obligations.HashDirectoryDelivers : Prop :=
  ∀ (s : State) (files : List (Word × List Byte)),
    let r := enumerate s.params s.srcid s.sc s.env
    r.how = .done → r.dd.ent ≠ [] → keysDistinct r.dd.ent = true → files.length = r.dd.ent.length → s.env.neverCancels → s.env.delivers files →
    (∀ f ∈ files, f.2.length ≤ Config.maxMsgBytes) → 32 * files.length ≤ Config.maxMsgBytes →
      ∃ t, exec .hashd s = .next t ∧ t.rkind = .digest ∧ t.cause = .none ∧
        t.digest = digestOfMessage (files.flatMap fun f => render (digestOfMessage f.2)) ∧ t.dighex = packHex (render t.digest) ∧
        t.env.requests = r.env.requests ++ filesRequests (sortEntries r.dd.ent) files ++ readRequests .bytes (32 * files.length)

/-- R247 (which the spec marks as derived): two trees with the same files under the same keys, however their directories list them and whatever directories there are, give the same
digest and the same end, and after the walk the command makes the same requests: the same files are opened, in the same order. (The order in which a tree's answers are given and its
directories asked for is the model's choice, log 12.) -/
def Obligations.EnumerationOrderIrrelevant : Prop :=
  ∀ (s : State) (f g : Forest) (more more' : List ScanAnswer), (f.files s.params.pathSep []).Perm (g.files s.params.pathSep []) →
    keysDistinct (f.files s.params.pathSep []) = true → s.env.scans = f.scans ++ more →
      let s' := { s with env := { s.env with scans := g.scans ++ more' } }
      ∀ t, exec .hashd s = .next t → ∃ u later, exec .hashd s' = .next u ∧
        u.digest = t.digest ∧ u.dighex = t.dighex ∧ u.rkind = t.rkind ∧ u.cause = t.cause ∧
        t.env.requests = s.env.requests ++ (s.srcid :: f.dirs).map Request.envScan ++ later ∧
        u.env.requests = s.env.requests ++ (s.srcid :: g.dirs).map Request.envScan ++ later

/-- R242, R316, R317: the scan of `SRCID` is the first request of `HASHD`; `NotDir` gives `IO_NOT_DIR` and `Fail` gives `IO_SCAN`, with no other request and nothing
delivered. A subdirectory answering `Fail` or `NotDir`, at whatever point of the walk, gives `IO_SCAN`: that scan is the last request, no file is opened and nothing is delivered. -/
def Obligations.RootScanFaults : Prop :=
  (∀ s t : State, exec .hashd s = .next t → ∃ later, t.env.seen = later ++ .envScan s.srcid :: s.env.seen) ∧
  (∀ (s : State) (a : ScanAnswer), s.env.scans.headD s.env.later.scan = a →
    (a = .notDir → ∃ t, exec .hashd s = .next t ∧ t.rkind = .error ∧ t.cause = .ioNotDir ∧ t.digest = s.digest ∧ t.dighex = s.dighex ∧
      t.env.seen = .envScan s.srcid :: s.env.seen) ∧
    (a = .fail → ∃ t, exec .hashd s = .next t ∧ t.rkind = .error ∧ t.cause = .ioScan ∧ t.digest = s.digest ∧ t.dighex = s.dighex ∧
      t.env.seen = .envScan s.srcid :: s.env.seen)) ∧
  (∀ (s : State) (ls : List (List Entry)) (a : ScanAnswer) (more : List ScanAnswer), ls ≠ [] → s.env.scans = ls.map ScanAnswer.entries ++ more →
    walkGoesOn ls → tableHolds s.params (presented .file ls) → more.headD s.env.later.scan = a → a = .fail ∨ a = .notDir →
      ∃ t ids, exec .hashd s = .next t ∧ t.rkind = .error ∧ t.cause = .ioScan ∧ t.digest = s.digest ∧ t.dighex = s.dighex ∧
        ids.length = ls.length ∧ t.env.requests = s.env.requests ++ (s.srcid :: ids).map Request.envScan)

/-- R248: a walk that found no file: `IO_EMPTY` if the parameter says so, otherwise the digest of the empty message, with one read and without a poll (R250). The parameter is a
variable. -/
def Obligations.EmptyDirectory : Prop :=
  ∀ s : State,
    let r := enumerate s.params s.srcid s.sc s.env
    r.how = .done → r.dd.ent = [] →
    (s.params.emptyDirFaults = true →
      ∃ t, exec .hashd s = .next t ∧ t.rkind = .error ∧ t.cause = .ioEmpty ∧ t.digest = s.digest ∧ t.dighex = s.dighex ∧ t.env.seen = r.env.seen) ∧
    (s.params.emptyDirFaults = false →
      ∃ t, exec .hashd s = .next t ∧ t.rkind = .digest ∧ t.cause = .none ∧ t.digest = digestOfMessage [] ∧ t.dighex = packHex (render (digestOfMessage [])) ∧
        t.env.seen = .srcRead .bytes :: r.env.seen)

/-- R249, R313, R314, R315: the first file in sorted order that cannot be opened or read ends the command with its cause, after however many files that could; no later file is
touched, a file that was opened is closed, and nothing is delivered. -/
def Obligations.FirstFileFailureDecides : Prop :=
  ∀ (s : State) (good rest : List (List Byte × Word)) (e : List Byte × Word) (files : List (Word × List Byte)) (opens : List OpenAnswer)
      (reads : List ReadAnswer),
    let r := enumerate s.params s.srcid s.sc s.env
    r.how = .done → keysDistinct r.dd.ent = true → sortEntries r.dd.ent = good ++ e :: rest → files.length = good.length →
    (∀ f ∈ files, f.2.length ≤ Config.maxMsgBytes) → s.env.opens = files.map (fun f => OpenAnswer.opened f.1) ++ opens →
    s.env.reads = files.flatMap (fun f => windowsOf f.2) ++ reads → s.env.continues (pollCount files) →
      (opens.headD s.env.later.opened = .notFound →
        ∃ t, exec .hashd s = .next t ∧ t.rkind = .error ∧ t.cause = .ioNotFound ∧ t.digest = s.digest ∧ t.dighex = s.dighex ∧
          t.env.requests = r.env.requests ++ filesRequests good files ++ [.envOpen e.2]) ∧
      (opens.headD s.env.later.opened = .fail →
        ∃ t, exec .hashd s = .next t ∧ t.rkind = .error ∧ t.cause = .ioOpen ∧ t.digest = s.digest ∧ t.dighex = s.dighex ∧
          t.env.requests = r.env.requests ++ filesRequests good files ++ [.envOpen e.2]) ∧
      (∀ (h : Word) (ws : List Window) (more : List ReadAnswer), opens.headD s.env.later.opened = .opened h → (∀ w ∈ ws, w.bytes.length = 64) →
        64 * ws.length ≤ Config.maxMsgBytes → reads = ws.map ReadAnswer.window ++ .fail :: more → s.env.continues (pollCount files + ws.length) →
        ∃ t, exec .hashd s = .next t ∧ t.rkind = .error ∧ t.cause = .ioRead ∧ t.digest = s.digest ∧ t.dighex = s.dighex ∧
          t.env.requests = r.env.requests ++ filesRequests good files ++
            .envOpen e.2 :: (windowRequests (.stream h) ws.length ++ [.srcRead (.stream h), .envClose h]))

/-- R250, R325: the cancel points of `HASHD`. A poll that asks to stop ends the command as `CANCELLED`, with nothing delivered, wherever it stands: between two files or before the
final digest; between two windows of a file, whose handle is closed; between two windows of the final digest. It is the last request, but for that close. -/
def Obligations.CancelEndsDirectory : Prop :=
  ∀ (s : State) (good rest : List (List Byte × Word)) (files : List (Word × List Byte)) (opens : List OpenAnswer) (reads : List ReadAnswer),
    let r := enumerate s.params s.srcid s.sc s.env
    let ends := fun (requests : List Request) => ∃ t, exec .hashd s = .next t ∧ t.rkind = .cancelled ∧ t.cause = .none ∧ t.digest = s.digest ∧
      t.dighex = s.dighex ∧ t.env.requests = r.env.requests ++ filesRequests good files ++ requests
    r.how = .done → r.dd.ent ≠ [] → keysDistinct r.dd.ent = true → sortEntries r.dd.ent = good ++ rest → files.length = good.length →
    (∀ f ∈ files, f.2.length ≤ Config.maxMsgBytes) → s.env.opens = files.map (fun f => OpenAnswer.opened f.1) ++ opens →
    s.env.reads = files.flatMap (fun f => windowsOf f.2) ++ reads →
      (good ≠ [] → s.env.cancelsAt (pollCount files - 1) → ends []) ∧
      (∀ (e : List Byte × Word) (rest' : List (List Byte × Word)) (h : Word) (ws : List Window) (w : Window) (more : List ReadAnswer), rest = e :: rest' →
        opens.headD s.env.later.opened = .opened h → (∀ v ∈ ws ++ [w], v.bytes.length = 64) → 64 * (ws.length + 1) ≤ Config.maxMsgBytes →
        reads = (ws ++ [w]).map ReadAnswer.window ++ more → s.env.cancelsAt (pollCount files + ws.length) →
          ends (.envOpen e.2 :: (windowRequests (.stream h) (ws.length + 1) ++ [.envClose h]))) ∧
      (∀ j, rest = [] → j < 32 * good.length / 64 → 32 * good.length ≤ Config.maxMsgBytes → s.env.cancelsAt (pollCount files + j) →
        ends (windowRequests .bytes (j + 1)))

/-! ## The stepper -/

/-- R272, R273: a new session over the bytes presented, whatever session existed: every register, and every byte of BLKMEM (R73); nothing outside the stepper
changes but `STATUS` (and the model's count of free values: `ST.M` holds none, log 7). -/
def Obligations.NewSession : Prop :=
  ∀ s : State, s.data.length ≤ Config.maxMsgBytes → blkmemHolds s.params (nblkOf s.data.length) = true →
    ∃ t, exec (.stpnew 0) s = .next t ∧
      t.st.ctx.h = iv ∧ t.st.ctx.w = ⟨iv.h0, iv.h1, iv.h2, iv.h3⟩ ∧ t.st.ctx.msglen.toNat = s.data.length ∧
      t.st.nblk.toNat = nblkOf s.data.length ∧ t.st.blkidx = 0 ∧ t.st.stepidx = 0 ∧ t.st.round = 0 ∧ t.st.widx = 0 ∧ t.st.pre = 0 ∧
      t.st.phase = .ready ∧ (∀ a, a < 64 * nblkOf s.data.length → some (t.st.blkmem.read a) = (padMsg s.data)[a]?) ∧ t.rkind = .created ∧ t.cause = .none ∧
      t.digest = s.digest ∧ t.dighex = s.dighex ∧ t.srcid = s.srcid ∧ t.sc = s.sc ∧ t.dd = s.dd ∧ t.env = s.env

/-- R276: from `Ready`. The session is one the machine can be in. -/
def Obligations.AdvanceFromReady : Prop :=
  ∀ s : State, s.Inv → s.st.phase = .ready →
    ∃ blk, s.st.block 0 = some blk ∧
      let r := ((s.st.ctx.loadBlk blk).initW).stepFF 0
      exec .stpadv s = .next { s with
        st := { s.st with ctx := r.1, round := 1, widx := 0, pre := r.2.pre, blkidx := 0, stepidx := 0, phase := .inStep }, rkind := .step, cause := .none }

/-- R277: from `InStep(b, s)` with `s < 63`: exactly one step, and its record. -/
def Obligations.AdvanceInBlock : Prop :=
  ∀ s : State, s.st.phase = .inStep → s.st.stepidx.toNat < 63 →
    let r := s.st.ctx.stepAt (BitVec.ofNat 6 (s.st.stepidx.toNat + 1))
    r.1.h = s.st.ctx.h ∧ r.1.m = s.st.ctx.m ∧
    exec .stpadv s = .next { s with
      st := { s.st with ctx := r.1, round := r.2.round, widx := r.2.widx, pre := r.2.pre, stepidx := BitVec.ofNat 6 (s.st.stepidx.toNat + 1) },
      rkind := .step, cause := .none }

/-- R278: from `InStep(b, 63)`: the fold. -/
def Obligations.AdvanceFolds : Prop :=
  ∀ s : State, s.st.phase = .inStep → s.st.stepidx = 63 →
    let x := s.st.ctx
    exec .stpadv s = .next { s with
      st := { s.st with
        ctx := { x with h := ⟨x.h.h0 + x.w.a, x.h.h1 + x.w.b, x.h.h2 + x.w.c, x.h.h3 + x.w.d⟩ }, phase := .blockBoundary },
      rkind := .boundary, cause := .none }

/-- R279: from `BlockBoundary(b)` with a block to come. -/
def Obligations.AdvanceToNextBlock : Prop :=
  ∀ s : State, s.st.phase = .blockBoundary → s.st.blkidx.toNat + 1 < s.st.nblk.toNat →
    ∃ blk, s.st.block (s.st.blkidx.toNat + 1) = some blk ∧
      let r := ((s.st.ctx.loadBlk blk).initW).stepFF 0
      exec .stpadv s = .next { s with
        st := { s.st with
          ctx := r.1, round := 1, widx := 0, pre := r.2.pre, blkidx := s.st.blkidx + 1, stepidx := 0, phase := .inStep },
        rkind := .step, cause := .none }

/-- R280: from the last `BlockBoundary`: the digest is delivered, `ST` keeps all but its phase. (That BLKMEM keeps its content too, which R287 leaves open, is the model's choice, log 17.) -/
def Obligations.AdvanceCompletes : Prop :=
  ∀ s : State, s.st.phase = .blockBoundary → s.st.blkidx.toNat + 1 = s.st.nblk.toNat →
    exec .stpadv s = .next { s with
      digest := s.st.ctx.h, dighex := packHex (render s.st.ctx.h), st := { s.st with phase := .completed }, rkind := .complete, cause := .none }

/-- R281, R282, R321, R322: `Completed` answers `ALREADY` with `STATE_COMPLETED`, `NoSession` faults with `STATE_NO_SESSION`; nothing else changes. -/
def Obligations.AdvanceWithoutWork : Prop :=
  ∀ s : State,
    (s.st.phase = .completed → exec .stpadv s = .next { s with rkind := .already, cause := .stateCompleted }) ∧
    (s.st.phase = .noSession → exec .stpadv s = .next { s with rkind := .error, cause := .stateNoSession })

/-- R31, R275: every advance of a session that is not completed moves the cursor by exactly one position, with no fault. -/
def Obligations.AdvanceMovesOnePosition : Prop :=
  ∀ s : State, s.Inv → s.st.phase ≠ .noSession → s.st.phase ≠ .completed →
    ∃ t, exec .stpadv s = .next t ∧ t.st.position = s.st.position + 1 ∧ t.st.nblk = s.st.nblk

/-- R286, R285, R354: `STPRST` in any state: no session, every field `STP_*` shows is 0, `STATUS` reads 7, and the result registers, `SRCID`, `SC`, the
environment are as before. -/
def Obligations.SessionDiscarded : Prop :=
  ∀ s : State, ∃ t, exec .stprst s = .next t ∧ t.st.phase = .noSession ∧ t.st.ctx.h = ⟨0, 0, 0, 0⟩ ∧ t.st.ctx.w = ⟨0, 0, 0, 0⟩ ∧
    t.st.blkidx = 0 ∧ t.st.nblk = 0 ∧ t.st.stepidx = 0 ∧ t.st.round = 0 ∧ t.st.widx = 0 ∧ t.st.pre = 0 ∧ t.regRead 0x04 = 0x00000007 ∧
    (∀ off, 0x40 ≤ off → off ≤ 0x7C → t.regRead off = 0) ∧
    t.digest = s.digest ∧ t.dighex = s.dighex ∧ t.srcid = s.srcid ∧ t.sc = s.sc ∧ t.dd = s.dd ∧ t.env = s.env

/-- The frame of `STPNEW`, `STPADV`, `STPRST` (R270, R275, R285, R289): no streaming or directory state, no source register, no request to the environment; the
result registers only on the advance that completes; BLKMEM, `NBLK` and `MSGLEN` not by `STPADV`. (That the completing advance keeps BLKMEM, which R287 leaves open, is the model's
choice, log 17.) -/
def Obligations.StepperCommandsFrame : Prop :=
  ∀ (s t : State) (k : BitVec 2) (i : Instr), i ∈ [.stpnew k, .stpadv, .stprst] → exec i s = .next t →
    t.sc = s.sc ∧ t.dd = s.dd ∧ t.srcid = s.srcid ∧ t.env = s.env ∧ t.params = s.params ∧ t.host = s.host ∧ t.data = s.data ∧
    t.stepReq = s.stepReq ∧ t.stepCtx = s.stepCtx ∧ t.rdata = s.rdata ∧
    (t.rkind ≠ .complete → t.digest = s.digest ∧ t.dighex = s.dighex) ∧
    (i = .stpadv → (∀ a, t.st.blkmem.read a = s.st.blkmem.read a) ∧ t.st.nblk = s.st.nblk ∧ t.st.ctx.msglen = s.st.ctx.msglen)

/-- R283: from `Ready`, a session of `N` blocks reaches `Completed` after exactly `65 N + 1` advances: of each 65 the first 64 answer `STEP` and the last `BOUNDARY`,
and then one answers `COMPLETE` (the spec marks the count as derived from R276 to R280). -/
def Obligations.NumberOfAdvances : Prop :=
  ∀ s : State, s.Inv → s.st.phase = .ready →
    (∃ t, repeatExec .stpadv (65 * s.st.nblk.toNat + 1) s = .next t ∧ t.st.phase = .completed ∧ t.rkind = .complete) ∧
    ∀ k, 0 < k → k ≤ 65 * s.st.nblk.toNat →
      ∃ t, repeatExec .stpadv k s = .next t ∧ t.st.phase ≠ .completed ∧ t.rkind = if k % 65 = 0 then .boundary else .step

/-- R284 (which the spec marks as derived): a session over a message run to completion delivers the digest `HASH.B` delivers of the same bytes. -/
def Obligations.StepperAgreesWithHash : Prop :=
  ∀ s : State, s.stepReq = none → s.data.length ≤ Config.maxMsgBytes → blkmemHolds s.params (nblkOf s.data.length) = true → s.env.neverCancels →
    ∃ t u v, exec (.stpnew 0) s = .next t ∧ repeatExec .stpadv (65 * nblkOf s.data.length + 1) t = .next u ∧
      exec (.hash 0) s = .next v ∧ u.rkind = .complete ∧ u.digest = v.digest ∧ u.dighex = v.dighex ∧ u.digest = digestOfMessage s.data

/-! ## The whole machine -/

/-- X2 to X5 (R72, R195, R214, R243, R246, R270): what the spec gives no meaning is refused: a host access at another offset; a message above
`MAX_MSG_BYTES`, in `STPNEW`, and in the digest of the data operand, of a stream, of a file, of any file of `HASHD` and of its concatenation, when no poll asks to stop before the
window that passes it; more blocks than the stepper's store holds; a tree with more files than the table holds; two entries with equal keys. (The spec says `refuse`, R13; the names of
the refusals, and that equal keys are refused before a file is opened, are the model's choice, log 11; so is the
order of a tree's answers, log 12.) -/
def Obligations.OutsideTheInterfaceRefused : Prop :=
  (∀ (s : State) (off : Nat) (v : Word) (data : List Byte) (rest : List HostOp), s.stepReq = none → off % 4 ≠ 0 ∨ 0xFC < off →
    (s.host = .read off :: rest → step s = .refused .notATransaction) ∧
    (s.host = .write off v data :: rest → step s = .refused .notATransaction)) ∧
  (∀ s : State, Config.maxMsgBytes < s.data.length →
    exec (.stpnew 0) s = .refused .messageTooLong ∧ (s.env.continues (Config.maxMsgBytes / 64) → exec (.hash 0) s = .refused .messageTooLong)) ∧
  (∀ (s : State) (ws : List Window) (w : Window) (rest : List ReadAnswer), (∀ v ∈ ws, v.bytes.length = 64) → 64 * ws.length ≤ Config.maxMsgBytes →
    Config.maxMsgBytes < 64 * ws.length + w.bytes.length → s.env.continues ws.length → s.env.reads = (ws ++ [w]).map ReadAnswer.window ++ rest →
      exec (.hash 1) s = .refused .messageTooLong ∧
      ∀ h, s.env.opens.headD s.env.later.opened = .opened h → exec .hashf s = .refused .messageTooLong) ∧
  (∀ (s : State) (good rest : List (List Byte × Word)) (files : List (Word × List Byte)) (opens : List OpenAnswer) (reads : List ReadAnswer),
    let r := enumerate s.params s.srcid s.sc s.env
    r.how = .done → r.dd.ent ≠ [] → keysDistinct r.dd.ent = true → sortEntries r.dd.ent = good ++ rest → files.length = good.length →
    (∀ f ∈ files, f.2.length ≤ Config.maxMsgBytes) → s.env.opens = files.map (fun f => OpenAnswer.opened f.1) ++ opens →
    s.env.reads = files.flatMap (fun f => windowsOf f.2) ++ reads →
      (∀ (e : List Byte × Word) (rest' : List (List Byte × Word)) (h : Word) (ws : List Window) (w : Window) (more : List ReadAnswer), rest = e :: rest' →
        opens.headD s.env.later.opened = .opened h → (∀ v ∈ ws, v.bytes.length = 64) → 64 * ws.length ≤ Config.maxMsgBytes →
        Config.maxMsgBytes < 64 * ws.length + w.bytes.length → reads = (ws ++ [w]).map ReadAnswer.window ++ more →
        s.env.continues (pollCount files + ws.length) → exec .hashd s = .refused .messageTooLong) ∧
      (rest = [] → Config.maxMsgBytes < 32 * good.length → s.env.continues (pollCount files + Config.maxMsgBytes / 64) →
        exec .hashd s = .refused .messageTooLong)) ∧
  (∀ s : State, s.data.length ≤ Config.maxMsgBytes → blkmemHolds s.params (nblkOf s.data.length) = false →
    exec (.stpnew 0) s = .refused .blkmemFull) ∧
  (∀ (s : State) (f : Forest) (more : List ScanAnswer), s.env.scans = f.scans ++ more → ¬ tableHolds s.params (f.files s.params.pathSep []).length →
    exec .hashd s = .refused .dirTooLarge) ∧
  (∀ s : State, (enumerate s.params s.srcid s.sc s.env).how = .done →
    keysDistinct (enumerate s.params s.srcid s.sc s.env).dd.ent = false → exec .hashd s = .refused .equalKeys)

/-- The invariant holds after reset (R41). Of its clauses, that BLKMEM lists nothing without a session, which R41 leaves unspecified, and that no step number is pending,
are the model's (logs 6, 8 and 4). -/
def Obligations.InvariantAtReset : Prop := State.reset.Inv

/-- Every step keeps the invariant: what `ST` shows in each phase (R31, R290), BLKMEM's canonical form, the outcomes `STATUS` can hold (R34, R108, R311, R323), the
two forms of the result (R37). Clauses that are the model's: no step number pending (log 4), BLKMEM without a byte in `NoSession` (log 8) and kept in `Completed` (log 17), its cells
in canonical form (log 9). -/
def Obligations.StepKeepsInvariant : Prop :=
  ∀ s t : State, s.Inv → step s = .next t → t.Inv

/-- R320, R325: after a fault or a cancelled completion the result registers, `SRCID` and all of `ST`, its phase included, are as before the command. -/
def Obligations.FaultsLeaveHostState : Prop :=
  ∀ (i : Instr) (s t : State), isCommand i = true → exec i s = .next t → t.rkind = .error ∨ t.rkind = .cancelled →
    t.digest = s.digest ∧ t.dighex = s.dighex ∧ t.srcid = s.srcid ∧ t.st = s.st

/-- R34, R108, R311, R323: every command ends with one of the outcomes of V51, never with `NONE`, and never with a reserved cause. -/
def Obligations.CommandOutcomes : Prop :=
  ∀ (i : Instr) (s t : State), isCommand i = true → exec i s = .next t →
    statusOk t.rkind t.cause t.st.phase ∧ t.rkind ≠ .none ∧ t.cause ≠ .encoding ∧ t.cause ≠ .validation

/-- R35: no command writes `SRCID`, and no step writes it but a write of its offset or a reset; the parameters never change. -/
def Obligations.SourceRegisterIsTheHosts : Prop :=
  (∀ (i : Instr) (s t : State), exec i s = .next t → t.srcid = s.srcid) ∧
  (∀ s t : State, step s = .next t → t.params = s.params ∧
    (t.srcid = s.srcid ∨ ∃ rest, s.host = .reset :: rest ∨ ∃ data, s.host = .write 0x08 t.srcid data :: rest))

/-- R289: the digest commands never read `ST`, and the stepper commands never read `SC`: with the other context replaced, they do the same and leave the replacement. -/
def Obligations.ContextsAreSeparate : Prop :=
  ∀ (s : State) (k : BitVec 2),
    (∀ (i : Instr) (x : Stepper), i ∈ [.hash k, .hashf, .hashd] →
      exec i { s with st := x } = mapNext (fun t => { t with st := x }) (exec i s)) ∧
    (∀ (i : Instr) (x : Streaming), i ∈ [.stpnew k, .stpadv, .stprst] →
      exec i { s with sc := x } = mapNext (fun t => { t with sc := x }) (exec i s))
end

