-- ==== Sys2Proof/Laws/State.lean ====
section
/-! SUPPORT. One lemma per field for each named update of the state, so that no later proof unfolds a record update. -/

namespace Sys2Proof.Machine

/-! ### `State.respond` -/

@[simp] theorem State.respond_rkind (s : State) (k : RKind) (c : Cause) : (s.respond k c).rkind = k := rfl
@[simp] theorem State.respond_cause (s : State) (k : RKind) (c : Cause) : (s.respond k c).cause = c := rfl
@[simp] theorem State.respond_srcid (s : State) (k : RKind) (c : Cause) : (s.respond k c).srcid = s.srcid := rfl
@[simp] theorem State.respond_digest (s : State) (k : RKind) (c : Cause) : (s.respond k c).digest = s.digest := rfl
@[simp] theorem State.respond_dighex (s : State) (k : RKind) (c : Cause) : (s.respond k c).dighex = s.dighex := rfl
@[simp] theorem State.respond_sc (s : State) (k : RKind) (c : Cause) : (s.respond k c).sc = s.sc := rfl
@[simp] theorem State.respond_st (s : State) (k : RKind) (c : Cause) : (s.respond k c).st = s.st := rfl
@[simp] theorem State.respond_dd (s : State) (k : RKind) (c : Cause) : (s.respond k c).dd = s.dd := rfl
@[simp] theorem State.respond_params (s : State) (k : RKind) (c : Cause) : (s.respond k c).params = s.params := rfl
@[simp] theorem State.respond_env (s : State) (k : RKind) (c : Cause) : (s.respond k c).env = s.env := rfl
@[simp] theorem State.respond_data (s : State) (k : RKind) (c : Cause) : (s.respond k c).data = s.data := rfl
@[simp] theorem State.respond_host (s : State) (k : RKind) (c : Cause) : (s.respond k c).host = s.host := rfl
@[simp] theorem State.respond_stepReq (s : State) (k : RKind) (c : Cause) : (s.respond k c).stepReq = s.stepReq := rfl
@[simp] theorem State.respond_stepCtx (s : State) (k : RKind) (c : Cause) : (s.respond k c).stepCtx = s.stepCtx := rfl
@[simp] theorem State.respond_rdata (s : State) (k : RKind) (c : Cause) : (s.respond k c).rdata = s.rdata := rfl
@[simp] theorem State.respond_draws (s : State) (k : RKind) (c : Cause) : (s.respond k c).draws = s.draws := rfl

/-! ### `State.raiseFault` -/

@[simp] theorem State.raiseFault_rkind (s : State) (c : Cause) : (s.raiseFault c).rkind = .error := rfl
@[simp] theorem State.raiseFault_cause (s : State) (c : Cause) : (s.raiseFault c).cause = c := rfl
@[simp] theorem State.raiseFault_srcid (s : State) (c : Cause) : (s.raiseFault c).srcid = s.srcid := rfl
@[simp] theorem State.raiseFault_digest (s : State) (c : Cause) : (s.raiseFault c).digest = s.digest := rfl
@[simp] theorem State.raiseFault_dighex (s : State) (c : Cause) : (s.raiseFault c).dighex = s.dighex := rfl
@[simp] theorem State.raiseFault_sc (s : State) (c : Cause) : (s.raiseFault c).sc = s.sc := rfl
@[simp] theorem State.raiseFault_st (s : State) (c : Cause) : (s.raiseFault c).st = s.st := rfl
@[simp] theorem State.raiseFault_dd (s : State) (c : Cause) : (s.raiseFault c).dd = s.dd := rfl
@[simp] theorem State.raiseFault_params (s : State) (c : Cause) : (s.raiseFault c).params = s.params := rfl
@[simp] theorem State.raiseFault_env (s : State) (c : Cause) : (s.raiseFault c).env = s.env := rfl
@[simp] theorem State.raiseFault_data (s : State) (c : Cause) : (s.raiseFault c).data = s.data := rfl
@[simp] theorem State.raiseFault_host (s : State) (c : Cause) : (s.raiseFault c).host = s.host := rfl
@[simp] theorem State.raiseFault_stepReq (s : State) (c : Cause) : (s.raiseFault c).stepReq = s.stepReq := rfl
@[simp] theorem State.raiseFault_stepCtx (s : State) (c : Cause) : (s.raiseFault c).stepCtx = s.stepCtx := rfl
@[simp] theorem State.raiseFault_rdata (s : State) (c : Cause) : (s.raiseFault c).rdata = s.rdata := rfl
@[simp] theorem State.raiseFault_draws (s : State) (c : Cause) : (s.raiseFault c).draws = s.draws := rfl

/-! ### `State.deliver` -/

@[simp] theorem State.deliver_rkind (s : State) (h : Chain) : (s.deliver h).rkind = s.rkind := rfl
@[simp] theorem State.deliver_cause (s : State) (h : Chain) : (s.deliver h).cause = s.cause := rfl
@[simp] theorem State.deliver_srcid (s : State) (h : Chain) : (s.deliver h).srcid = s.srcid := rfl
@[simp] theorem State.deliver_digest (s : State) (h : Chain) : (s.deliver h).digest = h := rfl
@[simp] theorem State.deliver_dighex (s : State) (h : Chain) : (s.deliver h).dighex = packHex (render h) := rfl
@[simp] theorem State.deliver_sc (s : State) (h : Chain) : (s.deliver h).sc = s.sc := rfl
@[simp] theorem State.deliver_st (s : State) (h : Chain) : (s.deliver h).st = s.st := rfl
@[simp] theorem State.deliver_dd (s : State) (h : Chain) : (s.deliver h).dd = s.dd := rfl
@[simp] theorem State.deliver_params (s : State) (h : Chain) : (s.deliver h).params = s.params := rfl
@[simp] theorem State.deliver_env (s : State) (h : Chain) : (s.deliver h).env = s.env := rfl
@[simp] theorem State.deliver_data (s : State) (h : Chain) : (s.deliver h).data = s.data := rfl
@[simp] theorem State.deliver_host (s : State) (h : Chain) : (s.deliver h).host = s.host := rfl
@[simp] theorem State.deliver_stepReq (s : State) (h : Chain) : (s.deliver h).stepReq = s.stepReq := rfl
@[simp] theorem State.deliver_stepCtx (s : State) (h : Chain) : (s.deliver h).stepCtx = s.stepCtx := rfl
@[simp] theorem State.deliver_rdata (s : State) (h : Chain) : (s.deliver h).rdata = s.rdata := rfl
@[simp] theorem State.deliver_draws (s : State) (h : Chain) : (s.deliver h).draws = s.draws := rfl

/-! ### `State.dropSC` -/

@[simp] theorem State.dropSC_rkind (s : State) : (s.dropSC).rkind = s.rkind := rfl
@[simp] theorem State.dropSC_cause (s : State) : (s.dropSC).cause = s.cause := rfl
@[simp] theorem State.dropSC_srcid (s : State) : (s.dropSC).srcid = s.srcid := rfl
@[simp] theorem State.dropSC_digest (s : State) : (s.dropSC).digest = s.digest := rfl
@[simp] theorem State.dropSC_dighex (s : State) : (s.dropSC).dighex = s.dighex := rfl
@[simp] theorem State.dropSC_sc (s : State) : (s.dropSC).sc = { ctx := Context.free s.draws, win := Window.ofBytes (Config.freeBytes s.draws) } := rfl
@[simp] theorem State.dropSC_st (s : State) : (s.dropSC).st = s.st := rfl
@[simp] theorem State.dropSC_dd (s : State) : (s.dropSC).dd = s.dd := rfl
@[simp] theorem State.dropSC_params (s : State) : (s.dropSC).params = s.params := rfl
@[simp] theorem State.dropSC_env (s : State) : (s.dropSC).env = s.env := rfl
@[simp] theorem State.dropSC_data (s : State) : (s.dropSC).data = s.data := rfl
@[simp] theorem State.dropSC_host (s : State) : (s.dropSC).host = s.host := rfl
@[simp] theorem State.dropSC_stepReq (s : State) : (s.dropSC).stepReq = s.stepReq := rfl
@[simp] theorem State.dropSC_stepCtx (s : State) : (s.dropSC).stepCtx = s.stepCtx := rfl
@[simp] theorem State.dropSC_rdata (s : State) : (s.dropSC).rdata = s.rdata := rfl
@[simp] theorem State.dropSC_draws (s : State) : (s.dropSC).draws = s.draws + 1 := rfl

/-! ### `State.dropDD` -/

@[simp] theorem State.dropDD_rkind (s : State) : (s.dropDD).rkind = s.rkind := rfl
@[simp] theorem State.dropDD_cause (s : State) : (s.dropDD).cause = s.cause := rfl
@[simp] theorem State.dropDD_srcid (s : State) : (s.dropDD).srcid = s.srcid := rfl
@[simp] theorem State.dropDD_digest (s : State) : (s.dropDD).digest = s.digest := rfl
@[simp] theorem State.dropDD_dighex (s : State) : (s.dropDD).dighex = s.dighex := rfl
@[simp] theorem State.dropDD_sc (s : State) : (s.dropDD).sc = s.sc := rfl
@[simp] theorem State.dropDD_st (s : State) : (s.dropDD).st = s.st := rfl
@[simp] theorem State.dropDD_params (s : State) : (s.dropDD).params = s.params := rfl
@[simp] theorem State.dropDD_env (s : State) : (s.dropDD).env = s.env := rfl
@[simp] theorem State.dropDD_data (s : State) : (s.dropDD).data = s.data := rfl
@[simp] theorem State.dropDD_host (s : State) : (s.dropDD).host = s.host := rfl
@[simp] theorem State.dropDD_stepReq (s : State) : (s.dropDD).stepReq = s.stepReq := rfl
@[simp] theorem State.dropDD_stepCtx (s : State) : (s.dropDD).stepCtx = s.stepCtx := rfl
@[simp] theorem State.dropDD_rdata (s : State) : (s.dropDD).rdata = s.rdata := rfl
@[simp] theorem State.dropDD_draws (s : State) : (s.dropDD).draws = s.draws + 1 := rfl

/-! ### `State.withRun` -/

@[simp] theorem State.withRun_rkind (s : State) (r : DigestRun) : (s.withRun r).rkind = s.rkind := rfl
@[simp] theorem State.withRun_cause (s : State) (r : DigestRun) : (s.withRun r).cause = s.cause := rfl
@[simp] theorem State.withRun_srcid (s : State) (r : DigestRun) : (s.withRun r).srcid = s.srcid := rfl
@[simp] theorem State.withRun_digest (s : State) (r : DigestRun) : (s.withRun r).digest = s.digest := rfl
@[simp] theorem State.withRun_dighex (s : State) (r : DigestRun) : (s.withRun r).dighex = s.dighex := rfl
@[simp] theorem State.withRun_sc (s : State) (r : DigestRun) : (s.withRun r).sc = r.sc := rfl
@[simp] theorem State.withRun_st (s : State) (r : DigestRun) : (s.withRun r).st = s.st := rfl
@[simp] theorem State.withRun_dd (s : State) (r : DigestRun) : (s.withRun r).dd = s.dd := rfl
@[simp] theorem State.withRun_params (s : State) (r : DigestRun) : (s.withRun r).params = s.params := rfl
@[simp] theorem State.withRun_env (s : State) (r : DigestRun) : (s.withRun r).env = r.env := rfl
@[simp] theorem State.withRun_data (s : State) (r : DigestRun) : (s.withRun r).data = s.data := rfl
@[simp] theorem State.withRun_host (s : State) (r : DigestRun) : (s.withRun r).host = s.host := rfl
@[simp] theorem State.withRun_stepReq (s : State) (r : DigestRun) : (s.withRun r).stepReq = s.stepReq := rfl
@[simp] theorem State.withRun_stepCtx (s : State) (r : DigestRun) : (s.withRun r).stepCtx = s.stepCtx := rfl
@[simp] theorem State.withRun_rdata (s : State) (r : DigestRun) : (s.withRun r).rdata = s.rdata := rfl
@[simp] theorem State.withRun_draws (s : State) (r : DigestRun) : (s.withRun r).draws = s.draws := rfl

/-! ### `State.withDirRun` -/

@[simp] theorem State.withDirRun_rkind (s : State) (r : DirRun) : (s.withDirRun r).rkind = s.rkind := rfl
@[simp] theorem State.withDirRun_cause (s : State) (r : DirRun) : (s.withDirRun r).cause = s.cause := rfl
@[simp] theorem State.withDirRun_srcid (s : State) (r : DirRun) : (s.withDirRun r).srcid = s.srcid := rfl
@[simp] theorem State.withDirRun_digest (s : State) (r : DirRun) : (s.withDirRun r).digest = s.digest := rfl
@[simp] theorem State.withDirRun_dighex (s : State) (r : DirRun) : (s.withDirRun r).dighex = s.dighex := rfl
@[simp] theorem State.withDirRun_sc (s : State) (r : DirRun) : (s.withDirRun r).sc = r.sc := rfl
@[simp] theorem State.withDirRun_st (s : State) (r : DirRun) : (s.withDirRun r).st = s.st := rfl
@[simp] theorem State.withDirRun_dd (s : State) (r : DirRun) : (s.withDirRun r).dd = r.dd := rfl
@[simp] theorem State.withDirRun_params (s : State) (r : DirRun) : (s.withDirRun r).params = s.params := rfl
@[simp] theorem State.withDirRun_env (s : State) (r : DirRun) : (s.withDirRun r).env = r.env := rfl
@[simp] theorem State.withDirRun_data (s : State) (r : DirRun) : (s.withDirRun r).data = s.data := rfl
@[simp] theorem State.withDirRun_host (s : State) (r : DirRun) : (s.withDirRun r).host = s.host := rfl
@[simp] theorem State.withDirRun_stepReq (s : State) (r : DirRun) : (s.withDirRun r).stepReq = s.stepReq := rfl
@[simp] theorem State.withDirRun_stepCtx (s : State) (r : DirRun) : (s.withDirRun r).stepCtx = s.stepCtx := rfl
@[simp] theorem State.withDirRun_rdata (s : State) (r : DirRun) : (s.withDirRun r).rdata = s.rdata := rfl
@[simp] theorem State.withDirRun_draws (s : State) (r : DirRun) : (s.withDirRun r).draws = s.draws := rfl

/-! ### `State.completeSession` -/

@[simp] theorem State.completeSession_rkind (s : State) : (s.completeSession).rkind = .complete := rfl
@[simp] theorem State.completeSession_cause (s : State) : (s.completeSession).cause = .none := rfl
@[simp] theorem State.completeSession_srcid (s : State) : (s.completeSession).srcid = s.srcid := rfl
@[simp] theorem State.completeSession_digest (s : State) : (s.completeSession).digest = s.st.ctx.h := rfl
@[simp] theorem State.completeSession_dighex (s : State) : (s.completeSession).dighex = packHex (render s.st.ctx.h) := rfl
@[simp] theorem State.completeSession_sc (s : State) : (s.completeSession).sc = s.sc := rfl
@[simp] theorem State.completeSession_dd (s : State) : (s.completeSession).dd = s.dd := rfl
@[simp] theorem State.completeSession_params (s : State) : (s.completeSession).params = s.params := rfl
@[simp] theorem State.completeSession_env (s : State) : (s.completeSession).env = s.env := rfl
@[simp] theorem State.completeSession_data (s : State) : (s.completeSession).data = s.data := rfl
@[simp] theorem State.completeSession_host (s : State) : (s.completeSession).host = s.host := rfl
@[simp] theorem State.completeSession_stepReq (s : State) : (s.completeSession).stepReq = s.stepReq := rfl
@[simp] theorem State.completeSession_stepCtx (s : State) : (s.completeSession).stepCtx = s.stepCtx := rfl
@[simp] theorem State.completeSession_rdata (s : State) : (s.completeSession).rdata = s.rdata := rfl
@[simp] theorem State.completeSession_draws (s : State) : (s.completeSession).draws = s.draws := rfl

@[simp] theorem State.completeSession_st (s : State) : s.completeSession.st = { s.st with phase := .completed } := rfl

/-! ### `State.applyStep`: only the context the step is for -/

@[simp] theorem State.applyStep_rkind (s : State) (f : Context → Context × StepRecord) : (s.applyStep f).rkind = s.rkind := by
  unfold State.applyStep; split <;> rfl
@[simp] theorem State.applyStep_cause (s : State) (f : Context → Context × StepRecord) : (s.applyStep f).cause = s.cause := by
  unfold State.applyStep; split <;> rfl
@[simp] theorem State.applyStep_srcid (s : State) (f : Context → Context × StepRecord) : (s.applyStep f).srcid = s.srcid := by
  unfold State.applyStep; split <;> rfl
@[simp] theorem State.applyStep_digest (s : State) (f : Context → Context × StepRecord) : (s.applyStep f).digest = s.digest := by
  unfold State.applyStep; split <;> rfl
@[simp] theorem State.applyStep_dighex (s : State) (f : Context → Context × StepRecord) : (s.applyStep f).dighex = s.dighex := by
  unfold State.applyStep; split <;> rfl
@[simp] theorem State.applyStep_dd (s : State) (f : Context → Context × StepRecord) : (s.applyStep f).dd = s.dd := by
  unfold State.applyStep; split <;> rfl
@[simp] theorem State.applyStep_params (s : State) (f : Context → Context × StepRecord) : (s.applyStep f).params = s.params := by
  unfold State.applyStep; split <;> rfl
@[simp] theorem State.applyStep_env (s : State) (f : Context → Context × StepRecord) : (s.applyStep f).env = s.env := by
  unfold State.applyStep; split <;> rfl
@[simp] theorem State.applyStep_data (s : State) (f : Context → Context × StepRecord) : (s.applyStep f).data = s.data := by
  unfold State.applyStep; split <;> rfl
@[simp] theorem State.applyStep_host (s : State) (f : Context → Context × StepRecord) : (s.applyStep f).host = s.host := by
  unfold State.applyStep; split <;> rfl
@[simp] theorem State.applyStep_stepReq (s : State) (f : Context → Context × StepRecord) : (s.applyStep f).stepReq = s.stepReq := by
  unfold State.applyStep; split <;> rfl
@[simp] theorem State.applyStep_stepCtx (s : State) (f : Context → Context × StepRecord) : (s.applyStep f).stepCtx = s.stepCtx := by
  unfold State.applyStep; split <;> rfl
@[simp] theorem State.applyStep_rdata (s : State) (f : Context → Context × StepRecord) : (s.applyStep f).rdata = s.rdata := by
  unfold State.applyStep; split <;> rfl
@[simp] theorem State.applyStep_draws (s : State) (f : Context → Context × StepRecord) : (s.applyStep f).draws = s.draws := by
  unfold State.applyStep; split <;> rfl

theorem State.applyStep_sc (s : State) (f : Context → Context × StepRecord) (h : s.stepCtx = .sc) :
    s.applyStep f = { s with sc := { s.sc with ctx := (f s.sc.ctx).1 } } := by
  simp [State.applyStep, h]

theorem State.applyStep_st (s : State) (f : Context → Context × StepRecord) (h : s.stepCtx = .st) :
    s.applyStep f = { s with st := s.st.withStep (f s.st.ctx) } := by
  simp [State.applyStep, h]

/-! ### `State.regWrite` -/

@[simp] theorem State.regWrite_srcid (s : State) (v : Word) : s.regWrite 0x08 v = { s with srcid := v } := rfl

/-- A write to any other offset changes nothing (R39). -/
theorem State.regWrite_other (s : State) (off : Nat) (v : Word) (h : off ≠ 0x08) : s.regWrite off v = s := by
  unfold State.regWrite; split
  · exact absurd rfl h
  · rfl

/-! ## STATUS -/

theorem toNat_append_bits {m n : Nat} (x : BitVec m) (y : BitVec n) : (x ++ y).toNat = 2 ^ n * x.toNat + y.toNat := by
  rw [BitVec.toNat_append, ← Nat.shiftLeft_add_eq_or_of_lt y.isLt, Nat.shiftLeft_eq, Nat.mul_comm]

/-- `STATUS` as a number: its three fields (R34). -/
theorem State.statusWord_toNat (s : State) :
    s.statusWord.toNat = s.rkind.code.toNat + 2 ^ 4 * s.st.phase.code.toNat + 2 ^ 8 * s.cause.code.toNat := by
  unfold State.statusWord
  simp only [toNat_append_bits, BitVec.toNat_ofNat]
  omega

end Sys2Proof.Machine
end

