-- ==== Sys2Proof/Laws/Compressor.lean ====
section
/-! SUPPORT. The laws of the block compressor: what each operation leaves unchanged, and how steps compose. -/

namespace Sys2Proof.Machine

@[simp] theorem Context.loadBlk_h (x : Context) (b : List Byte) : (x.loadBlk b).h = x.h := rfl
@[simp] theorem Context.loadBlk_w (x : Context) (b : List Byte) : (x.loadBlk b).w = x.w := rfl
@[simp] theorem Context.loadBlk_msglen (x : Context) (b : List Byte) : (x.loadBlk b).msglen = x.msglen := rfl
@[simp] theorem Context.initW_h (x : Context) : x.initW.h = x.h := rfl
@[simp] theorem Context.initW_m (x : Context) : x.initW.m = x.m := rfl
@[simp] theorem Context.initW_msglen (x : Context) : x.initW.msglen = x.msglen := rfl
@[simp] theorem Context.fold_w (x : Context) : x.fold.w = x.w := rfl
@[simp] theorem Context.fold_m (x : Context) : x.fold.m = x.m := rfl
@[simp] theorem Context.fold_msglen (x : Context) : x.fold.msglen = x.msglen := rfl

/-- LOADBLK replaces all sixteen words (R161): word `j` is the little-endian number at bytes `4j` to `4j + 3`. -/
theorem Context.loadBlk_word (x : Context) (b : List Byte) (g : BitVec 4) :
    (x.loadBlk b).word g = le32 (slice b (4 * g.toNat) 4) := by
  simp [Context.word, Context.loadBlk]

@[simp] theorem Context.stepShape_h (fn) (g : BitVec 4) (i : BitVec 6) (x : Context) : (x.stepShape fn g i).1.h = x.h := rfl
@[simp] theorem Context.stepShape_m (fn) (g : BitVec 4) (i : BitVec 6) (x : Context) : (x.stepShape fn g i).1.m = x.m := rfl
@[simp] theorem Context.stepShape_msglen (fn) (g : BitVec 4) (i : BitVec 6) (x : Context) :
    (x.stepShape fn g i).1.msglen = x.msglen := rfl

/-- A step is the shape of R163 for one of the four functions and one of the four index rules. -/
theorem Context.stepAt_cases (i : BitVec 6) : ∃ fn g, ∀ x : Context, x.stepAt i = x.stepShape fn g i := by
  have hi : stepNumber (i.extractLsb' 4 2) (i.extractLsb' 0 4) = i := by revert i; decide
  unfold Context.stepAt
  generalize hp : i.extractLsb' 0 4 = p at *
  generalize hr : i.extractLsb' 4 2 = r at *
  have h4 : r = 0#2 ∨ r = 1#2 ∨ r = 2#2 ∨ r = 3#2 := by clear hi hr; revert r; decide
  rcases h4 with rfl | rfl | rfl | rfl
  · exact ⟨fnF, gRound1 i, fun x => by simp [Context.stepFF, hi]⟩
  · exact ⟨fnG, gRound2 i, fun x => by simp [Context.stepGG, hi]⟩
  · exact ⟨fnH, gRound3 i, fun x => by simp [Context.stepHH, hi]⟩
  · exact ⟨fnI, gRound4 i, fun x => by simp [Context.stepII, hi]⟩

@[simp] theorem Context.stepAt_h (i : BitVec 6) (x : Context) : (x.stepAt i).1.h = x.h := by
  obtain ⟨fn, g, h⟩ := Context.stepAt_cases i; simp [h]
@[simp] theorem Context.stepAt_m (i : BitVec 6) (x : Context) : (x.stepAt i).1.m = x.m := by
  obtain ⟨fn, g, h⟩ := Context.stepAt_cases i; simp [h]
@[simp] theorem Context.stepAt_msglen (i : BitVec 6) (x : Context) : (x.stepAt i).1.msglen = x.msglen := by
  obtain ⟨fn, g, h⟩ := Context.stepAt_cases i; simp [h]

/-- A step's working registers and record depend on the working registers and the message words only (R163). -/
theorem Context.stepAt_congr (i : BitVec 6) (x y : Context) (hw : x.w = y.w) (hm : x.m = y.m) :
    (x.stepAt i).1.w = (y.stepAt i).1.w ∧ (x.stepAt i).2 = (y.stepAt i).2 := by
  obtain ⟨fn, g, h⟩ := Context.stepAt_cases i
  simp [h, Context.stepShape, Context.word, hw, hm]

@[simp] theorem Context.steps_zero (x : Context) : x.steps 0 = x := rfl

theorem Context.steps_succ (n : Nat) (x : Context) :
    x.steps (n + 1) = ((x.steps n).stepAt (BitVec.ofNat 6 n)).1 := by
  simp [Context.steps, List.range_succ]

@[simp] theorem Context.steps_h (n : Nat) (x : Context) : (x.steps n).h = x.h := by
  induction n with
  | zero => rfl
  | succ n ih => rw [Context.steps_succ, Context.stepAt_h, ih]
@[simp] theorem Context.steps_m (n : Nat) (x : Context) : (x.steps n).m = x.m := by
  induction n with
  | zero => rfl
  | succ n ih => rw [Context.steps_succ, Context.stepAt_m, ih]
@[simp] theorem Context.steps_msglen (n : Nat) (x : Context) : (x.steps n).msglen = x.msglen := by
  induction n with
  | zero => rfl
  | succ n ih => rw [Context.steps_succ, Context.stepAt_msglen, ih]

/-- Any number of steps depends on the working registers and the message words only. -/
theorem Context.steps_congr (n : Nat) (x y : Context) (hw : x.w = y.w) (hm : x.m = y.m) :
    (x.steps n).w = (y.steps n).w := by
  induction n with
  | zero => exact hw
  | succ n ih =>
    rw [Context.steps_succ, Context.steps_succ]
    exact (Context.stepAt_congr _ _ _ ih (by simp [hm])).1

@[simp] theorem Context.compress_msglen (x : Context) (b : List Byte) : (x.compress b).msglen = x.msglen :=
  (Context.fold_msglen _).trans ((Context.steps_msglen 64 _).trans rfl)

/-- What `STEP` leaves in the stepper besides the context and the record: everything. -/
@[simp] theorem Stepper.withStep_blkmem (t : Stepper) (r : Context × StepRecord) : (t.withStep r).blkmem = t.blkmem := rfl
@[simp] theorem Stepper.withStep_nblk (t : Stepper) (r : Context × StepRecord) : (t.withStep r).nblk = t.nblk := rfl
@[simp] theorem Stepper.withStep_blkidx (t : Stepper) (r : Context × StepRecord) : (t.withStep r).blkidx = t.blkidx := rfl
@[simp] theorem Stepper.withStep_stepidx (t : Stepper) (r : Context × StepRecord) : (t.withStep r).stepidx = t.stepidx := rfl
@[simp] theorem Stepper.withStep_phase (t : Stepper) (r : Context × StepRecord) : (t.withStep r).phase = t.phase := rfl
@[simp] theorem Stepper.withStep_ctx (t : Stepper) (r : Context × StepRecord) : (t.withStep r).ctx = r.1 := rfl
@[simp] theorem Stepper.withStep_round (t : Stepper) (r : Context × StepRecord) : (t.withStep r).round = r.2.round := rfl
@[simp] theorem Stepper.withStep_widx (t : Stepper) (r : Context × StepRecord) : (t.withStep r).widx = r.2.widx := rfl
@[simp] theorem Stepper.withStep_pre (t : Stepper) (r : Context × StepRecord) : (t.withStep r).pre = r.2.pre := rfl

end Sys2Proof.Machine
end

