-- ==== Sys2Proof/Laws/Env.lean ====
section
/-! SUPPORT. The laws of the environment's primitives (R77 to R80): which answers each consumes, and that it touches no others. -/

namespace Sys2Proof.Machine

@[simp] theorem Env.see_reads (e : Env) (r : Request) : (e.see r).reads = e.reads := rfl
@[simp] theorem Env.see_opens (e : Env) (r : Request) : (e.see r).opens = e.opens := rfl
@[simp] theorem Env.see_scans (e : Env) (r : Request) : (e.see r).scans = e.scans := rfl
@[simp] theorem Env.see_polls (e : Env) (r : Request) : (e.see r).polls = e.polls := rfl
@[simp] theorem Env.see_later (e : Env) (r : Request) : (e.see r).later = e.later := rfl
@[simp] theorem Env.see_seen (e : Env) (r : Request) : (e.see r).seen = r :: e.seen := rfl
@[simp] theorem Env.close_reads (e : Env) (h : Word) : (e.close h).reads = e.reads := rfl
@[simp] theorem Env.close_opens (e : Env) (h : Word) : (e.close h).opens = e.opens := rfl
@[simp] theorem Env.close_scans (e : Env) (h : Word) : (e.close h).scans = e.scans := rfl
@[simp] theorem Env.close_polls (e : Env) (h : Word) : (e.close h).polls = e.polls := rfl
@[simp] theorem Env.close_later (e : Env) (h : Word) : (e.close h).later = e.later := rfl
@[simp] theorem Env.close_seen (e : Env) (h : Word) : (e.close h).seen = .envClose h :: e.seen := rfl

/-- `CancelPoll` takes one answer and asks one question. -/
theorem Env.cancelPoll_spec (e : Env) :
    e.cancelPoll.2.reads = e.reads ∧ e.cancelPoll.2.opens = e.opens ∧ e.cancelPoll.2.scans = e.scans ∧
      e.cancelPoll.2.later = e.later ∧ e.cancelPoll.2.seen = .cancelPoll :: e.seen ∧
      e.cancelPoll.2.polls = e.polls.tail ∧ e.cancelPoll.1 = e.polls.headD e.later.poll := by
  unfold Env.cancelPoll; split <;> simp_all

@[simp] theorem Env.cancelPoll_reads (e : Env) : e.cancelPoll.2.reads = e.reads := e.cancelPoll_spec.1
@[simp] theorem Env.cancelPoll_opens (e : Env) : e.cancelPoll.2.opens = e.opens := e.cancelPoll_spec.2.1
@[simp] theorem Env.cancelPoll_scans (e : Env) : e.cancelPoll.2.scans = e.scans := e.cancelPoll_spec.2.2.1
@[simp] theorem Env.cancelPoll_later (e : Env) : e.cancelPoll.2.later = e.later := e.cancelPoll_spec.2.2.2.1
@[simp] theorem Env.cancelPoll_seen (e : Env) : e.cancelPoll.2.seen = .cancelPoll :: e.seen := e.cancelPoll_spec.2.2.2.2.1
@[simp] theorem Env.cancelPoll_polls (e : Env) : e.cancelPoll.2.polls = e.polls.tail := e.cancelPoll_spec.2.2.2.2.2.1
@[simp] theorem Env.cancelPoll_answer (e : Env) : e.cancelPoll.1 = e.polls.headD e.later.poll := e.cancelPoll_spec.2.2.2.2.2.2

/-- `SrcRead` touches the answers to `SrcRead` only, and asks one question. -/
theorem Env.srcRead_spec (src : Source) (e : Env) :
    (e.srcRead src).2.2.opens = e.opens ∧ (e.srcRead src).2.2.scans = e.scans ∧ (e.srcRead src).2.2.polls = e.polls ∧
      (e.srcRead src).2.2.later = e.later ∧ (e.srcRead src).2.2.seen = .srcRead src.name :: e.seen ∧
      (e.srcRead src).2.1.name = src.name := by
  unfold Env.srcRead
  cases src with
  | bytes rest => simp [Source.name]
  | stream h => cases hr : e.reads <;> simp [Source.name]

@[simp] theorem Env.srcRead_opens (src : Source) (e : Env) : (e.srcRead src).2.2.opens = e.opens := (e.srcRead_spec src).1
@[simp] theorem Env.srcRead_scans (src : Source) (e : Env) : (e.srcRead src).2.2.scans = e.scans := (e.srcRead_spec src).2.1
@[simp] theorem Env.srcRead_polls (src : Source) (e : Env) : (e.srcRead src).2.2.polls = e.polls := (e.srcRead_spec src).2.2.1
@[simp] theorem Env.srcRead_later (src : Source) (e : Env) : (e.srcRead src).2.2.later = e.later := (e.srcRead_spec src).2.2.2.1
@[simp] theorem Env.srcRead_seen (src : Source) (e : Env) : (e.srcRead src).2.2.seen = .srcRead src.name :: e.seen :=
  (e.srcRead_spec src).2.2.2.2.1
@[simp] theorem Env.srcRead_name (src : Source) (e : Env) : (e.srcRead src).2.1.name = src.name := (e.srcRead_spec src).2.2.2.2.2

/-- `EnvOpen` takes one answer and asks one question. -/
theorem Env.openFile_spec (id : Word) (e : Env) :
    (e.openFile id).2.reads = e.reads ∧ (e.openFile id).2.scans = e.scans ∧ (e.openFile id).2.polls = e.polls ∧
      (e.openFile id).2.later = e.later ∧ (e.openFile id).2.seen = .envOpen id :: e.seen ∧
      (e.openFile id).2.opens = e.opens.tail ∧ (e.openFile id).1 = e.opens.headD e.later.opened := by
  unfold Env.openFile; split <;> simp_all

@[simp] theorem Env.openFile_reads (id : Word) (e : Env) : (e.openFile id).2.reads = e.reads := (e.openFile_spec id).1
@[simp] theorem Env.openFile_scans (id : Word) (e : Env) : (e.openFile id).2.scans = e.scans := (e.openFile_spec id).2.1
@[simp] theorem Env.openFile_polls (id : Word) (e : Env) : (e.openFile id).2.polls = e.polls := (e.openFile_spec id).2.2.1
@[simp] theorem Env.openFile_later (id : Word) (e : Env) : (e.openFile id).2.later = e.later := (e.openFile_spec id).2.2.2.1
@[simp] theorem Env.openFile_seen (id : Word) (e : Env) : (e.openFile id).2.seen = .envOpen id :: e.seen :=
  (e.openFile_spec id).2.2.2.2.1
@[simp] theorem Env.openFile_opens (id : Word) (e : Env) : (e.openFile id).2.opens = e.opens.tail :=
  (e.openFile_spec id).2.2.2.2.2.1
@[simp] theorem Env.openFile_answer (id : Word) (e : Env) : (e.openFile id).1 = e.opens.headD e.later.opened :=
  (e.openFile_spec id).2.2.2.2.2.2

/-- `EnvScan` takes one answer and asks one question. -/
theorem Env.scan_spec (id : Word) (e : Env) :
    (e.scan id).2.reads = e.reads ∧ (e.scan id).2.opens = e.opens ∧ (e.scan id).2.polls = e.polls ∧
      (e.scan id).2.later = e.later ∧ (e.scan id).2.seen = .envScan id :: e.seen ∧
      (e.scan id).2.scans = e.scans.tail ∧ (e.scan id).1 = e.scans.headD e.later.scan := by
  unfold Env.scan; split <;> simp_all

@[simp] theorem Env.scan_reads (id : Word) (e : Env) : (e.scan id).2.reads = e.reads := (e.scan_spec id).1
@[simp] theorem Env.scan_opens (id : Word) (e : Env) : (e.scan id).2.opens = e.opens := (e.scan_spec id).2.1
@[simp] theorem Env.scan_polls (id : Word) (e : Env) : (e.scan id).2.polls = e.polls := (e.scan_spec id).2.2.1
@[simp] theorem Env.scan_later (id : Word) (e : Env) : (e.scan id).2.later = e.later := (e.scan_spec id).2.2.2.1
@[simp] theorem Env.scan_seen (id : Word) (e : Env) : (e.scan id).2.seen = .envScan id :: e.seen := (e.scan_spec id).2.2.2.2.1
@[simp] theorem Env.scan_scans (id : Word) (e : Env) : (e.scan id).2.scans = e.scans.tail := (e.scan_spec id).2.2.2.2.2.1
@[simp] theorem Env.scan_answer (id : Word) (e : Env) : (e.scan id).1 = e.scans.headD e.later.scan :=
  (e.scan_spec id).2.2.2.2.2.2

/-- An environment that never cancels answers `false`, and goes on never cancelling. -/
theorem Env.neverCancels_poll {e : Env} (h : e.neverCancels) : e.cancelPoll.1 = false ∧ e.cancelPoll.2.neverCancels := by
  obtain ⟨hp, hl⟩ := h
  simp only [Env.neverCancels, Env.cancelPoll_answer, Env.cancelPoll_polls, Env.cancelPoll_later]
  cases hq : e.polls with
  | nil => simp [hl]
  | cons a r =>
    rw [hq] at hp
    simp only [List.headD_cons, List.tail_cons]
    exact ⟨hp a (by simp), fun p h => hp p (by simp [h]), hl⟩

/-- Whether an environment never cancels depends on its answers to `CancelPoll` only. -/
theorem Env.neverCancels_congr {e f : Env} (hp : f.polls = e.polls) (hl : f.later = e.later) (h : e.neverCancels) :
    f.neverCancels := by
  unfold Env.neverCancels at *; rw [hp, hl]; exact h

/-! ## The answers to `CancelPoll` still to come -/

theorem Env.cancelPoll_pollAnswer (e : Env) (k : Nat) : e.cancelPoll.2.pollAnswer k = e.pollAnswer (k + 1) := by
  simp only [Env.pollAnswer, Env.cancelPoll_polls, Env.cancelPoll_later]
  cases e.polls <;> rfl

theorem Env.cancelPoll_first (e : Env) : e.cancelPoll.1 = e.pollAnswer 0 := by
  rw [Env.cancelPoll_answer]; unfold Env.pollAnswer; cases e.polls <;> rfl

/-- The answers to come depend on the listed answers and the later one only. -/
theorem Env.pollAnswer_congr {e f : Env} (hp : f.polls = e.polls) (hl : f.later = e.later) (k : Nat) : f.pollAnswer k = e.pollAnswer k := by
  unfold Env.pollAnswer; rw [hp, hl]

theorem Env.pollAnswer_drop {e f : Env} {n : Nat} (hp : f.polls = e.polls.drop n) (hl : f.later = e.later) (k : Nat) :
    f.pollAnswer k = e.pollAnswer (n + k) := by
  unfold Env.pollAnswer; rw [hp, hl, List.getD_eq_getElem?_getD, List.getD_eq_getElem?_getD, List.getElem?_drop]

theorem Env.neverCancels_continues {e : Env} (h : e.neverCancels) (n : Nat) : e.continues n := by
  intro k _
  unfold Env.pollAnswer
  rw [List.getD_eq_getElem?_getD]
  rcases hk : e.polls[k]? with _ | p
  · exact h.2
  · exact h.1 p (List.mem_of_getElem? hk)

theorem Env.continues_drop {e f : Env} {n m : Nat} (hp : f.polls = e.polls.drop n) (hl : f.later = e.later) (h : e.continues (n + m)) :
    f.continues m := fun k hk => by rw [Env.pollAnswer_drop hp hl]; exact h (n + k) (by omega)

theorem Env.cancelsAt_drop {e f : Env} {n m : Nat} (hp : f.polls = e.polls.drop n) (hl : f.later = e.later) (h : e.cancelsAt (n + m)) :
    f.cancelsAt m :=
  ⟨Env.continues_drop hp hl h.1, (Env.pollAnswer_drop hp hl m).trans h.2⟩

theorem Env.continues_mono {e : Env} {n m : Nat} (h : e.continues n) (hm : m ≤ n) : e.continues m := fun k hk => h k (by omega)

/-- The poll before a read, which the first read of a digest and the first open of a walk do not have (R216, R250). -/
def Env.pollUnless (first : Bool) (e : Env) : Bool × Env := if first then (false, e) else e.cancelPoll

/-- How many polls that is. -/
def pollsBefore (first : Bool) : Nat := if first then 0 else 1

/-- What the poll before a read can do: nothing at the first read; else one answer is taken and one question seen. -/
theorem Env.pollUnless_spec (first : Bool) (e : Env) :
    (e.pollUnless first).2 =
        { e with polls := e.polls.drop (pollsBefore first), seen := (List.replicate (pollsBefore first) .cancelPoll) ++ e.seen } ∧
      (e.continues (pollsBefore first) → (e.pollUnless first).1 = false) := by
  cases first
  · refine ⟨?_, fun h => ?_⟩
    · show e.cancelPoll.2 = _
      unfold Env.cancelPoll
      rcases hp : e.polls with _ | ⟨a, r⟩
      · rw [← hp]; simp [pollsBefore, Env.see, hp]
      · simp [pollsBefore, Env.see]
    · show e.cancelPoll.1 = false
      rw [Env.cancelPoll_first]; exact h 0 (by simp [pollsBefore])
  · exact ⟨by simp [Env.pollUnless, pollsBefore], fun _ => rfl⟩

end Sys2Proof.Machine
end

