-- ==== Sys2Proof/Laws/Bytes.lean ====
section
/-! SUPPORT. The laws of the byte-order conversions (R9). -/

namespace Sys2Proof.Machine

@[simp] theorem length_bytesLE (n v : Nat) : (bytesLE n v).length = n := by
  induction n generalizing v with
  | zero => rfl
  | succ n ih => simp [bytesLE, ih]

/-- `le32(bytes_le(v, n)) = v` of R9, at every length. -/
theorem leNat_bytesLE (n v : Nat) (h : v < 256 ^ n) : leNat (bytesLE n v) = v := by
  induction n generalizing v with
  | zero => simp at h; simp [bytesLE, leNat, h]
  | succ n ih =>
    have hv : v / 256 < 256 ^ n := by
      rw [Nat.div_lt_iff_lt_mul (by norm_num)]; rwa [pow_succ] at h
    simp only [bytesLE, leNat, ih _ hv, BitVec.toNat_ofNat]
    omega

@[simp] theorem le32_bytesLE (w : Word) : le32 (bytesLE 4 w.toNat) = w := by
  rw [le32, leNat_bytesLE 4 _ (by have := w.isLt; omega), BitVec.ofNat_toNat, BitVec.setWidth_eq]

/-- A sequence of bytes spells a number below 256 to its length. -/
theorem leNat_lt (s : List Byte) : leNat s < 256 ^ s.length := by
  induction s with
  | nil => simp [leNat]
  | cons b bs ih =>
    have := b.isLt
    simp only [leNat, List.length_cons, pow_succ]
    omega

/-- The other direction of R9: the bytes of a number spelled by `n` bytes are those bytes. -/
theorem bytesLE_leNat (s : List Byte) : bytesLE s.length (leNat s) = s := by
  induction s with
  | nil => rfl
  | cons b bs ih =>
    have hb := b.isLt
    have h1 : (b.toNat + 256 * leNat bs) / 256 = leNat bs := by omega
    have h2 : BitVec.ofNat 8 (b.toNat + 256 * leNat bs) = b := by
      apply BitVec.eq_of_toNat_eq; simp; omega
    simp only [List.length_cons, leNat, bytesLE, h1, h2, ih]

theorem length_slice (s : List Byte) (i n : Nat) : (slice s i n).length = min n (s.length - i) := by
  simp [slice]

end Sys2Proof.Machine
end

