-- ==== Sys2Proof/Laws/Padding.lean ====
section
/-! SUPPORT. The laws of padding and of cutting a padded message into blocks (R192, R196, R197). -/

namespace Sys2Proof.Machine

/-- `z` as R192 writes it out: `55 - t` up to a tail of 55 bytes, `119 - t` above. -/
theorem padZeros_eq (t : Nat) (h : t < 64) : padZeros t = if t ≤ 55 then 55 - t else 119 - t := by
  unfold padZeros; split <;> omega

@[simp] theorem length_padBytes (tail : List Byte) (n : Nat) :
    (padBytes tail n).length = tail.length + 1 + padZeros tail.length + 8 := by
  simp [padBytes]; omega

/-- `P` has 64 bytes up to a tail of 55 bytes and 128 above (R192). -/
theorem length_padBytes_lt (tail : List Byte) (n : Nat) (h : tail.length < 64) :
    (padBytes tail n).length = if tail.length ≤ 55 then 64 else 128 := by
  rw [length_padBytes, padZeros_eq _ h]; split <;> omega

theorem nblkOf_pos (n : Nat) : 0 < nblkOf n := by unfold nblkOf; split <;> omega

/-- `NBLK(n) ≤ 2^55 + 1` for every admitted message (R196). -/
theorem nblkOf_le (n : Nat) (h : n ≤ Config.maxMsgBytes) : nblkOf n ≤ 2 ^ 55 + 1 := by
  unfold Config.maxMsgBytes at h; unfold nblkOf; split <;> omega

@[simp] theorem toNat_nblkOf (n : Nat) (h : n ≤ Config.maxMsgBytes) : (BitVec.ofNat 64 (nblkOf n)).toNat = nblkOf n := by
  have := nblkOf_le n h
  rw [BitVec.toNat_ofNat, Nat.mod_eq_of_lt (by omega)]

/-- The blocks `PAD` returns are the blocks of `P`. -/
theorem pad_eq_blocksOf (tail : List Byte) (n : Nat) (h : tail.length < 64) :
    pad tail n = blocksOf (padBytes tail n) := by
  have hl := length_padBytes_lt tail n h
  unfold pad blocksOf
  by_cases ht : tail.length ≤ 55
  · rw [if_pos ht] at hl
    simp only [hl]
    simp [slice]
  · rw [if_neg ht] at hl
    simp only [hl, if_true]
    have : (padBytes tail n).drop 64 = ((padBytes tail n).drop 64).take 64 := by
      rw [List.take_of_length_le]; simp only [List.length_drop]; omega
    rw [this]
    simp [slice, List.range_succ]

/-- Blocks of a sequence that starts with whole blocks. -/
theorem blocksOf_append (s t : List Byte) (h : s.length = 64) : blocksOf (s ++ t) = s :: blocksOf t := by
  unfold blocksOf
  have hd : (s ++ t).length / 64 = t.length / 64 + 1 := by simp [h]
  rw [hd, List.range_succ_eq_map, List.map_cons, List.map_map]
  congr 1
  · simp [slice, ← h]
  · apply List.map_congr_left
    intro k _
    simp only [Function.comp, slice, Nat.succ_eq_add_one]
    rw [show 64 * (k + 1) = s.length + 64 * k by omega, List.drop_append, List.drop_of_length_le (by omega)]
    simp

/-- The padded message of a message whose first 64 bytes are cut off, with the length of the whole. -/
def padRest (rest : List Byte) (n : Nat) : List Byte :=
  rest.take (64 * (rest.length / 64)) ++ padBytes (rest.drop (64 * (rest.length / 64))) n

theorem padMsg_eq_padRest (data : List Byte) : padMsg data = padRest data data.length := rfl

/-- A rest of fewer than 64 bytes is all tail. -/
theorem padRest_short (rest : List Byte) (n : Nat) (h : rest.length < 64) : padRest rest n = padBytes rest n := by
  unfold padRest; rw [show rest.length / 64 = 0 by omega]; simp

/-- A rest of 64 bytes or more gives its first 64 bytes as a block. -/
theorem padRest_full (rest : List Byte) (n : Nat) (h : 64 ≤ rest.length) :
    padRest rest n = rest.take 64 ++ padRest (rest.drop 64) n := by
  unfold padRest
  have h1 : (rest.drop 64).length / 64 = rest.length / 64 - 1 := by simp; omega
  have h2 : 64 * (rest.length / 64) = 64 + 64 * (rest.length / 64 - 1) := by omega
  rw [h1, h2, List.take_add, List.append_assoc, List.drop_drop]

end Sys2Proof.Machine
end

