-- ==== Sys2Proof/Laws/Streaming.lean ====
section
/-! SUPPORT. The laws of the streaming controller: one run of DIGEST_OF over a source that delivers a message (R211 to R219), and what any
run leaves unchanged. -/

namespace Sys2Proof.Machine

/-! ## Chaining -/

/-- `COMPRESS` on a context is the pure function of R160 on its chaining registers. -/
theorem Context.compress_h (x : Context) (b : List Byte) : (x.compress b).h = x.h.compress b := by
  have hw : ((x.loadBlk b).initW.steps 64).w =
      ((({ Context.zero with h := x.h } : Context).loadBlk b).initW.steps 64).w :=
    Context.steps_congr 64 _ _ rfl rfl
  have hh : ∀ y : Context, (((y.loadBlk b).initW).steps 64).h = y.h := fun y => Context.steps_h 64 _
  unfold Chain.compress Context.compress Context.fold
  simp only [hw, hh]

/-- Compressing blocks in order chains (R171). -/
theorem Context.foldl_compress_h (bs : List (List Byte)) (x : Context) :
    (bs.foldl Context.compress x).h = bs.foldl Chain.compress x.h := by
  induction bs generalizing x with
  | nil => rfl
  | cons b bs ih => rw [List.foldl_cons, ih, Context.compress_h, List.foldl_cons]

theorem Context.foldl_compress_msglen (bs : List (List Byte)) (x : Context) :
    (bs.foldl Context.compress x).msglen = x.msglen := by
  induction bs generalizing x with
  | nil => rfl
  | cons b bs ih => rw [List.foldl_cons, ih, Context.compress_msglen]

/-! ## Windows -/

@[simp] theorem Window.ofBytes_bytes (s : List Byte) : (Window.ofBytes s).bytes = s.take 64 := rfl

theorem windowsOf_full (d : List Byte) (h : 64 ≤ d.length) :
    windowsOf d = .window (Window.ofBytes d) :: windowsOf (d.drop 64) := by
  unfold windowsOf
  have : d.length / 64 = (d.drop 64).length / 64 + 1 := by simp; omega
  rw [this, List.range_succ_eq_map, List.map_cons, List.map_map]
  congr 1
  apply List.map_congr_left
  intro k _
  simp only [Function.comp, Nat.succ_eq_add_one, List.drop_drop]
  rw [show 64 * (k + 1) = 64 + 64 * k by omega]

theorem windowsOf_short (d : List Byte) (h : d.length < 64) : windowsOf d = [.window (Window.ofBytes d)] := by
  unfold windowsOf; rw [show d.length / 64 = 0 by omega]; simp

theorem length_windowsOf (d : List Byte) : (windowsOf d).length = d.length / 64 + 1 := by simp [windowsOf]

/-- The source delivers a rest of a message next, and leaves these answers to `SrcRead` listed. -/
def Source.feeds (src : Source) (reads : List ReadAnswer) (rest : List Byte) (more : List ReadAnswer) : Prop :=
  match src with
  | .bytes r => r = rest ∧ reads = more
  | .stream _ => reads = windowsOf rest ++ more

/-- What a feeding source answers, and that it goes on feeding. -/
theorem Source.feeds_read {src : Source} {e : Env} {rest : List Byte} {more : List ReadAnswer} (h : src.feeds e.reads rest more) :
    ∃ src1 reads1, e.srcRead src = (.window (Window.ofBytes rest), src1, { e with reads := reads1, seen := .srcRead src.name :: e.seen }) ∧
      src1.name = src.name ∧ (64 ≤ rest.length → src1.feeds reads1 (rest.drop 64) more) ∧ (rest.length < 64 → reads1 = more) := by
  cases src with
  | bytes r =>
    obtain ⟨rfl, he⟩ := h
    exact ⟨.bytes (r.drop 64), e.reads, rfl, rfl, fun _ => ⟨rfl, he⟩, fun _ => he⟩
  | stream id =>
    have hr : e.reads = windowsOf rest ++ more := h
    by_cases hl : 64 ≤ rest.length
    · rw [windowsOf_full _ hl, List.cons_append] at hr
      exact ⟨.stream id, windowsOf (rest.drop 64) ++ more, by simp only [Env.srcRead, hr]; rfl, rfl, fun _ => rfl, fun h' => by omega⟩
    · rw [windowsOf_short _ (by omega), List.singleton_append] at hr
      exact ⟨.stream id, more, by simp only [Env.srcRead, hr]; rfl, rfl, fun h' => absurd h' hl, fun _ => rfl⟩

/-! ## One digest -/

theorem Streaming.fullWindow_h (c : Streaming) (w : Window) : (c.fullWindow w).ctx.h = c.ctx.h.compress w.bytes := by
  rw [← Context.compress_h]; rfl

theorem Streaming.fullWindow_msglen (c : Streaming) (w : Window) : (c.fullWindow w).ctx.msglen = c.ctx.msglen + 64#64 := by
  rw [← Context.compress_msglen c.ctx w.bytes]; rfl

theorem Streaming.finalWindow_h (c : Streaming) (w : Window) :
    (c.finalWindow w).ctx.h =
      (pad w.bytes (c.ctx.msglen + BitVec.ofNat 64 w.bytes.length).toNat).foldl Chain.compress c.ctx.h := by
  unfold Streaming.finalWindow; rw [Context.foldl_compress_h]; rfl

/-- A rendering has 32 characters (R222). -/
theorem length_render (h : Chain) : (render h).length = 32 := by simp [render, digestBytes, bytesLE, hexByte]

theorem Streaming.start_h (c : Streaming) : c.start.ctx.h = iv := rfl
theorem Streaming.start_msglen (c : Streaming) : c.start.ctx.msglen = 0#64 := rfl

/-- The environment after a run differs from the one before in the answers used and the requests seen: `CancelPoll` and `SrcRead` of
this source only. -/
theorem digestLoop_env (fuel : Nat) (first : Bool) (src : Source) (c : Streaming) (e : Env) :
    (digestLoop fuel first src c e).env.opens = e.opens ∧ (digestLoop fuel first src c e).env.scans = e.scans ∧
      (digestLoop fuel first src c e).env.later = e.later ∧
      ∃ mid, (digestLoop fuel first src c e).env.seen = mid ++ e.seen ∧
        ∀ r ∈ mid, r = .cancelPoll ∨ r = .srcRead src.name := by
  induction fuel generalizing first src c e with
  | zero => exact ⟨rfl, rfl, rfl, [], rfl, by simp⟩
  | succ fuel ih =>
    have hp : ∀ p : Bool × Env, p = (if first then (false, e) else e.cancelPoll) →
        p.2.opens = e.opens ∧ p.2.scans = e.scans ∧ p.2.later = e.later ∧ ∃ mid, p.2.seen = mid ++ e.seen ∧
          ∀ r ∈ mid, r = Request.cancelPoll ∨ r = .srcRead src.name := by
      rintro p rfl
      cases first
      · exact ⟨by simp, by simp, by simp, [.cancelPoll], by simp, by simp⟩
      · exact ⟨rfl, rfl, rfl, [], rfl, by simp⟩
    unfold digestLoop
    generalize hq : (if first then (false, e) else e.cancelPoll) = p
    obtain ⟨h1, h2, h3, mid, h4, h5⟩ := hp p hq.symm
    obtain ⟨stop, f⟩ := p
    simp only at h1 h2 h3 h4 ⊢
    by_cases hc : stop = true
    · rw [if_pos hc]; exact ⟨h1, h2, h3, mid, h4, h5⟩
    · rw [if_neg hc]
      have hs : (f.srcRead src).2.2.opens = e.opens ∧ (f.srcRead src).2.2.scans = e.scans ∧
          (f.srcRead src).2.2.later = e.later ∧ ∃ mid, (f.srcRead src).2.2.seen = mid ++ e.seen ∧
            ∀ r ∈ mid, r = Request.cancelPoll ∨ r = .srcRead src.name := by
        refine ⟨by simp [h1], by simp [h2], by simp [h3], .srcRead src.name :: mid, by simp [h4], ?_⟩
        intro r hr
        rcases List.mem_cons.mp hr with rfl | hr
        · exact .inr rfl
        · exact h5 r hr
      cases (f.srcRead src).1 with
      | fail => exact hs
      | window w =>
        simp only
        split
        · exact hs
        · split
          · obtain ⟨g1, g2, g3, mid', g4, g5⟩ := ih false (f.srcRead src).2.1 (c.fullWindow w) (f.srcRead src).2.2
            obtain ⟨k1, k2, k3, mid'', k4, k5⟩ := hs
            refine ⟨g1.trans k1, g2.trans k2, g3.trans k3, mid' ++ mid'', by rw [g4, k4, List.append_assoc], ?_⟩
            intro r hr
            rcases List.mem_append.mp hr with hr | hr
            · simpa using g5 r hr
            · exact k5 r hr
          · exact hs

/-! ## One window at a time -/

/-- What follows the poll in one turn of the loop of R211: the read, and what its answer leads to. -/
def digestBody (fuel : Nat) (src : Source) (c : Streaming) (e : Env) : DigestRun :=
  match (e.srcRead src).1 with
  | .fail => ⟨.failed .ioRead, c, (e.srcRead src).2.2⟩
  | .window w =>
    if Config.maxMsgBytes < c.ctx.msglen.toNat + w.bytes.length then ⟨.refused .messageTooLong, c, (e.srcRead src).2.2⟩
    else if w.bytes.length = 64 then digestLoop fuel false (e.srcRead src).2.1 (c.fullWindow w) (e.srcRead src).2.2
    else ⟨.done, c.finalWindow w, (e.srcRead src).2.2⟩

/-- One turn of the loop: the poll, then the read. -/
theorem digestLoop_turn (fuel : Nat) (first : Bool) (src : Source) (c : Streaming) (e : Env) :
    digestLoop (fuel + 1) first src c e =
      if (e.pollUnless first).1 then ⟨.cancelled, c, (e.pollUnless first).2⟩ else digestBody fuel src c (e.pollUnless first).2 := rfl

theorem digestLoop_first (fuel : Nat) (src : Source) (c : Streaming) (e : Env) :
    digestLoop (fuel + 1) true src c e = digestBody fuel src c e := rfl

/-- A turn that is not told to stop. -/
theorem digestLoop_goesOn (fuel : Nat) (src : Source) (c : Streaming) (e : Env) (h : e.pollAnswer 0 = false) :
    digestLoop (fuel + 1) false src c e =
      digestBody fuel src c { e with polls := e.polls.drop 1, seen := .cancelPoll :: e.seen } := by
  obtain ⟨h1, h2⟩ := e.pollUnless_spec false
  rw [digestLoop_turn, h1, h2 fun k hk => by rw [show k = 0 by simp [pollsBefore] at hk; exact hk]; exact h]
  rfl

/-- A turn that is told to stop (R216). -/
theorem digestLoop_stops (fuel : Nat) (src : Source) (c : Streaming) (e : Env) (h : e.pollAnswer 0 = true) :
    digestLoop (fuel + 1) false src c e = ⟨.cancelled, c, { e with polls := e.polls.drop 1, seen := .cancelPoll :: e.seen }⟩ := by
  obtain ⟨h1, -⟩ := e.pollUnless_spec false
  rw [digestLoop_turn, h1, show (e.pollUnless false).1 = true from (Env.cancelPoll_first e).trans h]
  rfl

/-- The source gives these windows next, and then goes on as `src'` with these answers listed. -/
def Source.gives (src : Source) (reads : List ReadAnswer) (ws : List Window) (src' : Source) (reads' : List ReadAnswer) : Prop :=
  match src with
  | .bytes d => reads' = reads ∧ ∃ d', d = ws.flatMap Window.bytes ++ d' ∧ src' = .bytes d'
  | .stream h => reads = ws.map ReadAnswer.window ++ reads' ∧ src' = .stream h

/-- The first of the full windows a source gives. -/
theorem Source.gives_cons {src src' : Source} {e : Env} {w : Window} {ws : List Window} {reads' : List ReadAnswer}
    (h : src.gives e.reads (w :: ws) src' reads') (hw : w.bytes.length = 64) :
    ∃ src1 reads1, e.srcRead src = (.window w, src1, { e with reads := reads1, seen := .srcRead src.name :: e.seen }) ∧
      src1.name = src.name ∧ src1.gives reads1 ws src' reads' := by
  cases src with
  | bytes d =>
    obtain ⟨h1, d', rfl, h3⟩ := h
    refine ⟨.bytes (ws.flatMap Window.bytes ++ d'), e.reads, ?_, rfl, h1, d', rfl, h3⟩
    have ht : ∀ r : List Byte, (w.bytes ++ r).take 64 = w.bytes := fun r => by rw [← hw]; simp
    have hd : ∀ r : List Byte, (w.bytes ++ r).drop 64 = r := fun r => by rw [← hw]; simp
    simp only [Env.srcRead, Window.ofBytes, List.flatMap_cons, List.append_assoc, ht, hd]
    rfl
  | stream id =>
    obtain ⟨h1, h2⟩ := h
    refine ⟨.stream id, ws.map ReadAnswer.window ++ reads', ?_, rfl, rfl, h2⟩
    simp only [List.map_cons, List.cons_append] at h1
    unfold Env.srcRead
    simp only [h1]
    rfl

theorem Source.gives_nil {src src' : Source} {reads reads' : List ReadAnswer} (h : src.gives reads [] src' reads') : src' = src ∧ reads' = reads := by
  cases src with
  | bytes d => obtain ⟨h1, d', rfl, h3⟩ := h; exact ⟨h3, h1⟩
  | stream id => obtain ⟨h1, h2⟩ := h; exact ⟨h2, h1.symm⟩

/-- A byte sequence of at least `n` windows gives `n` full ones (R77). -/
theorem Source.gives_bytes (n : Nat) (d : List Byte) (h : 64 * n ≤ d.length) :
    ∃ ws : List Window, ws.length = n ∧ (∀ w ∈ ws, w.bytes.length = 64) ∧ ∀ reads, (Source.bytes d).gives reads ws (.bytes (d.drop (64 * n))) reads := by
  induction n generalizing d with
  | zero => exact ⟨[], rfl, by simp, fun reads => ⟨rfl, d, rfl, rfl⟩⟩
  | succ n ih =>
    obtain ⟨ws, h1, h2, h3⟩ := ih (d.drop 64) (by rw [List.length_drop]; omega)
    refine ⟨Window.ofBytes d :: ws, by rw [List.length_cons, h1], ?_, fun reads => ?_⟩
    · intro w hw
      rcases List.mem_cons.mp hw with rfl | hw
      · rw [Window.ofBytes_bytes, List.length_take]; omega
      · exact h2 w hw
    · obtain ⟨-, d', h4, h5⟩ := h3 reads
      refine ⟨rfl, d', ?_, ?_⟩
      · rw [List.flatMap_cons, List.append_assoc, ← h4, Window.ofBytes_bytes, List.take_append_drop]
      · rw [← h5, List.drop_drop]; congr 2; omega

theorem windowRequests_succ (src : SourceName) (n : Nat) : windowRequests src (n + 1) = .srcRead src :: .cancelPoll :: windowRequests src n := rfl

/-- A FULL WINDOW AND THE POLL AFTER IT (R213, R216). -/
theorem digestBody_full (fuel : Nat) {src src' : Source} (c : Streaming) {e : Env} {w : Window} {ws : List Window} {reads' : List ReadAnswer}
    (h : src.gives e.reads (w :: ws) src' reads') (hw : w.bytes.length = 64) (hl : c.ctx.msglen.toNat + 64 ≤ Config.maxMsgBytes) :
    ∃ src1 reads1, digestBody fuel src c e = digestLoop fuel false src1 (c.fullWindow w) { e with reads := reads1, seen := .srcRead src.name :: e.seen } ∧
      src1.name = src.name ∧ src1.gives reads1 ws src' reads' ∧ (c.fullWindow w).ctx.msglen.toNat = c.ctx.msglen.toNat + 64 := by
  obtain ⟨src1, reads1, h1, h2, h3⟩ := Source.gives_cons h hw
  refine ⟨src1, reads1, ?_, h2, h3, ?_⟩
  · unfold digestBody
    simp only [h1]
    rw [if_neg (by omega), if_pos hw]
  · rw [Streaming.fullWindow_msglen, BitVec.toNat_add]
    have : c.ctx.msglen.toNat + 64 < 2 ^ 64 := by unfold Config.maxMsgBytes at hl; omega
    simp only [BitVec.toNat_ofNat]; omega

/-- FULL WINDOWS: while the source gives full windows and no poll asks to stop, the loop goes on (R213, R216). -/
theorem digestBody_windows (ws : List Window) (fuel : Nat) {src src' : Source} (c : Streaming) {e : Env} {reads' : List ReadAnswer}
    (hw : ∀ w ∈ ws, w.bytes.length = 64) (h : src.gives e.reads ws src' reads') (hp : e.continues ws.length)
    (hl : c.ctx.msglen.toNat + 64 * ws.length ≤ Config.maxMsgBytes) :
    ∃ c' : Streaming, digestBody (ws.length + fuel) src c e = digestBody fuel src' c'
        { e with reads := reads', polls := e.polls.drop ws.length, seen := (windowRequests src.name ws.length).reverse ++ e.seen } ∧
      c'.ctx.msglen.toNat = c.ctx.msglen.toNat + 64 * ws.length ∧ src'.name = src.name := by
  induction ws generalizing src c e with
  | nil =>
    obtain ⟨rfl, rfl⟩ := Source.gives_nil h
    refine ⟨c, ?_, by simp, rfl⟩
    simp [windowRequests]
  | cons w ws ih =>
    rw [List.length_cons] at hl
    obtain ⟨src1, reads1, h1, h2, h3, h4⟩ := digestBody_full (ws.length + fuel + 1) c h (hw w (by simp)) (by omega)
    have hp0 : ({ e with reads := reads1, seen := .srcRead src.name :: e.seen } : Env).pollAnswer 0 = false := hp 0 (by simp)
    obtain ⟨c', k1, k2, k3⟩ := ih (c := c.fullWindow w) (e := { e with reads := reads1, polls := e.polls.drop 1, seen := .cancelPoll :: .srcRead src.name :: e.seen })
      (fun v hv => hw v (by simp [hv])) h3
      (Env.continues_drop (n := 1) (m := ws.length) rfl rfl (by rw [Nat.add_comm]; exact hp)) (by rw [h4]; omega)
    refine ⟨c', ?_, by rw [k2, h4, List.length_cons]; omega, k3.trans h2⟩
    rw [show (w :: ws).length + fuel = ws.length + fuel + 1 by simp; omega, h1, digestLoop_goesOn _ _ _ _ hp0]
    refine Eq.trans k1 ?_
    simp [h2, windowRequests_succ]

/-- A read that fails after full windows (R215). -/
theorem digestBody_fails (fuel : Nat) (h : Word) (c : Streaming) {e : Env} {rest : List ReadAnswer} (hr : e.reads = .fail :: rest) :
    digestBody fuel (.stream h) c e = ⟨.failed .ioRead, c, { e with reads := rest, seen := .srcRead (.stream h) :: e.seen }⟩ := by
  unfold digestBody Env.srcRead
  simp only [hr]
  rfl

/-- A poll that asks to stop after full windows, the last of them `w` (R216). -/
theorem digestBody_cancelled (ws : List Window) (w : Window) (fuel : Nat) {src src' : Source} (c : Streaming) {e : Env} {reads' : List ReadAnswer}
    (hw : ∀ v ∈ ws ++ [w], v.bytes.length = 64) (h : src.gives e.reads (ws ++ [w]) src' reads') (hp : e.cancelsAt ws.length)
    (hl : c.ctx.msglen.toNat + 64 * (ws.length + 1) ≤ Config.maxMsgBytes) :
    ∃ c' : Streaming, digestBody (ws.length + 1 + fuel) src c e = ⟨.cancelled, c',
        { e with reads := reads', polls := e.polls.drop (ws.length + 1), seen := (windowRequests src.name (ws.length + 1)).reverse ++ e.seen }⟩ := by
  induction ws generalizing src c e with
  | nil =>
    obtain ⟨src1, reads1, h1, h2, h3, h4⟩ := digestBody_full (fuel + 1) c h (hw w (by simp)) (by simpa using hl)
    obtain ⟨rfl, rfl⟩ := Source.gives_nil h3
    have hp0 : ({ e with reads := reads', seen := .srcRead src.name :: e.seen } : Env).pollAnswer 0 = true := hp.2
    refine ⟨c.fullWindow w, ?_⟩
    rw [show ([] : List Window).length + 1 + fuel = fuel + 1 by simp; omega, h1, digestLoop_stops _ _ _ _ hp0]
    simp [windowRequests]
  | cons v ws ih =>
    rw [List.length_cons] at hl
    obtain ⟨src1, reads1, h1, h2, h3, h4⟩ := digestBody_full (ws.length + 1 + fuel + 1) c h (hw v (by simp)) (by omega)
    have hp0 : ({ e with reads := reads1, seen := .srcRead src.name :: e.seen } : Env).pollAnswer 0 = false := hp.1 0 (by simp)
    have hq : ({ e with reads := reads1, polls := e.polls.drop 1, seen := .cancelPoll :: .srcRead src.name :: e.seen } : Env).cancelsAt ws.length :=
      Env.cancelsAt_drop (e := e) (n := 1) rfl rfl (by rw [Nat.add_comm]; exact hp)
    obtain ⟨c', k1⟩ := ih (c := c.fullWindow v) (e := { e with reads := reads1, polls := e.polls.drop 1, seen := .cancelPoll :: .srcRead src.name :: e.seen })
      (fun x hx => hw x (by simp at hx ⊢; exact .inr hx)) h3 hq (by rw [h4]; omega)
    refine ⟨c', ?_⟩
    rw [show (v :: ws).length + 1 + fuel = ws.length + 1 + fuel + 1 by simp; omega, h1, digestLoop_goesOn _ _ _ _ hp0]
    refine Eq.trans k1 ?_
    simp [h2, windowRequests_succ]

/-- A window that would make the message longer than `MAX_MSG_BYTES` (R214). -/
theorem digestBody_tooLong (fuel : Nat) {src src' : Source} (c : Streaming) {e : Env} {w : Window} {reads' : List ReadAnswer}
    (h : src.gives e.reads [w] src' reads') (hw : w.bytes.length = 64) (hm : Config.maxMsgBytes < c.ctx.msglen.toNat + 64) :
    (digestBody fuel src c e).how = .refused .messageTooLong := by
  obtain ⟨src1, reads1, h1, -, -⟩ := Source.gives_cons h hw
  unfold digestBody
  simp only [h1]
  rw [if_pos (by omega)]

/-- The final window (R214). -/
theorem digestBody_short (fuel : Nat) (src : Source) (c : Streaming) (e : Env) (rest : List Byte) (n : Nat) (more : List ReadAnswer)
    (hfeed : src.feeds e.reads rest more) (hlt : rest.length < 64) (hlen : c.ctx.msglen.toNat + rest.length = n) (hn : n ≤ Config.maxMsgBytes) :
    let r := digestBody fuel src c e
    r.how = .done ∧ r.sc.ctx.h = (blocksOf (padRest rest n)).foldl Chain.compress c.ctx.h ∧
      r.env = { e with reads := more, polls := e.polls.drop (rest.length / 64), seen := (readRequests src.name rest.length).reverse ++ e.seen } := by
  obtain ⟨src1, reads1, hans, -, -, hshort⟩ := Source.feeds_read (e := e) hfeed
  have hmax : n < 2 ^ 61 := by unfold Config.maxMsgBytes at hn; omega
  unfold digestBody
  simp only [hans, Window.ofBytes_bytes, List.length_take]
  rw [if_neg (by omega), if_neg (by omega)]
  refine ⟨rfl, ?_, ?_⟩
  · rw [Streaming.finalWindow_h, padRest_short _ _ hlt, Window.ofBytes_bytes, List.take_of_length_le (by omega), ← pad_eq_blocksOf _ _ hlt]
    congr 2
    rw [BitVec.toNat_add]; simp; omega
  · rw [hshort hlt, readRequests, show rest.length / 64 = 0 by omega]
    simp [windowRequests]

/-- THE RUN OVER A MESSAGE (R211, R219): a source that delivers the rest of a message, with no poll that asks to stop, gives `Done`; `SC.H` holds
what compressing the blocks of the padded message in order gives, and the requests are those of R213, R214, R216. -/
theorem digestBody_done (fuel : Nat) (src : Source) (c : Streaming) (e : Env) (rest : List Byte) (n : Nat)
    (more : List ReadAnswer) (hp : e.continues (rest.length / 64)) (hfeed : src.feeds e.reads rest more)
    (hfuel : rest.length / 64 ≤ fuel) (hlen : c.ctx.msglen.toNat + rest.length = n) (hn : n ≤ Config.maxMsgBytes) :
    let r := digestBody fuel src c e
    r.how = .done ∧ r.sc.ctx.h = (blocksOf (padRest rest n)).foldl Chain.compress c.ctx.h ∧
      r.env = { e with reads := more, polls := e.polls.drop (rest.length / 64), seen := (readRequests src.name rest.length).reverse ++ e.seen } := by
  induction fuel generalizing src c e rest with
  | zero =>
    have hlt : rest.length < 64 := by omega
    exact digestBody_short 0 src c e rest n more hfeed hlt hlen hn
  | succ fuel ih =>
    by_cases hl : 64 ≤ rest.length
    · obtain ⟨src1, reads1, hans, hname, hfull, -⟩ := Source.feeds_read (e := e) hfeed
      have hmax : n < 2 ^ 61 := by unfold Config.maxMsgBytes at hn; omega
      have hm : (c.fullWindow (Window.ofBytes rest)).ctx.msglen.toNat = c.ctx.msglen.toNat + 64 := by
        rw [Streaming.fullWindow_msglen, BitVec.toNat_add]; simp; omega
      have hq : rest.length / 64 = (rest.drop 64).length / 64 + 1 := by simp; omega
      have hp0 : ({ e with reads := reads1, seen := .srcRead src.name :: e.seen } : Env).pollAnswer 0 = false := hp 0 (by omega)
      unfold digestBody
      simp only [hans, Window.ofBytes_bytes, List.length_take]
      rw [if_neg (by omega), if_pos (by omega), digestLoop_goesOn _ _ _ _ hp0]
      obtain ⟨g1, g2, g3⟩ := ih src1 (c.fullWindow (Window.ofBytes rest))
        { e with reads := reads1, polls := e.polls.drop 1, seen := .cancelPoll :: .srcRead src.name :: e.seen } (rest.drop 64)
        (Env.continues_drop (n := 1) (e := e) rfl rfl (by rw [hq, Nat.add_comm] at hp; exact hp)) (hfull hl) (by omega) (by rw [hm]; simp; omega)
      refine ⟨g1, ?_, ?_⟩
      · rw [g2, padRest_full _ _ hl, blocksOf_append _ _ (by simp; omega), List.foldl_cons, Streaming.fullWindow_h]
        rfl
      · rw [g3]
        simp only [hname, readRequests, hq, windowRequests_succ, List.drop_drop]
        simp [Nat.add_comm]
    · exact digestBody_short _ src c e rest n more hfeed (by omega) hlen hn

/-- The same for DIGEST_OF: the digest of the message (R171), and the whole environment after. -/
theorem digestOf_run (src : Source) (c : Streaming) (e : Env) (data : List Byte) (more : List ReadAnswer)
    (hp : e.continues (data.length / 64)) (hfeed : src.feeds e.reads data more) (hn : data.length ≤ Config.maxMsgBytes) :
    let r := digestOf src c e
    r.how = .done ∧ r.sc.ctx.h = digestOfMessage data ∧
      r.env = { e with reads := more, polls := e.polls.drop (data.length / 64), seen := (readRequests src.name data.length).reverse ++ e.seen } := by
  obtain ⟨fuel, hf, hfuel⟩ : ∃ fuel, digestFuel src e = fuel + 1 ∧ data.length / 64 ≤ fuel := by
    cases src with
    | bytes r => obtain ⟨rfl, -⟩ := hfeed; exact ⟨_, rfl, le_refl _⟩
    | stream h =>
      have : e.reads.length = data.length / 64 + 1 + more.length := by
        rw [show e.reads = windowsOf data ++ more from hfeed, List.length_append, length_windowsOf]
      exact ⟨e.reads.length + e.polls.length + 1, rfl, by omega⟩
  unfold digestOf
  rw [hf, digestLoop_first]
  have := digestBody_done fuel src c.start e data data.length more hp hfeed hfuel (by rw [Streaming.start_msglen]; simp) hn
  rwa [← padMsg_eq_padRest, Streaming.start_h] at this

/-- In an environment that never cancels. -/
theorem digestOf_done (src : Source) (c : Streaming) (e : Env) (data : List Byte) (more : List ReadAnswer)
    (hcancel : e.neverCancels) (hfeed : src.feeds e.reads data more) (hn : data.length ≤ Config.maxMsgBytes) :
    let r := digestOf src c e
    r.how = .done ∧ r.sc.ctx.h = digestOfMessage data ∧ r.env.neverCancels ∧ r.env.reads = more := by
  obtain ⟨h1, h2, h3⟩ := digestOf_run src c e data more (Env.neverCancels_continues hcancel _) hfeed hn
  refine ⟨h1, h2, ?_, by rw [h3]⟩
  rw [h3]
  exact ⟨fun p hp => hcancel.1 p (List.mem_of_mem_drop hp), hcancel.2⟩

/-- A stream that fails after full windows (R215), and one told to stop after full windows (R216): the ends of DIGEST_OF that deliver nothing. -/
theorem digestOf_fails (h : Word) (c : Streaming) (e : Env) (ws : List Window) (rest : List ReadAnswer) (hw : ∀ w ∈ ws, w.bytes.length = 64)
    (hr : e.reads = ws.map ReadAnswer.window ++ .fail :: rest) (hp : e.continues ws.length) (hl : 64 * ws.length ≤ Config.maxMsgBytes) :
    ∃ c' : Streaming, digestOf (.stream h) c e = ⟨.failed .ioRead, c',
      { e with reads := rest, polls := e.polls.drop ws.length,
               seen := Request.srcRead (.stream h) :: ((windowRequests (.stream h) ws.length).reverse ++ e.seen) }⟩ := by
  unfold digestOf
  rw [show digestFuel (.stream h) e = ws.length + (rest.length + e.polls.length + 2) + 1 by simp only [digestFuel, hr]; simp; omega, digestLoop_first]
  obtain ⟨c', k1, -⟩ := digestBody_windows ws (rest.length + e.polls.length + 2) (src := .stream h) (src' := .stream h) c.start (e := e)
    (reads' := .fail :: rest) hw ⟨hr, rfl⟩ hp (by rw [Streaming.start_msglen]; simpa using hl)
  rw [k1, digestBody_fails (rest := rest) _ _ _ rfl]
  exact ⟨c', by simp [Source.name]⟩

theorem digestOf_cancelled (src src' : Source) (c : Streaming) (e : Env) (ws : List Window) (w : Window) (reads' : List ReadAnswer)
    (hw : ∀ v ∈ ws ++ [w], v.bytes.length = 64) (hgives : src.gives e.reads (ws ++ [w]) src' reads') (hp : e.cancelsAt ws.length)
    (hl : 64 * (ws.length + 1) ≤ Config.maxMsgBytes) :
    ∃ c' : Streaming, digestOf src c e = ⟨.cancelled, c',
      { e with reads := reads', polls := e.polls.drop (ws.length + 1), seen := (windowRequests src.name (ws.length + 1)).reverse ++ e.seen }⟩ := by
  obtain ⟨fuel, hf⟩ : ∃ fuel, digestFuel src e = ws.length + 1 + fuel + 1 := by
    cases src with
    | bytes d =>
      obtain ⟨-, d', rfl, -⟩ := hgives
      have : ((ws ++ [w]).flatMap Window.bytes).length = 64 * (ws.length + 1) := by
        rw [List.length_flatMap, List.map_congr_left (g := fun _ => 64) hw]; simp; omega
      exact ⟨d'.length / 64, by simp only [digestFuel, List.length_append, this]; omega⟩
    | stream h =>
      obtain ⟨hr, -⟩ := hgives
      exact ⟨reads'.length + e.polls.length + 1, by simp only [digestFuel, hr, List.length_append, List.length_map, List.length_singleton]; omega⟩
  unfold digestOf
  rw [hf, digestLoop_first]
  exact digestBody_cancelled ws w fuel c.start hw hgives hp (by rw [Streaming.start_msglen]; simpa using hl)

/-- A source that gives windows, the last of which would make the message longer than `MAX_MSG_BYTES`, with no poll before it that asks to stop (R214). -/
theorem digestOf_tooLong (src src' src'' : Source) (c : Streaming) (e : Env) (ws : List Window) (w : Window) (reads' reads'' : List ReadAnswer)
    (hw : ∀ v ∈ ws ++ [w], v.bytes.length = 64) (hgives : src.gives e.reads ws src' reads') (hlast : src'.gives reads' [w] src'' reads'')
    (hp : e.continues ws.length) (hl : 64 * ws.length ≤ Config.maxMsgBytes) (hm : Config.maxMsgBytes < 64 * ws.length + 64) :
    (digestOf src c e).how = .refused .messageTooLong := by
  obtain ⟨fuel, hf⟩ : ∃ fuel, digestFuel src e = ws.length + fuel + 1 := by
    cases src with
    | bytes d =>
      obtain ⟨-, d', rfl, -⟩ := hgives
      have : (ws.flatMap Window.bytes).length = 64 * ws.length := by
        rw [List.length_flatMap, List.map_congr_left (g := fun _ => 64) fun v hv => hw v (by simp [hv])]; simp; omega
      exact ⟨d'.length / 64, by simp only [digestFuel, List.length_append, this]; omega⟩
    | stream h =>
      obtain ⟨hr, -⟩ := hgives
      exact ⟨reads'.length + e.polls.length + 1, by simp only [digestFuel, hr, List.length_append, List.length_map]; omega⟩
  unfold digestOf
  rw [hf, digestLoop_first]
  obtain ⟨c', k1, k2, -⟩ := digestBody_windows ws fuel c.start (fun v hv => hw v (by simp [hv])) hgives hp (by rw [Streaming.start_msglen]; simpa using hl)
  rw [k1]
  refine digestBody_tooLong (src := src') (src' := src'') (reads' := reads'') fuel c' hlast (hw w (by simp)) ?_
  rw [k2, Streaming.start_msglen]
  simpa using hm

end Sys2Proof.Machine
end

