-- ==== Sys2Proof/Laws/Directory.lean ====
section
/-! SUPPORT. The laws of the directory sequencer: the walk, the key order and the sort, and the run over the sorted files (R240 to R252). -/

namespace Sys2Proof.Machine

/-! ## One file -/

/-- What `HASHF` and each file of `HASHD` ask: one open; if it is answered with a handle, reads of that handle and polls, then one close
of that handle (R218). -/
theorem digestFile_env (id : Word) (c : Streaming) (e : Env) :
    (digestFile id c e).env.opens = e.opens.tail ∧ (digestFile id c e).env.scans = e.scans ∧
      (digestFile id c e).env.later = e.later ∧
      match e.opens.headD e.later.opened with
      | .opened h => ∃ mid, (digestFile id c e).env.seen = .envClose h :: (mid ++ .envOpen id :: e.seen) ∧
          ∀ r ∈ mid, r = .cancelPoll ∨ r = .srcRead (.stream h)
      | .notFound => digestFile id c e = ⟨.failed .ioNotFound, c, (e.openFile id).2⟩
      | .fail => digestFile id c e = ⟨.failed .ioOpen, c, (e.openFile id).2⟩ := by
  unfold digestFile
  simp only [Env.openFile_answer]
  cases e.opens.headD e.later.opened with
  | notFound => simp
  | fail => simp
  | opened h =>
    obtain ⟨h1, h2, h3, mid, h4, h5⟩ := digestLoop_env (digestFuel (.stream h) (e.openFile id).2) true (.stream h) c.start
      (e.openFile id).2
    refine ⟨by simpa [digestOf] using h1, by simpa [digestOf] using h2, by simpa [digestOf] using h3, mid, ?_, h5⟩
    simp [digestOf, h4]

/-- A file that opens: its digest, and one close (R217, R218). -/
theorem digestFile_opened (id h : Word) (c : Streaming) (e : Env) (hopen : e.opens.headD e.later.opened = .opened h) :
    digestFile id c e =
      let r := digestOf (.stream h) c { e with opens := e.opens.tail, seen := .envOpen id :: e.seen }
      { r with env := r.env.close h } := by
  have he : (e.openFile id).2 = { e with opens := e.opens.tail, seen := .envOpen id :: e.seen } := by
    unfold Env.openFile; cases ho : e.opens <;> simp [Env.see, ho]
  unfold digestFile
  simp only [Env.openFile_answer, hopen, he]

/-- A file that opens and delivers a message is digested (R217), with the requests of R217 and R218. -/
theorem digestFile_run (id h : Word) (c : Streaming) (e : Env) (data : List Byte) (more : List ReadAnswer)
    (hopen : e.opens.headD e.later.opened = .opened h) (hp : e.continues (data.length / 64)) (hreads : e.reads = windowsOf data ++ more)
    (hn : data.length ≤ Config.maxMsgBytes) :
    let r := digestFile id c e
    r.how = .done ∧ r.sc.ctx.h = digestOfMessage data ∧
      r.env = { e with reads := more, opens := e.opens.tail, polls := e.polls.drop (data.length / 64),
                       seen := (fileRequests id h data.length).reverse ++ e.seen } := by
  rw [digestFile_opened id h c e hopen]
  obtain ⟨h1, h2, h3⟩ := digestOf_run (.stream h) c { e with opens := e.opens.tail, seen := .envOpen id :: e.seen } data more hp hreads hn
  refine ⟨h1, h2, ?_⟩
  show Env.close h _ = _
  rw [h3]
  simp [Env.close, Env.see, fileRequests, Source.name]

/-! ## The walk -/

@[simp] theorem Directory.enter_ent (d : Directory) (sep pre : List Byte) (l : List Entry) :
    (d.enter sep pre l).ent = d.ent ++ fileEntries pre l := rfl
@[simp] theorem Directory.enter_work (d : Directory) (sep pre : List Byte) (l : List Entry) :
    (d.enter sep pre l).work = dirEntries sep pre l ++ d.work := rfl
@[simp] theorem Directory.enter_hexcat (d : Directory) (sep pre : List Byte) (l : List Entry) :
    (d.enter sep pre l).hexcat = d.hexcat := rfl

/-- The number of subdirectories does not depend on keys. -/
theorem length_dirEntries (sep pre : List Byte) (l : List Entry) :
    (dirEntries sep pre l).length = (l.countP fun e => e.kind = .dir) := by
  induction l with
  | nil => rfl
  | cons e l ih => by_cases h : e.kind = .dir <;> simp_all [dirEntries]

/-- The walk asks for scans only, and changes nothing of `SC`, `HEXCAT` or the other answers. -/
theorem walkLoop_env (p : Params) (c : Streaming) (fuel : Nat) (d : Directory) (e : Env) :
    (walkLoop p c fuel d e).sc = c ∧ (walkLoop p c fuel d e).dd.hexcat = d.hexcat ∧
      (walkLoop p c fuel d e).env.reads = e.reads ∧ (walkLoop p c fuel d e).env.opens = e.opens ∧
      (walkLoop p c fuel d e).env.polls = e.polls ∧ (walkLoop p c fuel d e).env.later = e.later := by
  induction fuel generalizing d e with
  | zero => simp [walkLoop]
  | succ fuel ih =>
    unfold walkLoop
    rcases hw : d.work with _ | ⟨⟨pre, id⟩, rest⟩
    · simp
    · simp only
      cases (e.scan id).1 with
      | notDir => simp
      | fail => simp
      | entries l =>
        simp only
        split
        · obtain ⟨h1, h2, h3, h4, h5, h6⟩ := ih ({ d with work := rest }.enter p.pathSep pre l) (e.scan id).2
          exact ⟨h1, by simpa using h2, by simpa using h3, by simpa using h4, by simpa using h5, by simpa using h6⟩
        · simp

/-- A walk that ends `Done` has nothing left to scan. -/
theorem walkLoop_done_work (p : Params) (c : Streaming) (fuel : Nat) (d : Directory) (e : Env)
    (h : (walkLoop p c fuel d e).how = .done) : (walkLoop p c fuel d e).dd.work = [] := by
  induction fuel generalizing d e with
  | zero => simp [walkLoop] at h
  | succ fuel ih =>
    unfold walkLoop at h ⊢
    rcases hw : d.work with _ | ⟨⟨pre, id⟩, rest⟩
    · simp [hw]
    · rw [hw] at h
      simp only at h ⊢
      revert h
      cases (e.scan id).1 with
      | notDir => simp
      | fail => simp
      | entries l =>
        simp only
        split
        · exact fun h => ih _ _ h
        · simp

/-- A finite tree is walked to its end: with as many listed answers as directories are presented, all of them `Entries`, and an unbounded
table, the walk ends `Done` (R243). -/
theorem walkLoop_finite (p : Params) (c : Streaming) (fuel : Nat) (d : Directory) (e : Env)
    (hcap : p.dirMaxEntries = none) (hall : ∀ a ∈ e.scans, ∃ l, a = .entries l)
    (htree : d.work.length + (e.scans.map ScanAnswer.dirs).sum ≤ e.scans.length)
    (hfuel : d.work.length + (e.scans.map ScanAnswer.dirs).sum + 1 ≤ fuel) :
    (walkLoop p c fuel d e).how = .done := by
  induction fuel generalizing d e with
  | zero => omega
  | succ fuel ih =>
    unfold walkLoop
    rcases hw : d.work with _ | ⟨⟨pre, id⟩, rest⟩
    · rfl
    · rw [hw, List.length_cons] at htree hfuel
      rcases hs : e.scans with _ | ⟨a, as⟩
      · rw [hs] at htree; simp at htree
      · obtain ⟨l, rfl⟩ := hall a (by simp [hs])
        rw [hs, List.map_cons, List.sum_cons, List.length_cons] at htree
        rw [hs, List.map_cons, List.sum_cons] at hfuel
        have hd : (dirEntries p.pathSep pre l).length = (ScanAnswer.entries l).dirs := by
          simp only [ScanAnswer.dirs, length_dirEntries]
        simp only [Env.scan_answer, hs, List.headD_cons]
        rw [if_pos (by simp [Directory.fits, hcap])]
        apply ih
        · intro b hb
          exact hall b (by rw [hs]; exact List.mem_cons_of_mem _ (by simpa [hs] using hb))
        · simp only [Directory.enter_work, List.length_append, hd, Env.scan_scans, hs, List.tail_cons]; omega
        · simp only [Directory.enter_work, List.length_append, hd, Env.scan_scans, hs, List.tail_cons]; omega

/-- The enumeration asks for scans only. -/
theorem enumerate_env (p : Params) (root : Word) (c : Streaming) (e : Env) :
    (enumerate p root c e).sc = c ∧ (enumerate p root c e).dd.hexcat = [] ∧ (enumerate p root c e).env.reads = e.reads ∧
      (enumerate p root c e).env.opens = e.opens ∧ (enumerate p root c e).env.polls = e.polls ∧
      (enumerate p root c e).env.later = e.later := by
  unfold enumerate
  dsimp only
  cases (e.scan root).1 with
  | notDir => simp [Directory.empty]
  | fail => simp [Directory.empty]
  | entries l =>
    simp only
    split
    · obtain ⟨h1, h2, h3, h4, h5, h6⟩ := walkLoop_env p c (walkFuel (Directory.empty.enter p.pathSep [] l) (e.scan root).2)
        (Directory.empty.enter p.pathSep [] l) (e.scan root).2
      exact ⟨h1, by simpa [Directory.empty] using h2, by simpa using h3, by simpa using h4, by simpa using h5, by simpa using h6⟩
    · simp [Directory.empty]

/-! ## The walk over a finite tree -/

theorem Directory.fits_iff (d : Directory) (p : Params) : d.fits p = true ↔ tableHolds p d.ent.length := by
  unfold Directory.fits tableHolds
  cases p.dirMaxEntries <;> simp

theorem tableHolds_mono {p : Params} {m n : Nat} (h : tableHolds p n) (hm : m ≤ n) : tableHolds p m := fun cap hc => hm.trans (h cap hc)

/-- The subdirectories of a directory, each with its key prefix, its identifier and its content. -/
def Forest.subs (sep pre : List Byte) : Forest → List (List Byte × Word × Forest)
  | .nil => []
  | .file _ _ r => r.subs sep pre
  | .other _ _ r => r.subs sep pre
  | .dir n i c r => (pre ++ n ++ sep, i, c) :: r.subs sep pre

theorem Forest.dirEntries_entries (sep pre : List Byte) (f : Forest) :
    dirEntries sep pre f.entries = (f.subs sep pre).map fun x => (x.1, x.2.1) := by
  induction f with
  | nil => rfl
  | file n i r ih => simpa [dirEntries, Forest.entries, Forest.subs] using ih
  | other n i r ih => simpa [dirEntries, Forest.entries, Forest.subs] using ih
  | dir n i c r _ ih => simpa [dirEntries, Forest.entries, Forest.subs] using ih

theorem Forest.answers_subs (sep pre : List Byte) (f : Forest) : f.answers = (f.subs sep pre).flatMap fun x => x.2.2.scans := by
  induction f with
  | nil => rfl
  | file n i r ih => simpa [Forest.answers, Forest.subs] using ih
  | other n i r ih => simpa [Forest.answers, Forest.subs] using ih
  | dir n i c r _ ih => simp [Forest.answers, Forest.subs, Forest.scans, ih]

theorem Forest.dirs_subs (sep pre : List Byte) (f : Forest) : f.dirs = (f.subs sep pre).flatMap fun x => x.2.1 :: x.2.2.dirs := by
  induction f with
  | nil => rfl
  | file n i r ih => simpa [Forest.dirs, Forest.subs] using ih
  | other n i r ih => simpa [Forest.dirs, Forest.subs] using ih
  | dir n i c r _ ih => simp [Forest.dirs, Forest.subs, ih]

/-- The files of a tree: those of the directory itself, then those below each subdirectory. -/
theorem Forest.files_subs (sep pre : List Byte) (f : Forest) :
    (f.files sep pre).Perm (fileEntries pre f.entries ++ (f.subs sep pre).flatMap fun x => x.2.2.files sep x.1) := by
  induction f with
  | nil => exact .refl _
  | file n i r ih => simpa [Forest.files, fileEntries, Forest.entries, Forest.subs] using ih
  | other n i r ih => simpa [Forest.files, fileEntries, Forest.entries, Forest.subs] using ih
  | dir n i c r _ ih =>
    simp only [Forest.files, Forest.subs, List.flatMap_cons]
    have hf : fileEntries pre (Forest.dir n i c r).entries = fileEntries pre r.entries := by simp [fileEntries, Forest.entries]
    rw [hf]
    exact (ih.append_left _).trans (by
      rw [← List.append_assoc, ← List.append_assoc]
      exact List.perm_append_comm.append_right _)

/-- A tree presents as many subdirectories as it has directories below its root. -/
theorem Forest.presented (f : Forest) : (f.entries.countP fun e => e.kind = .dir) + (f.answers.map ScanAnswer.dirs).sum = f.dirs.length := by
  induction f with
  | nil => rfl
  | file n i r ih => simpa [Forest.entries, Forest.answers, Forest.dirs] using ih
  | other n i r ih => simpa [Forest.entries, Forest.answers, Forest.dirs] using ih
  | dir n i c r ihc ihr =>
    have hd : (dirEntries [] [] c.entries).length = c.entries.countP fun e => e.kind = .dir := length_dirEntries _ _ _
    simp only [Forest.entries, Forest.answers, Forest.dirs, List.map_cons, List.map_append, List.sum_cons, List.sum_append, List.length_cons,
      List.length_append, ScanAnswer.dirs, hd, ← ihc, ← ihr, List.countP_cons]
    simp only [decide_true, if_true]; omega

/-- THE WALK OVER FINITE TREES (R243 to R245): with the answers for the directories of the work list, in the order the walk asks, every file goes into the
table once, under its key, every directory is scanned once, and the command is refused exactly if the table cannot hold the files. -/
theorem walkLoop_forest (p : Params) (c : Streaming) (fuel : Nat) (d : Directory) (e : Env) (ws : List (List Byte × Word × Forest))
    (more : List ScanAnswer) (hwork : d.work = ws.map fun x => (x.1, x.2.1)) (hscans : e.scans = (ws.flatMap fun x => x.2.2.scans) ++ more)
    (hfuel : (ws.flatMap fun x => x.2.1 :: x.2.2.dirs).length + 1 ≤ fuel) :
    (tableHolds p (d.ent.length + (ws.flatMap fun x => x.2.2.files p.pathSep x.1).length) →
      ∃ ent, ent.Perm (d.ent ++ ws.flatMap fun x => x.2.2.files p.pathSep x.1) ∧ walkLoop p c fuel d e =
        ⟨.done, c, { d with ent := ent, work := [] },
          { e with scans := more, seen := ((ws.flatMap fun x => x.2.1 :: x.2.2.dirs).map Request.envScan).reverse ++ e.seen }⟩) ∧
    (¬ tableHolds p (d.ent.length + (ws.flatMap fun x => x.2.2.files p.pathSep x.1).length) → d.fits p = true →
      (walkLoop p c fuel d e).how = .refused .dirTooLarge) := by
  induction fuel generalizing d e ws with
  | zero => omega
  | succ fuel ih =>
    rcases ws with _ | ⟨⟨pre, id, f⟩, ws⟩
    · have hw : d.work = [] := hwork
      simp only [List.flatMap_nil, List.nil_append] at hscans
      subst hscans
      unfold walkLoop
      refine ⟨fun _ => ⟨d.ent, by simp, ?_⟩, fun hn hf => absurd ((Directory.fits_iff d p).mp hf) (by simpa using hn)⟩
      simp only [hw]
      rw [← hw]; rfl
    · have hw : d.work = (pre, id) :: ws.map fun x => (x.1, x.2.1) := hwork
      have hs : e.scans = .entries f.entries :: ((f.subs p.pathSep pre ++ ws).flatMap (fun x => x.2.2.scans) ++ more) := by
        rw [hscans, List.flatMap_cons, List.flatMap_append, ← Forest.answers_subs]
        simp [Forest.scans]
      have hperm := Forest.files_subs p.pathSep pre f
      have hlen : (f.files p.pathSep pre).length =
          (fileEntries pre f.entries).length + ((f.subs p.pathSep pre).flatMap fun x => x.2.2.files p.pathSep x.1).length := by
        rw [hperm.length_eq, List.length_append]
      have hscan : (e.scan id).2 = { e with scans := (f.subs p.pathSep pre ++ ws).flatMap (fun x => x.2.2.scans) ++ more, seen := .envScan id :: e.seen } := by
        unfold Env.scan; simp only [hs]; rfl
      have hdirs : ((f.subs p.pathSep pre ++ ws).flatMap fun x => x.2.1 :: x.2.2.dirs) = f.dirs ++ ws.flatMap fun x => x.2.1 :: x.2.2.dirs := by
        rw [List.flatMap_append, ← Forest.dirs_subs]
      have hfuel' : ((f.subs p.pathSep pre ++ ws).flatMap fun x => x.2.1 :: x.2.2.dirs).length + 1 ≤ fuel := by
        rw [hdirs]
        simp only [List.flatMap_cons, List.length_append, List.length_cons] at hfuel ⊢
        omega
      obtain ⟨k1, k2⟩ := ih ({ d with work := ws.map fun x : List Byte × Word × Forest => (x.1, x.2.1) }.enter p.pathSep pre f.entries) (e.scan id).2 (f.subs p.pathSep pre ++ ws)
        (by rw [Directory.enter_work, Forest.dirEntries_entries, List.map_append]) (by rw [hscan]) hfuel'
      have hsum : ({ d with work := ws.map fun x : List Byte × Word × Forest => (x.1, x.2.1) }.enter p.pathSep pre f.entries).ent.length +
          ((f.subs p.pathSep pre ++ ws).flatMap fun x => x.2.2.files p.pathSep x.1).length =
          d.ent.length + (((pre, id, f) :: ws).flatMap fun x => x.2.2.files p.pathSep x.1).length := by
        simp only [Directory.enter_ent, List.length_append, List.flatMap_append, List.flatMap_cons, hlen]; omega
      rw [hsum] at k1 k2
      unfold walkLoop
      simp only [hw, Env.scan_answer, hs, List.headD_cons]
      constructor
      · intro hh
        rw [if_pos ((Directory.fits_iff _ p).mpr (tableHolds_mono hh (by rw [← hsum]; omega)))]
        obtain ⟨ent, h1, h2⟩ := k1 hh
        refine ⟨ent, h1.trans ?_, h2.trans ?_⟩
        · simp only [Directory.enter_ent, List.flatMap_append, List.flatMap_cons, List.append_assoc]
          refine List.Perm.append_left _ ?_
          rw [← List.append_assoc]
          exact hperm.symm.append_right _
        · rw [hscan, hdirs]
          simp [Directory.enter]
      · intro hh hf
        split
        · rename_i hfit
          exact k2 hh hfit
        · rfl

/-- THE ENUMERATION OF A FINITE TREE (R240 part 1, R242 to R245). -/
theorem enumerate_forest (p : Params) (root : Word) (c : Streaming) (e : Env) (f : Forest) (more : List ScanAnswer) (hscans : e.scans = f.scans ++ more) :
    (tableHolds p (f.files p.pathSep []).length → ∃ ent, ent.Perm (f.files p.pathSep []) ∧ enumerate p root c e =
      ⟨.done, c, { Directory.empty with ent := ent },
        { e with scans := more, seen := ((root :: f.dirs).map Request.envScan).reverse ++ e.seen }⟩) ∧
    (¬ tableHolds p (f.files p.pathSep []).length → (enumerate p root c e).how = .refused .dirTooLarge) := by
  have hs : e.scans = .entries f.entries :: (f.answers ++ more) := hscans
  have hscan : (e.scan root).2 = { e with scans := f.answers ++ more, seen := .envScan root :: e.seen } := by
    unfold Env.scan; simp only [hs]; rfl
  have hperm := Forest.files_subs p.pathSep [] f
  have hlen := hperm.length_eq
  rw [List.length_append] at hlen
  have hfuel : ((f.subs p.pathSep []).flatMap fun x => x.2.1 :: x.2.2.dirs).length + 1 ≤
      walkFuel (Directory.empty.enter p.pathSep [] f.entries) (e.scan root).2 := by
    rw [← Forest.dirs_subs, ← Forest.presented, walkFuel, hscan, Directory.enter_work, List.length_append, length_dirEntries]
    simp only [List.map_append, List.sum_append]; omega
  obtain ⟨k1, k2⟩ := walkLoop_forest p c _ (Directory.empty.enter p.pathSep [] f.entries) (e.scan root).2 (f.subs p.pathSep []) more
    (by rw [Directory.enter_work, Forest.dirEntries_entries]; simp [Directory.empty]) (by rw [hscan, ← Forest.answers_subs]) hfuel
  have hsum : (Directory.empty.enter p.pathSep [] f.entries).ent.length + ((f.subs p.pathSep []).flatMap fun x => x.2.2.files p.pathSep x.1).length =
      (f.files p.pathSep []).length := by
    rw [Directory.enter_ent, List.length_append, hlen]; simp [Directory.empty]
  rw [hsum] at k1 k2
  unfold enumerate
  simp only [Env.scan_answer, hs, List.headD_cons]
  constructor
  · intro hh
    rw [if_pos ((Directory.fits_iff _ p).mpr (tableHolds_mono hh (by rw [← hsum]; omega)))]
    obtain ⟨ent, h1, h2⟩ := k1 hh
    refine ⟨ent, h1.trans ?_, h2.trans ?_⟩
    · rw [Directory.enter_ent, show Directory.empty.ent = [] from rfl, List.nil_append]
      exact hperm.symm
    · rw [hscan, ← Forest.dirs_subs]
      simp [Directory.enter, Directory.empty]
  · intro hh
    split
    · rename_i hfit
      exact k2 hh hfit
    · rfl

/-! ## The key order -/

theorem keyLe_refl (x : List Byte) : keyLe x x = true := by
  induction x with
  | nil => rfl
  | cons a x ih => simp [keyLe, ih]

theorem keyLe_total (x y : List Byte) : keyLe x y = true ∨ keyLe y x = true := by
  induction x generalizing y with
  | nil => exact .inl rfl
  | cons a x ih =>
    cases y with
    | nil => exact .inr rfl
    | cons b y =>
      simp only [keyLe, Bool.or_eq_true, Bool.and_eq_true, decide_eq_true_eq, beq_iff_eq]
      rcases lt_trichotomy a.toNat b.toNat with h | h | h
      · exact .inl (.inl h)
      · have hab : a = b := BitVec.eq_of_toNat_eq h
        subst hab
        rcases ih y with h | h
        · exact .inl (.inr ⟨rfl, h⟩)
        · exact .inr (.inr ⟨rfl, h⟩)
      · exact .inr (.inl h)

theorem keyLe_trans {x y z : List Byte} (h1 : keyLe x y = true) (h2 : keyLe y z = true) : keyLe x z = true := by
  induction x generalizing y z with
  | nil => rfl
  | cons a x ih =>
    cases y with
    | nil => simp [keyLe] at h1
    | cons b y =>
      cases z with
      | nil => simp [keyLe] at h2
      | cons d z =>
        simp only [keyLe, Bool.or_eq_true, Bool.and_eq_true, decide_eq_true_eq, beq_iff_eq] at *
        rcases h1 with h1 | ⟨rfl, h1⟩ <;> rcases h2 with h2 | ⟨rfl, h2⟩
        · exact .inl (h1.trans h2)
        · exact .inl h1
        · exact .inl h2
        · exact .inr ⟨rfl, ih h1 h2⟩

theorem keyLe_antisymm {x y : List Byte} (h1 : keyLe x y = true) (h2 : keyLe y x = true) : x = y := by
  induction x generalizing y with
  | nil => cases y with
    | nil => rfl
    | cons b y => simp [keyLe] at h2
  | cons a x ih =>
    cases y with
    | nil => simp [keyLe] at h1
    | cons b y =>
      simp only [keyLe, Bool.or_eq_true, Bool.and_eq_true, decide_eq_true_eq, beq_iff_eq] at *
      rcases h1 with h1 | ⟨rfl, h1⟩ <;> rcases h2 with h2 | ⟨h2e, h2⟩
      · omega
      · subst h2e; omega
      · omega
      · rw [ih h1 h2]

theorem sortEntries_perm (l : List (List Byte × Word)) : (sortEntries l).Perm l :=
  List.perm_insertionSort _ l

/-! ## The files -/

/-- What is left of `HASHD` when the walk, the sort and the poll before the next open or before the final digest are done (R249 to R252): the files still to
come, each followed by a poll, then the digest of `HEXCAT`. -/
def filesTail : List (List Byte × Word) → Streaming → Directory → Env → DirRun
  | [], c, d, e => ⟨(digestOf (.bytes d.hexcat) c e).how, (digestOf (.bytes d.hexcat) c e).sc, d, (digestOf (.bytes d.hexcat) c e).env⟩
  | (_, id) :: rest, c, d, e =>
    match (digestFile id c e).how with
    | .done =>
      let d' := { d with hexcat := d.hexcat ++ render (digestFile id c e).sc.ctx.h }
      if (digestFile id c e).env.cancelPoll.1 then ⟨.cancelled, (digestFile id c e).sc, d', (digestFile id c e).env.cancelPoll.2⟩
      else filesTail rest (digestFile id c e).sc d' (digestFile id c e).env.cancelPoll.2
    | .failed x => ⟨.failed x, (digestFile id c e).sc, d, (digestFile id c e).env⟩
    | .cancelled => ⟨.cancelled, (digestFile id c e).sc, d, (digestFile id c e).env⟩
    | .endless => ⟨.endless, (digestFile id c e).sc, d, (digestFile id c e).env⟩
    | .refused x => ⟨.refused x, (digestFile id c e).sc, d, (digestFile id c e).env⟩

/-- Parts 4 and 5 of R240. -/
def filesThenHexcat (ents : List (List Byte × Word)) (first : Bool) (c : Streaming) (d : Directory) (e : Env) : DirRun :=
  match (hashFiles ents first c d e).how with
  | .done => digestHexcat (hashFiles ents first c d e).sc (hashFiles ents first c d e).dd (hashFiles ents first c d e).env
  | .failed _ => hashFiles ents first c d e
  | .cancelled => hashFiles ents first c d e
  | .endless => hashFiles ents first c d e
  | .refused _ => hashFiles ents first c d e

/-- Between files there is a poll, and after the last one another, when there was a file (R250). -/
theorem filesThenHexcat_poll (ents : List (List Byte × Word)) (c : Streaming) (d : Directory) (e : Env) (hd : d.ent ≠ []) :
    filesThenHexcat ents false c d e =
      if e.cancelPoll.1 then ⟨.cancelled, c, d, e.cancelPoll.2⟩ else filesTail ents c d e.cancelPoll.2 := by
  induction ents generalizing c d e with
  | nil =>
    have hi : d.ent.isEmpty = false := by simpa using hd
    simp only [filesThenHexcat, hashFiles, digestHexcat, hi, Bool.false_eq_true, if_false, filesTail]
  | cons x ents ih =>
    obtain ⟨key, id⟩ := x
    cases hstop : e.cancelPoll.1 with
    | true => simp only [filesThenHexcat, hashFiles, hstop, Bool.false_eq_true, if_false, if_true]
    | false =>
      simp only [Bool.false_eq_true, if_false, filesTail]
      cases hf : (digestFile id c e.cancelPoll.2).how with
      | done =>
        have := ih (digestFile id c e.cancelPoll.2).sc { d with hexcat := d.hexcat ++ render (digestFile id c e.cancelPoll.2).sc.ctx.h }
          (digestFile id c e.cancelPoll.2).env hd
        simp only [filesThenHexcat, hashFiles, hstop, Bool.false_eq_true, if_false, hf] at this ⊢
        exact this
      | failed x => simp only [filesThenHexcat, hashFiles, hstop, Bool.false_eq_true, if_false, hf]
      | cancelled => simp only [filesThenHexcat, hashFiles, hstop, Bool.false_eq_true, if_false, hf]
      | endless => simp only [filesThenHexcat, hashFiles, hstop, Bool.false_eq_true, if_false, hf]
      | refused x => simp only [filesThenHexcat, hashFiles, hstop, Bool.false_eq_true, if_false, hf]

/-- The first file has no poll before it, and neither has the final digest when there is no file (R250). -/
theorem filesThenHexcat_first (ents : List (List Byte × Word)) (c : Streaming) (d : Directory) (e : Env) (hd : d.ent = [] ↔ ents = []) :
    filesThenHexcat ents true c d e = filesTail ents c d e := by
  cases ents with
  | nil =>
    have hi : d.ent.isEmpty = true := by simpa using hd.mpr rfl
    simp only [filesThenHexcat, hashFiles, digestHexcat, hi, Bool.false_eq_true, if_true, if_false, filesTail]
  | cons x ents =>
    obtain ⟨key, id⟩ := x
    have hne : d.ent ≠ [] := fun h => by simpa using hd.mp h
    simp only [filesTail]
    cases hf : (digestFile id c e).how with
    | done =>
      have := filesThenHexcat_poll ents (digestFile id c e).sc { d with hexcat := d.hexcat ++ render (digestFile id c e).sc.ctx.h }
        (digestFile id c e).env hne
      simp only [filesThenHexcat, hashFiles, Bool.false_eq_true, if_false, if_true, hf] at this ⊢
      exact this
    | failed x => simp only [filesThenHexcat, hashFiles, Bool.false_eq_true, if_false, if_true, hf]
    | cancelled => simp only [filesThenHexcat, hashFiles, Bool.false_eq_true, if_false, if_true, hf]
    | endless => simp only [filesThenHexcat, hashFiles, Bool.false_eq_true, if_false, if_true, hf]
    | refused x => simp only [filesThenHexcat, hashFiles, Bool.false_eq_true, if_false, if_true, hf]

/-- `HASHD` AFTER A WALK THAT COMPLETED with distinct keys, when an empty directory is no fault here (R240). -/
theorem hashDirectory_files (p : Params) (root : Word) (c : Streaming) (e : Env) (hdone : (enumerate p root c e).how = .done)
    (hkeys : keysDistinct (enumerate p root c e).dd.ent = true) (hempty : (enumerate p root c e).dd.ent ≠ [] ∨ p.emptyDirFaults = false) :
    hashDirectory p root c e =
      filesTail (sortEntries (enumerate p root c e).dd.ent) (enumerate p root c e).sc (enumerate p root c e).dd (enumerate p root c e).env := by
  have hiff : (enumerate p root c e).dd.ent = [] ↔ sortEntries (enumerate p root c e).dd.ent = [] := by
    rw [← List.length_eq_zero_iff, ← List.length_eq_zero_iff, (sortEntries_perm _).length_eq]
  rw [← filesThenHexcat_first _ _ _ _ hiff]
  unfold hashDirectory
  simp only [hdone]
  unfold hashEntries
  rw [if_neg, if_pos hkeys]
  · rfl
  · rcases hempty with h | h <;> simp [h]

/-- FILES THAT OPEN AND DELIVER their messages, with no poll that asks to stop (R249 to R251): `HEXCAT` grows by the renderings of the digests in order, and the
requests are those of R249 and R250. -/
theorem filesTail_run (good rest : List (List Byte × Word)) (files : List (Word × List Byte)) (c : Streaming) (d : Directory) (e : Env)
    (opens : List OpenAnswer) (reads : List ReadAnswer) (hcount : files.length = good.length) (hp : e.continues (pollCount files))
    (hopens : e.opens = files.map (fun f => OpenAnswer.opened f.1) ++ opens) (hreads : e.reads = files.flatMap (fun f => windowsOf f.2) ++ reads)
    (hlen : ∀ f ∈ files, f.2.length ≤ Config.maxMsgBytes) :
    ∃ c' : Streaming, filesTail (good ++ rest) c d e =
      filesTail rest c' { d with hexcat := d.hexcat ++ files.flatMap fun f => render (digestOfMessage f.2) }
        { e with reads := reads, opens := opens, polls := e.polls.drop (pollCount files), seen := (filesRequests good files).reverse ++ e.seen } := by
  induction good generalizing files c d e with
  | nil =>
    obtain rfl := List.eq_nil_of_length_eq_zero (by simpa using hcount)
    simp only [List.map_nil, List.flatMap_nil, List.nil_append] at hopens hreads
    subst hopens hreads
    exact ⟨c, by simp [pollCount, filesRequests]⟩
  | cons x good ih =>
    obtain ⟨key, id⟩ := x
    rcases files with _ | ⟨⟨h, data⟩, files⟩
    · simp at hcount
    · have hpc : pollCount ((h, data) :: files) = data.length / 64 + 1 + pollCount files := by simp [pollCount]
      rw [List.map_cons, List.cons_append] at hopens
      rw [List.flatMap_cons, List.append_assoc] at hreads
      rw [hpc] at hp
      obtain ⟨g1, g2, g3⟩ := digestFile_run id h c e data _ (by simp [hopens]) (Env.continues_mono hp (by omega)) hreads (hlen (h, data) (by simp))
      have hq : (digestFile id c e).env.cancelPoll.1 = false := by
        rw [Env.cancelPoll_first, Env.pollAnswer_drop (e := e) (n := data.length / 64) (by rw [g3]) (by rw [g3])]
        exact hp _ (by omega)
      have he : (digestFile id c e).env.cancelPoll.2 =
          { e with reads := files.flatMap (fun f => windowsOf f.2) ++ reads, opens := e.opens.tail, polls := e.polls.drop (data.length / 64 + 1),
                   seen := .cancelPoll :: ((fileRequests id h data.length).reverse ++ e.seen) } := by
        obtain ⟨k1, -⟩ := (digestFile id c e).env.pollUnless_spec false
        refine Eq.trans k1 ?_
        rw [g3]
        simp [pollsBefore]
      obtain ⟨c', k⟩ := ih files (digestFile id c e).sc { d with hexcat := d.hexcat ++ render (digestFile id c e).sc.ctx.h }
        (digestFile id c e).env.cancelPoll.2 (by simpa using hcount)
        (Env.continues_drop (e := e) (n := data.length / 64 + 1) (by rw [he]) (by rw [he]) hp) (by rw [he]; simp [hopens]) (by rw [he])
        (fun f hf => hlen f (by simp [hf]))
      refine ⟨c', ?_⟩
      rw [List.cons_append, filesTail, g1]
      simp only [hq, Bool.false_eq_true, if_false]
      refine Eq.trans k ?_
      rw [he, g2, hpc]
      simp [filesRequests, List.drop_drop]

/-- The same, with the poll after the last of them asking to stop (R250). -/
theorem filesTail_cancelled (good rest : List (List Byte × Word)) (files : List (Word × List Byte)) (c : Streaming) (d : Directory) (e : Env)
    (opens : List OpenAnswer) (reads : List ReadAnswer) (hne : good ≠ []) (hcount : files.length = good.length) (hp : e.cancelsAt (pollCount files - 1))
    (hopens : e.opens = files.map (fun f => OpenAnswer.opened f.1) ++ opens) (hreads : e.reads = files.flatMap (fun f => windowsOf f.2) ++ reads)
    (hlen : ∀ f ∈ files, f.2.length ≤ Config.maxMsgBytes) :
    ∃ (c' : Streaming) (d' : Directory), filesTail (good ++ rest) c d e = ⟨.cancelled, c', d',
        { e with reads := reads, opens := opens, polls := e.polls.drop (pollCount files), seen := (filesRequests good files).reverse ++ e.seen }⟩ := by
  obtain ⟨init, x, rfl⟩ := List.eq_nil_or_concat good |>.resolve_left hne
  obtain ⟨key, id⟩ := x
  rcases List.eq_nil_or_concat files with rfl | ⟨finit, ⟨h, data⟩, rfl⟩
  · simp at hcount
  · have hpc : pollCount (finit.concat (h, data)) = pollCount finit + (data.length / 64 + 1) := by simp [pollCount]
    simp only [List.concat_eq_append] at *
    rw [hpc] at hp ⊢
    have hp' : e.cancelsAt (pollCount finit + data.length / 64) := by
      rwa [show pollCount finit + (data.length / 64 + 1) - 1 = pollCount finit + data.length / 64 by omega] at hp
    rw [List.map_append, List.append_assoc] at hopens
    rw [List.flatMap_append, List.append_assoc] at hreads
    obtain ⟨c1, k1⟩ := filesTail_run init ((key, id) :: rest) finit c d e ([.opened h] ++ opens) (windowsOf data ++ reads)
      (by simpa using hcount) (Env.continues_mono hp'.1 (by omega)) hopens (by simpa using hreads) (fun f hf => hlen f (by simp [hf]))
    rw [List.append_assoc, List.singleton_append, k1, filesTail]
    generalize hE : ({ e with reads := windowsOf data ++ reads, opens := [.opened h] ++ opens, polls := e.polls.drop (pollCount finit), seen := (filesRequests init finit).reverse ++ e.seen } : Env) = E
    have hE1 : E.polls = e.polls.drop (pollCount finit) := by rw [← hE]
    have hE2 : E.later = e.later := by rw [← hE]
    have hc := Env.cancelsAt_drop hE1 hE2 hp'
    obtain ⟨g1, g2, g3⟩ := digestFile_run id h c1 E data reads (by rw [← hE]; rfl) hc.1 (by rw [← hE]) (hlen (h, data) (by simp))
    have hq : (digestFile id c1 E).env.cancelPoll.1 = true := by
      rw [Env.cancelPoll_first, Env.pollAnswer_drop (e := E) (n := data.length / 64) (by rw [g3]) (by rw [g3])]
      exact hc.2
    have he : (digestFile id c1 E).env.cancelPoll.2 =
        { E with reads := reads, opens := E.opens.tail, polls := E.polls.drop (data.length / 64 + 1),
                 seen := .cancelPoll :: ((fileRequests id h data.length).reverse ++ E.seen) } := by
      obtain ⟨k1, -⟩ := (digestFile id c1 E).env.pollUnless_spec false
      refine Eq.trans k1 ?_
      rw [g3]
      simp [pollsBefore]
    rw [g1]
    simp only [hq, if_true, he]
    refine ⟨(digestFile id c1 E).sc, Directory.mk d.ent (d.hexcat ++ finit.flatMap (fun f => render (digestOfMessage f.2)) ++
      render (digestFile id c1 E).sc.ctx.h) d.work, ?_⟩
    congr 1
    rw [← hE]
    have hz : init.length = finit.length := by simpa using hcount.symm
    simp [filesRequests, List.drop_drop, List.zip_append hz]

end Sys2Proof.Machine
end

