-- ==== Sys2Proof/Laws/Alike.lean ====
section
/-! SUPPORT. What a digest command does with its files does not depend on the walk that found them: environments that differ only in what was asked
before, and in the answers to scans, are asked the same and answer the same (R247, R249 to R252). -/

namespace Sys2Proof.Machine

/-- Two environments that answer every request but scans the same, and have since seen the same requests, one after `b1`, the other after `b2`. -/
structure Env.Alike (b1 b2 : List Request) (e f : Env) : Prop where
  reads : f.reads = e.reads
  opens : f.opens = e.opens
  polls : f.polls = e.polls
  later : f.later = e.later
  seen : ∃ a, e.seen = a ++ b1 ∧ f.seen = a ++ b2

theorem Env.Alike.see {b1 b2 : List Request} {e f : Env} (h : Env.Alike b1 b2 e f) (r : Request) : Env.Alike b1 b2 (e.see r) (f.see r) := by
  obtain ⟨a, h1, h2⟩ := h.seen
  exact ⟨h.reads, h.opens, h.polls, h.later, r :: a, by simp [h1], by simp [h2]⟩

theorem Env.Alike.cancelPoll {b1 b2 : List Request} {e f : Env} (h : Env.Alike b1 b2 e f) :
    f.cancelPoll.1 = e.cancelPoll.1 ∧ Env.Alike b1 b2 e.cancelPoll.2 f.cancelPoll.2 := by
  obtain ⟨a, h1, h2⟩ := h.seen
  exact ⟨by simp [h.polls, h.later], by simp [h.reads], by simp [h.opens], by simp [h.polls], by simp [h.later], .cancelPoll :: a, by simp [h1], by simp [h2]⟩

theorem Env.Alike.openFile {b1 b2 : List Request} {e f : Env} (h : Env.Alike b1 b2 e f) (id : Word) :
    (f.openFile id).1 = (e.openFile id).1 ∧ Env.Alike b1 b2 (e.openFile id).2 (f.openFile id).2 := by
  obtain ⟨a, h1, h2⟩ := h.seen
  exact ⟨by simp [h.opens, h.later], by simp [h.reads], by simp [h.opens], by simp [h.polls], by simp [h.later], .envOpen id :: a, by simp [h1], by simp [h2]⟩

theorem Env.Alike.srcRead {b1 b2 : List Request} {e f : Env} (h : Env.Alike b1 b2 e f) (src : Source) :
    (f.srcRead src).1 = (e.srcRead src).1 ∧ (f.srcRead src).2.1 = (e.srcRead src).2.1 ∧ Env.Alike b1 b2 (e.srcRead src).2.2 (f.srcRead src).2.2 := by
  cases src with
  | bytes rest => exact ⟨rfl, rfl, h.see _⟩
  | stream k =>
    obtain ⟨a, h1, h2⟩ := h.seen
    unfold Env.srcRead
    rw [h.reads]
    cases e.reads with
    | nil => exact ⟨congrArg Later.read h.later, rfl, h.see _⟩
    | cons x r => exact ⟨rfl, rfl, rfl, h.opens, h.polls, h.later, .srcRead (.stream k) :: a, by simp [h1], by simp [h2]⟩

theorem digestLoop_alike {b1 b2 : List Request} (fuel : Nat) (first : Bool) (src : Source) (c : Streaming) {e f : Env} (h : Env.Alike b1 b2 e f) :
    (digestLoop fuel first src c f).how = (digestLoop fuel first src c e).how ∧ (digestLoop fuel first src c f).sc = (digestLoop fuel first src c e).sc ∧
      Env.Alike b1 b2 (digestLoop fuel first src c e).env (digestLoop fuel first src c f).env := by
  induction fuel generalizing first src c e f with
  | zero => exact ⟨rfl, rfl, h⟩
  | succ fuel ih =>
    have hp : (if first then (false, f) else f.cancelPoll).1 = (if first then (false, e) else e.cancelPoll).1 ∧
        Env.Alike b1 b2 (if first then (false, e) else e.cancelPoll).2 (if first then (false, f) else f.cancelPoll).2 := by
      cases first
      · exact h.cancelPoll
      · exact ⟨rfl, h⟩
    unfold digestLoop
    generalize (if first then (false, f) else f.cancelPoll) = q at hp ⊢
    generalize (if first then (false, e) else e.cancelPoll) = p at hp ⊢
    obtain ⟨h1, h2⟩ := hp
    obtain ⟨h3, h4, h5⟩ := h2.srcRead src
    dsimp only
    rw [h1, h3, h4]
    split
    · exact ⟨rfl, rfl, h2⟩
    · split
      · exact ⟨rfl, rfl, h5⟩
      · split
        · exact ⟨rfl, rfl, h5⟩
        · split
          · exact ih _ _ _ h5
          · exact ⟨rfl, rfl, h5⟩

theorem digestOf_alike {b1 b2 : List Request} (src : Source) (c : Streaming) {e f : Env} (h : Env.Alike b1 b2 e f) :
    (digestOf src c f).how = (digestOf src c e).how ∧ (digestOf src c f).sc = (digestOf src c e).sc ∧
      Env.Alike b1 b2 (digestOf src c e).env (digestOf src c f).env := by
  have hf : digestFuel src f = digestFuel src e := by cases src <;> simp [digestFuel, h.reads, h.polls]
  unfold digestOf
  rw [hf]
  exact digestLoop_alike _ _ _ _ h

theorem digestFile_alike {b1 b2 : List Request} (id : Word) (c : Streaming) {e f : Env} (h : Env.Alike b1 b2 e f) :
    (digestFile id c f).how = (digestFile id c e).how ∧ (digestFile id c f).sc = (digestFile id c e).sc ∧
      Env.Alike b1 b2 (digestFile id c e).env (digestFile id c f).env := by
  obtain ⟨h1, h2⟩ := h.openFile id
  unfold digestFile
  dsimp only
  rw [h1]
  cases (e.openFile id).1 with
  | notFound => exact ⟨rfl, rfl, h2⟩
  | fail => exact ⟨rfl, rfl, h2⟩
  | opened k =>
    obtain ⟨h3, h4, h5⟩ := digestOf_alike (.stream k) c h2
    exact ⟨h3, h4, h5.see _⟩

theorem filesTail_alike {b1 b2 : List Request} (ents : List (List Byte × Word)) (c : Streaming) {d d' : Directory} {e f : Env} (hd : d'.hexcat = d.hexcat)
    (h : Env.Alike b1 b2 e f) :
    (filesTail ents c d' f).how = (filesTail ents c d e).how ∧ (filesTail ents c d' f).sc = (filesTail ents c d e).sc ∧
      Env.Alike b1 b2 (filesTail ents c d e).env (filesTail ents c d' f).env := by
  induction ents generalizing c d d' e f with
  | nil => rw [filesTail, filesTail, hd]; exact digestOf_alike _ _ h
  | cons x ents ih =>
    obtain ⟨key, id⟩ := x
    obtain ⟨h1, h2, h3⟩ := digestFile_alike id c h
    obtain ⟨h4, h5⟩ := h3.cancelPoll
    rw [filesTail, filesTail, h1, h4]
    cases (digestFile id c e).how with
    | done =>
      dsimp only
      rw [h2]
      split
      · exact ⟨rfl, rfl, h5⟩
      · exact ih _ (by simp [hd]) h5
    | failed x => exact ⟨rfl, h2, h3⟩
    | cancelled => exact ⟨rfl, h2, h3⟩
    | endless => exact ⟨rfl, h2, h3⟩
    | refused r => exact ⟨rfl, h2, h3⟩

end Sys2Proof.Machine
end

