-- ==== Sys2Proof/Laws/Endless.lean ====
section
/-! SUPPORT. When a digest never ends: exactly when its stream delivers full windows for ever and no poll asks to stop (R362, X6). -/

namespace Sys2Proof.Machine

/-- What the environment will answer to read number `k` of a stream from now on. -/
def Env.readAnswer (e : Env) (k : Nat) : ReadAnswer := e.reads.getD k e.later.read

/-- A full window. -/
def ReadAnswer.full (a : ReadAnswer) : Prop := ∃ w : Window, a = .window w ∧ w.bytes.length = 64

theorem Env.srcRead_readAnswer (h : Word) (e : Env) : (e.srcRead (.stream h)).1 = e.readAnswer 0 ∧ (e.srcRead (.stream h)).2.1 = .stream h ∧
   ∀ k, (e.srcRead (.stream h)).2.2.readAnswer k = e.readAnswer (k+1) := by
  unfold Env.srcRead Env.readAnswer
  cases hr : e.reads <;> simp [Env.see, hr]

theorem digestBody_endless (fuel : Nat) (h : Word) (c : Streaming) (e : Env) :
    (digestBody fuel (.stream h) c e).how = .endless ↔ ∃ w : Window, e.readAnswer 0 = .window w ∧ w.bytes.length = 64 ∧
      c.ctx.msglen.toNat + 64 ≤ Config.maxMsgBytes ∧ (digestLoop fuel false (.stream h) (c.fullWindow w) (e.srcRead (.stream h)).2.2).how = .endless := by
  obtain ⟨h1, h2, -⟩ := Env.srcRead_readAnswer h e
  unfold digestBody
  rw [h1, h2]
  cases e.readAnswer 0 with
  | fail => simp
  | window w =>
    dsimp only
    split
    · rename_i hlt
      simp only [reduceCtorEq, false_iff]
      rintro ⟨v, hv, hw, hl, -⟩
      cases hv; omega
    · split
      · rename_i hlt hw
        constructor
        · exact fun hh => ⟨w, rfl, hw, by omega, hh⟩
        · rintro ⟨v, hv, -, -, hh⟩; cases hv; exact hh
      · simp only [reduceCtorEq, false_iff]
        rintro ⟨v, hv, hw, -⟩
        cases hv; contradiction

/-- The loop reaches its bound exactly when every poll goes on, every read answers a full window and the length stays admitted (R213, X6). -/
theorem digestLoop_endless (fuel : Nat) (h : Word) (c : Streaming) (e : Env) (hm : c.ctx.msglen.toNat ≤ Config.maxMsgBytes) :
    (digestLoop fuel false (.stream h) c e).how = .endless ↔
      e.continues fuel ∧ (∀ k, k < fuel → (e.readAnswer k).full) ∧ c.ctx.msglen.toNat + 64 * fuel ≤ Config.maxMsgBytes := by
  induction fuel generalizing c e with
  | zero => simp [digestLoop, Env.continues, hm]
  | succ fuel ih =>
    cases hp : e.pollAnswer 0 with
    | true =>
      rw [digestLoop_stops _ _ _ _ hp]
      simp only [reduceCtorEq, false_iff]
      rintro ⟨h1, -⟩
      have := h1 0 (by omega)
      rw [hp] at this; cases this
    | false =>
      rw [digestLoop_goesOn _ _ _ _ hp, digestBody_endless]
      generalize hF : ({ e with polls := e.polls.drop 1, seen := .cancelPoll :: e.seen } : Env) = F
      have hFp : ∀ k, F.pollAnswer k = e.pollAnswer (1 + k) := fun k => Env.pollAnswer_drop (by rw [← hF]) (by rw [← hF]) k
      have hFr : ∀ k, F.readAnswer k = e.readAnswer k := fun k => by rw [← hF]; rfl
      obtain ⟨-, -, hr⟩ := Env.srcRead_readAnswer h F
      have hmm : ∀ w, c.ctx.msglen.toNat + 64 ≤ Config.maxMsgBytes → (c.fullWindow w).ctx.msglen.toNat = c.ctx.msglen.toNat + 64 := by
        intro w hl
        rw [Streaming.fullWindow_msglen, BitVec.toNat_add]
        have : c.ctx.msglen.toNat + 64 < 2 ^ 64 := by unfold Config.maxMsgBytes at hl; omega
        simp only [BitVec.toNat_ofNat]; omega
      have hpa : ∀ k, (F.srcRead (.stream h)).2.2.pollAnswer k = e.pollAnswer (1 + k) := fun k => by
        rw [← hFp]; unfold Env.pollAnswer; simp
      constructor
      · rintro ⟨w, hw1, hw2, hl, hh⟩
        rw [ih _ _ (by rw [hmm w hl]; exact hl)] at hh
        obtain ⟨g1, g2, g3⟩ := hh
        refine ⟨?_, ?_, by rw [hmm w hl] at g3; omega⟩
        · intro k hk
          cases k with
          | zero => exact hp
          | succ k => rw [Nat.add_comm k 1, ← hpa]; exact g1 k (by omega)
        · intro k hk
          cases k with
          | zero => exact ⟨w, by rw [← hFr]; exact hw1, hw2⟩
          | succ k => rw [← hFr, ← hr]; exact g2 k (by omega)
      · rintro ⟨g1, g2, g3⟩
        obtain ⟨w, hw1, hw2⟩ := g2 0 (by omega)
        refine ⟨w, by rw [hFr]; exact hw1, hw2, by omega, ?_⟩
        rw [ih _ _ (by rw [hmm w (by omega)]; omega)]
        refine ⟨?_, ?_, by rw [hmm w (by omega)]; omega⟩
        · intro k hk; rw [hpa]; exact g1 (1 + k) (by omega)
        · intro k hk; rw [hr, hFr]; exact g2 (k + 1) (by omega)

/-- Answers enough to pass the listed ones speak for all. -/
theorem Env.neverCancels_iff (e : Env) (n : Nat) (hn : e.polls.length < n) : e.neverCancels ↔ e.continues n := by
  constructor
  · exact fun h => Env.neverCancels_continues h n
  · intro h
    refine ⟨fun p hp => ?_, ?_⟩
    · obtain ⟨k, hk, rfl⟩ := List.getElem_of_mem hp
      have := h k (by omega)
      simpa [Env.pollAnswer, List.getD_eq_getElem?_getD, hk] using this
    · have := h e.polls.length (by omega)
      simpa [Env.pollAnswer] using this

theorem Env.allFull_iff (e : Env) (n : Nat) (hn : e.reads.length < n) :
    ((∀ a ∈ e.reads, a.full) ∧ e.later.read.full) ↔ ∀ k, k < n → (e.readAnswer k).full := by
  constructor
  · rintro ⟨h1, h2⟩ k -
    unfold Env.readAnswer
    rw [List.getD_eq_getElem?_getD]
    rcases hk : e.reads[k]? with _ | a
    · exact h2
    · exact h1 a (List.mem_of_getElem? hk)
  · intro h
    refine ⟨fun p hp => ?_, ?_⟩
    · obtain ⟨k, hk, rfl⟩ := List.getElem_of_mem hp
      have := h k (by omega)
      simpa [Env.readAnswer, List.getD_eq_getElem?_getD, hk] using this
    · have := h e.reads.length (by omega)
      simpa [Env.readAnswer] using this

/-- DIGEST_OF a stream that never ends, exactly. -/
theorem digestOf_endless (h : Word) (c : Streaming) (e : Env) :
    (digestOf (.stream h) c e).how = .endless ↔ e.endlessStream ∧ 64 * (e.reads.length + e.polls.length + 2) ≤ Config.maxMsgBytes := by
  unfold digestOf
  simp only [digestFuel]
  rw [show e.reads.length + e.polls.length + 2 = e.reads.length + e.polls.length + 1 + 1 from rfl, digestLoop_first, digestBody_endless]
  generalize hn : e.reads.length + e.polls.length + 1 = n
  obtain ⟨-, -, hr⟩ := Env.srcRead_readAnswer h e
  have hpa : ∀ k, (e.srcRead (.stream h)).2.2.pollAnswer k = e.pollAnswer k := fun k => by unfold Env.pollAnswer; simp
  have hmm : ∀ w, (c.start.fullWindow w).ctx.msglen.toNat = 64 := fun w => by
    rw [Streaming.fullWindow_msglen, Streaming.start_msglen]; rfl
  have hmax : 64 ≤ Config.maxMsgBytes := by decide
  have key : e.endlessStream ↔ e.continues n ∧ ∀ k, k < n + 1 → (e.readAnswer k).full := by
    rw [← Env.allFull_iff e (n + 1) (by omega), ← Env.neverCancels_iff e n (by omega)]
    rfl
  rw [key]
  constructor
  · rintro ⟨w, hw1, hw2, hl, hh⟩
    rw [digestLoop_endless _ _ _ _ (by rw [hmm]; exact hmax)] at hh
    obtain ⟨g1, g2, g3⟩ := hh
    rw [hmm] at g3
    refine ⟨⟨fun k hk => by rw [← hpa]; exact g1 k hk, fun k hk => ?_⟩, by omega⟩
    cases k with
    | zero => exact ⟨w, hw1, hw2⟩
    | succ k => rw [← hr]; exact g2 k (by omega)
  · rintro ⟨⟨g1, g2⟩, g3⟩
    obtain ⟨w, hw1, hw2⟩ := g2 0 (by omega)
    refine ⟨w, hw1, hw2, by rw [Streaming.start_msglen]; exact hmax, ?_⟩
    rw [digestLoop_endless _ _ _ _ (by rw [hmm]; exact hmax)]
    refine ⟨fun k hk => by rw [hpa]; exact g1 k hk, fun k hk => by rw [hr]; exact g2 (k + 1) (by omega), by rw [hmm]; omega⟩

theorem Env.endlessStream_congr {e f : Env} (h1 : f.reads = e.reads) (h2 : f.polls = e.polls) (h3 : f.later = e.later) : f.endlessStream ↔ e.endlessStream := by
  unfold Env.endlessStream Env.neverCancels
  rw [h1, h2, h3]

/-- The digest of a file never ends, exactly. -/
theorem digestFile_endless (id : Word) (c : Streaming) (e : Env) :
    (digestFile id c e).how = .endless ↔ (∃ h, e.opens.headD e.later.opened = .opened h) ∧ e.endlessStream ∧
      64 * (e.reads.length + e.polls.length + 2) ≤ Config.maxMsgBytes := by
  cases ho : e.opens.headD e.later.opened with
  | opened h =>
    rw [digestFile_opened id h c e ho]
    dsimp only
    rw [digestOf_endless]
    simp only [OpenAnswer.opened.injEq, exists_eq', true_and]
    exact Iff.rfl
  | notFound =>
    unfold digestFile
    dsimp only
    rw [Env.openFile_answer, ho]
    simp
  | fail =>
    unfold digestFile
    dsimp only
    rw [Env.openFile_answer, ho]
    simp

/-- A byte sequence always ends (R362). -/
theorem digestLoop_bytes_ends (fuel : Nat) (first : Bool) (d : List Byte) (c : Streaming) (e : Env) (hf : d.length / 64 < fuel) :
    (digestLoop fuel first (.bytes d) c e).how ≠ .endless := by
  induction fuel generalizing first d c e with
  | zero => omega
  | succ fuel ih =>
    unfold digestLoop
    generalize (if first then (false, e) else e.cancelPoll) = p
    dsimp only
    split
    · simp
    · simp only [Env.srcRead, Window.ofBytes]
      split
      · simp
      · split
        · rename_i hw
          apply ih
          simp at hw ⊢; omega
        · simp

theorem Env.neverCancels_of_poll {e : Env} (h1 : e.cancelPoll.1 = false) (h2 : e.cancelPoll.2.neverCancels) : e.neverCancels := by
  obtain ⟨g1, g2⟩ := h2
  simp only [Env.cancelPoll_answer, Env.cancelPoll_polls, Env.cancelPoll_later] at *
  refine ⟨fun p hp => ?_, g2⟩
  rcases hq : e.polls with _ | ⟨a, r⟩
  · rw [hq] at hp; simp at hp
  · rw [hq] at hp h1 g1
    rcases List.mem_cons.mp hp with rfl | h
    · exact h1
    · exact g1 p h

/-- A digest that was not told to stop leaves an environment that never cancels only if it met one. -/
theorem digestLoop_neverCancels (fuel : Nat) (first : Bool) (src : Source) (c : Streaming) (e : Env) (h : (digestLoop fuel first src c e).how ≠ .cancelled)
    (hn : (digestLoop fuel first src c e).env.neverCancels) : e.neverCancels := by
  induction fuel generalizing first src c e with
  | zero => exact hn
  | succ fuel ih =>
    rw [digestLoop_turn] at h hn
    have hp : (e.pollUnless first).1 = false → (e.pollUnless first).2.neverCancels → e.neverCancels := by
      cases first
      · exact Env.neverCancels_of_poll
      · exact fun _ h => h
    cases hq : (e.pollUnless first).1 with
    | true => rw [hq] at h; exact absurd rfl h
    | false =>
      rw [hq] at h hn
      apply hp hq
      generalize (e.pollUnless first).2 = f at *
      simp only [Bool.false_eq_true, if_false] at h hn
      have hsr : ∀ x : Env, x = (f.srcRead src).2.2 → x.neverCancels → f.neverCancels := by
        rintro x rfl hx; exact Env.neverCancels_congr (by simp) (by simp) hx
      unfold digestBody at h hn
      cases ha : (f.srcRead src).1 with
      | fail => rw [ha] at hn; exact hsr _ rfl hn
      | window w =>
        rw [ha] at h hn
        dsimp only at h hn
        split at hn
        · exact hsr _ rfl hn
        · rename_i h1
          rw [if_neg h1] at h
          split at hn
          · rename_i h2
            rw [if_pos h2] at h
            exact hsr _ rfl (ih _ _ _ _ h hn)
          · exact hsr _ rfl hn

theorem digestFile_neverCancels (id : Word) (c : Streaming) (e : Env) (h : (digestFile id c e).how ≠ .cancelled)
    (hn : (digestFile id c e).env.neverCancels) : e.neverCancels := by
  unfold digestFile at h hn
  dsimp only at h hn
  cases ha : (e.openFile id).1 with
  | notFound => rw [ha] at hn; exact Env.neverCancels_congr (by simp) (by simp) hn
  | fail => rw [ha] at hn; exact Env.neverCancels_congr (by simp) (by simp) hn
  | opened k =>
    rw [ha] at h hn
    have := digestLoop_neverCancels _ _ _ _ _ h (Env.neverCancels_congr (f := (digestOf (.stream k) c (e.openFile id).2).env) (by simp) (by simp) hn)
    exact Env.neverCancels_congr (by simp) (by simp) this

/-- The files never end only if one of them does. -/
theorem filesTail_endless (ents : List (List Byte × Word)) (c : Streaming) (d : Directory) (e : Env) (h : (filesTail ents c d e).how = .endless) :
    ents ≠ [] ∧ e.neverCancels ∧ e.later.read.full := by
  induction ents generalizing c d e with
  | nil => exact absurd h (digestLoop_bytes_ends _ _ _ _ _ (by simp [digestFuel]))
  | cons x ents ih =>
    obtain ⟨key, id⟩ := x
    refine ⟨by simp, ?_⟩
    rw [filesTail] at h
    cases hh : (digestFile id c e).how with
    | endless =>
      obtain ⟨-, h2, -⟩ := (digestFile_endless id c e).mp hh
      exact ⟨h2.1, h2.2.2⟩
    | done =>
      rw [hh] at h
      dsimp only at h
      split at h
      · cases h
      · rename_i hp
        obtain ⟨-, h1, h2⟩ := ih _ _ _ h
        refine ⟨digestFile_neverCancels id c e (by rw [hh]; simp) (Env.neverCancels_of_poll (by simpa using hp) h1), ?_⟩
        rw [Env.cancelPoll_later, (digestFile_env id c e).2.2.1] at h2
        exact h2
    | failed x => rw [hh] at h; cases h
    | cancelled => rw [hh] at h; cases h
    | refused r => rw [hh] at h; cases h

end Sys2Proof.Machine
end

