-- ==== Sys2Proof/Laws/Memory.lean ====
section
/-! SUPPORT. The laws of BLKMEM: a read after a write, and that every operation keeps the canonical form. -/

namespace Sys2Proof.Machine

/-- No cell of the memory lies below the address. -/
def Memory.above (m : Memory) (a : Nat) : Prop := ∀ c ∈ m, a < c.1

theorem Memory.above_of_wf {x : Nat} {v : Byte} {r : Memory} (h : Memory.wf ((x, v) :: r)) : Memory.above r x := by
  obtain ⟨hp, -⟩ := h
  simpa [Memory.above] using (List.pairwise_cons.mp hp).1

theorem Memory.wf_tail {c : Host.Cell} {r : Memory} (h : Memory.wf (c :: r)) : Memory.wf r :=
  ⟨(List.pairwise_cons.mp h.1).2, fun d hd => h.2 d (List.mem_cons_of_mem _ hd)⟩

theorem Memory.wf_nil : Memory.wf [] := ⟨List.Pairwise.nil, by simp⟩

/-- Below its first cell a memory lists nothing. -/
theorem Memory.read_below {m : Memory} {a : Nat} (h : ∀ c ∈ m, c.1 ≠ a) : m.read a = 0 := by
  induction m with
  | nil => rfl
  | cons c r ih =>
    obtain ⟨x, v⟩ := c
    have hx : x ≠ a := h (x, v) (by simp)
    simp only [Memory.read, hx, if_false]
    exact ih fun d hd => h d (List.mem_cons_of_mem _ hd)

theorem Memory.read_cons {m : Memory} {a : Nat} (b : Byte) (h : m.above a) (x : Nat) :
    (Memory.cons a b m).read x = if x = a then b else m.read x := by
  unfold Memory.cons
  by_cases hb : b = 0
  · by_cases hx : x = a
    · subst hx; simp [hb, Memory.read_below fun c hc => (h c hc).ne']
    · simp [hb, hx]
  · simp only [hb, if_false, Memory.read, eq_comm (a := a)]

theorem Memory.cons_wf {m : Memory} {a : Nat} (b : Byte) (h : m.above a) (hm : m.wf) : (Memory.cons a b m).wf := by
  unfold Memory.cons
  by_cases hb : b = 0
  · simpa [hb] using hm
  · rw [if_neg hb]
    exact ⟨List.pairwise_cons.mpr ⟨fun c hc => h c hc, hm.1⟩, by
      intro c hc
      rcases List.mem_cons.mp hc with rfl | hc
      · exact hb
      · exact hm.2 c hc⟩

theorem Memory.cons_above {m : Memory} {a k : Nat} (b : Byte) (hk : k < a) (h : m.above k) : (Memory.cons a b m).above k := by
  unfold Memory.cons
  split
  · exact h
  · intro c hc
    rcases List.mem_cons.mp hc with rfl | hc
    · exact hk
    · exact h c hc

theorem Memory.write_above {m : Memory} {a k : Nat} (b : Byte) (hk : k < a) (h : m.above k) : (Memory.write a b m).above k := by
  induction m with
  | nil => exact Memory.cons_above b hk h
  | cons c r ih =>
    obtain ⟨x, v⟩ := c
    have hr : Memory.above r k := fun d hd => h d (List.mem_cons_of_mem _ hd)
    have hx : k < x := h (x, v) (by simp)
    simp only [Memory.write]
    split
    · exact Memory.cons_above b hk h
    · split
      · exact Memory.cons_above b hk hr
      · intro d hd
        rcases List.mem_cons.mp hd with rfl | hd
        · exact hx
        · exact ih hr d hd

/-- Writing a byte keeps the canonical form. -/
theorem Memory.write_wf {m : Memory} (a : Nat) (b : Byte) (h : m.wf) : (Memory.write a b m).wf := by
  induction m with
  | nil => exact Memory.cons_wf b (fun c hc => absurd hc (by simp)) h
  | cons c r ih =>
    obtain ⟨x, v⟩ := c
    have hab := Memory.above_of_wf h
    simp only [Memory.write]
    split
    · rename_i hlt
      refine Memory.cons_wf b ?_ h
      intro d hd
      rcases List.mem_cons.mp hd with rfl | hd
      · exact hlt
      · exact hlt.trans (hab d hd)
    · split
      · rename_i heq
        subst heq
        exact Memory.cons_wf b hab (Memory.wf_tail h)
      · rename_i h1 h2
        have hxa : x < a := by omega
        have hw := ih (Memory.wf_tail h)
        have ha := Memory.write_above b hxa hab
        refine ⟨List.pairwise_cons.mpr ⟨fun d hd => ha d hd, hw.1⟩, ?_⟩
        intro d hd
        rcases List.mem_cons.mp hd with rfl | hd
        · exact h.2 _ (by simp)
        · exact hw.2 d hd

/-- A read after a write: the byte written at its address, what was there before at every other. -/
theorem Memory.read_write {m : Memory} (a : Nat) (b : Byte) (h : m.wf) (x : Nat) :
    (Memory.write a b m).read x = if x = a then b else m.read x := by
  induction m with
  | nil => exact Memory.read_cons b (fun c hc => absurd hc (by simp)) x
  | cons c r ih =>
    obtain ⟨y, v⟩ := c
    have hab := Memory.above_of_wf h
    simp only [Memory.write]
    split
    · rename_i hlt
      refine Memory.read_cons b ?_ x
      intro d hd
      rcases List.mem_cons.mp hd with rfl | hd
      · exact hlt
      · exact hlt.trans (hab d hd)
    · split
      · rename_i heq
        subst heq
        rw [Memory.read_cons b hab]
        by_cases hx : x = a
        · simp [hx]
        · simp [hx, Memory.read, Ne.symm hx]
      · rename_i h1 h2
        simp only [Memory.read, ih (Memory.wf_tail h)]
        by_cases hy : y = x
        · have : x ≠ a := by omega
          simp [hy, this]
        · simp [hy]

/-- Storing a byte sequence keeps the canonical form. -/
theorem Memory.store_wf {m : Memory} (a : Nat) (bs : List Byte) (h : m.wf) : (Memory.store a bs m).wf := by
  induction bs generalizing a with
  | nil => exact h
  | cons b bs ih => exact Memory.write_wf a b (ih (a + 1))

/-- A read after a store: the byte of the sequence inside it, what was there before outside. -/
theorem Memory.read_store {m : Memory} (a : Nat) (bs : List Byte) (h : m.wf) (x : Nat) :
    (Memory.store a bs m).read x = if a ≤ x ∧ x < a + bs.length then bs.getD (x - a) 0 else m.read x := by
  induction bs generalizing a with
  | nil =>
    rw [if_neg (by simp)]
    rfl
  | cons b bs ih =>
    simp only [Memory.store]
    rw [Memory.read_write a b (Memory.store_wf (a + 1) bs h), ih (a + 1)]
    by_cases hx : x = a
    · subst hx; simp
    · rw [if_neg hx]
      by_cases hin : a + 1 ≤ x ∧ x < a + 1 + bs.length
      · rw [if_pos hin, if_pos (by simp only [List.length_cons]; omega), show x - a = (x - (a + 1)) + 1 by omega]
        rfl
      · rw [if_neg hin, if_neg (by simp only [List.length_cons]; omega)]

/-- The bytes read back from a stored sequence are a slice of it. -/
theorem Memory.readBytes_store (bs : List Byte) (i n : Nat) (h : i + n ≤ bs.length) :
    (Memory.store 0 bs []).readBytes i n = slice bs i n := by
  apply List.ext_getElem
  · simp [Memory.readBytes, slice]; omega
  · intro k h1 h2
    simp only [Memory.readBytes, List.length_map, List.length_range] at h1
    have hk : i + k < bs.length := by omega
    simp [Memory.readBytes, slice, Memory.read_store 0 bs Memory.wf_nil, hk]

end Sys2Proof.Machine
end

