-- ==== Sys2Proof/Laws/PerInstr.lean ====
section
/-! SUPPORT. One lemma per instruction: its encoding is a word of its row of `spec/opcode_table.json`, and the table's reading of that
word is the instruction. -/

namespace Sys2Proof.Laws

/-- A row of the opcode table: how many bits its words have in whole bytes, which bits are fixed, and to what. -/
structure Row where
  bits : Nat
  mask : Nat
  pattern : Nat
deriving DecidableEq, Repr

/-- The row of an instruction, as the table has it. -/
def rowOf : Instr → Row
  | .hash _ => ⟨32, 0xFFFFFCFF, 0x00000001⟩
  | .hashf => ⟨32, 0xFFFFFFFF, 0x00000002⟩
  | .hashd => ⟨32, 0xFFFFFFFF, 0x00000003⟩
  | .stpnew _ => ⟨32, 0xFFFFFCFF, 0x00000004⟩
  | .stpadv => ⟨32, 0xFFFFFFFF, 0x00000005⟩
  | .stprst => ⟨32, 0xFFFFFFFF, 0x00000006⟩
  | .stepFF _ => ⟨8, 0x30, 0x00⟩
  | .stepGG _ => ⟨8, 0x30, 0x10⟩
  | .stepHH _ => ⟨8, 0x30, 0x20⟩
  | .stepII _ => ⟨8, 0x30, 0x30⟩

/-- The encoding of `i` carries the fixed bits of its row, and `decodeTableWord` reads it back as `i` (R101, R103, R111). -/
def TableRow.Statement (i : Instr) : Prop :=
  (Machine.leNat (encode i) &&& (rowOf i).mask) = (rowOf i).pattern ∧
    decodeTableWord (rowOf i).bits (Machine.leNat (encode i)) = some i

theorem TableRow.hash (srck : BitVec 2) : TableRow.Statement (.hash srck) := by
  unfold TableRow.Statement; revert srck; decide

theorem TableRow.hashf : TableRow.Statement .hashf := by unfold TableRow.Statement; decide

theorem TableRow.hashd : TableRow.Statement .hashd := by unfold TableRow.Statement; decide

theorem TableRow.stpnew (srck : BitVec 2) : TableRow.Statement (.stpnew srck) := by
  unfold TableRow.Statement; revert srck; decide

theorem TableRow.stpadv : TableRow.Statement .stpadv := by unfold TableRow.Statement; decide

theorem TableRow.stprst : TableRow.Statement .stprst := by unfold TableRow.Statement; decide

theorem TableRow.stepFF (pos : BitVec 4) : TableRow.Statement (.stepFF pos) := by
  unfold TableRow.Statement; revert pos; decide

theorem TableRow.stepGG (pos : BitVec 4) : TableRow.Statement (.stepGG pos) := by
  unfold TableRow.Statement; revert pos; decide

theorem TableRow.stepHH (pos : BitVec 4) : TableRow.Statement (.stepHH pos) := by
  unfold TableRow.Statement; revert pos; decide

theorem TableRow.stepII (pos : BitVec 4) : TableRow.Statement (.stepII pos) := by
  unfold TableRow.Statement; revert pos; decide

end Sys2Proof.Laws
end

