-- ==== Sys2Proof/Laws/Stepper.lean ====
section
/-! SUPPORT. The laws of the stepper: what a session holds (R272, R290), and that each transition keeps it. -/

namespace Sys2Proof.Machine

/-- Folds over the same list agree when their functions agree on it. -/
theorem foldl_congr_mem {α β : Type} (l : List α) (f g : β → α → β) (h : ∀ a ∈ l, ∀ y, f y a = g y a) (x : β) :
    l.foldl f x = l.foldl g x := by
  induction l generalizing x with
  | nil => rfl
  | cons a l ih =>
    rw [List.foldl_cons, List.foldl_cons, h a (by simp)]
    exact ih (fun b hb => h b (by simp [hb])) _

theorem length_padMsg_eq (data : List Byte) : (padMsg data).length = 64 * nblkOf data.length := by
  have hm : (data.drop (64 * (data.length / 64))).length = data.length % 64 := by simp; omega
  have h := length_padBytes_lt (data.drop (64 * (data.length / 64))) data.length (by omega)
  rw [hm] at h
  unfold padMsg nblkOf
  rw [List.length_append, h, List.length_take]
  split <;> omega

/-! ## The blocks of a session -/

theorem Stepper.toNat_nblk {t : Stepper} {data : List Byte} (h : t.holdsMessage data) : t.nblk.toNat = nblkOf data.length := by
  rw [h.2.2.1, toNat_nblkOf _ h.1]

/-- Every block below `NBLK` exists. -/
theorem Stepper.block_eq {t : Stepper} (b : Nat) (h : b < t.nblk.toNat) : t.block b = some (t.blockBytes b) := by
  simp [Stepper.block, Stepper.blockBytes, h]

theorem Stepper.block_none {t : Stepper} (b : Nat) (h : ¬ b < t.nblk.toNat) : t.block b = none := by
  simp [Stepper.block, h]

/-- Block `b` of BLKMEM is block `b` of the padded message (R197). -/
theorem Stepper.blockBytes_eq {t : Stepper} {data : List Byte} (h : t.holdsMessage data) (b : Nat) (hb : b < nblkOf data.length) :
    t.blockBytes b = slice (padMsg data) (64 * b) 64 := by
  unfold Stepper.blockBytes
  rw [h.2.1, Memory.readBytes_store]
  rw [length_padMsg_eq]; omega

/-- The chaining values after the last block are the digest of the message (R284). -/
theorem Stepper.chainBefore_nblk {t : Stepper} {data : List Byte} (h : t.holdsMessage data) :
    t.chainBefore t.nblk.toNat = digestOfMessage data := by
  rw [Stepper.toNat_nblk h]
  unfold Stepper.chainBefore digestOfMessage blocksOf
  rw [length_padMsg_eq, Nat.mul_div_cancel_left _ (by norm_num), List.foldl_map]
  apply foldl_congr_mem
  intro b hb x
  rw [Stepper.blockBytes_eq h b (List.mem_range.mp hb)]

theorem Stepper.chainBefore_succ (t : Stepper) (b : Nat) :
    t.chainBefore (b + 1) = (t.chainBefore b).compress (t.blockBytes b) := by
  simp [Stepper.chainBefore, List.range_succ]

/-- What the blocks, the chaining values and the entry context are made of: BLKMEM, and `MSGLEN` for the last. -/
theorem Stepper.entry_congr {t u : Stepper} (hm : u.blkmem = t.blkmem) (hl : u.ctx.msglen = t.ctx.msglen) (b : Nat) :
    u.blockBytes b = t.blockBytes b ∧ u.chainBefore b = t.chainBefore b ∧ u.entry b = t.entry b := by
  have h1 : ∀ k, u.blockBytes k = t.blockBytes k := fun k => by unfold Stepper.blockBytes; rw [hm]
  have h2 : u.chainBefore b = t.chainBefore b := by simp only [Stepper.chainBefore, h1]
  refine ⟨h1 b, h2, ?_⟩
  unfold Stepper.entry Context.loadBlk Context.initW
  simp only [h1, h2, hl]

theorem Stepper.holdsMessage_congr {t u : Stepper} {data : List Byte} (hm : u.blkmem = t.blkmem) (hn : u.nblk = t.nblk)
    (hl : u.ctx.msglen = t.ctx.msglen) (h : t.holdsMessage data) : u.holdsMessage data := by
  unfold Stepper.holdsMessage; rw [hm, hn, hl]; exact h

@[simp] theorem Stepper.entry_h (t : Stepper) (b : Nat) : (t.entry b).h = t.chainBefore b := rfl
@[simp] theorem Stepper.entry_msglen (t : Stepper) (b : Nat) : (t.entry b).msglen = t.ctx.msglen := rfl

/-- After all 64 steps and the fold the chaining values are those after the block. -/
theorem Stepper.entry_folded_h (t : Stepper) (b : Nat) : ((t.entry b).steps 64).fold.h = t.chainBefore (b + 1) := by
  rw [Stepper.chainBefore_succ, ← Stepper.entry_h t b, ← Context.compress_h]
  have hw : ((t.entry b).steps 64).w = (((t.entry b).loadBlk (t.blockBytes b)).initW.steps 64).w :=
    Context.steps_congr 64 _ _ rfl rfl
  have h1 : ((t.entry b).steps 64).h = (t.entry b).h := Context.steps_h 64 _
  have h2 : (((t.entry b).loadBlk (t.blockBytes b)).initW.steps 64).h = (t.entry b).h := Context.steps_h 64 _
  unfold Context.compress Context.fold
  simp only [hw, h1, h2]

/-! ## The transitions keep what a session shows -/

/-- The context a block is entered with is what LOADBLK and INITW make of any context with the right chaining values. -/
theorem Stepper.entry_of_ctx {t : Stepper} (b : Nat) (h : t.ctx.h = t.chainBefore b) :
    (t.ctx.loadBlk (t.blockBytes b)).initW = t.entry b := by
  unfold Stepper.entry; rw [← h]

/-- The first step of a block (R276, R279). -/
theorem Stepper.enterBlock_inStep {t : Stepper} (b : Nat) (hb : b < t.nblk.toNat) (h : t.ctx.h = t.chainBefore b) :
    (t.enterBlock b (t.blockBytes b)).isInStep := by
  have hlt : b < 2 ^ 64 := lt_trans hb t.nblk.isLt
  have hbn : (BitVec.ofNat 64 b).toNat = b := by rw [BitVec.toNat_ofNat, Nat.mod_eq_of_lt hlt]
  have hctx : t.enterBlock b (t.blockBytes b) =
      { t.withStep ((t.entry b).stepAt 0#6) with blkidx := BitVec.ofNat 64 b, stepidx := 0#6, phase := .inStep } := by
    unfold Stepper.enterBlock; rw [Stepper.entry_of_ctx b h]
  rw [hctx]
  generalize hu : ({ t.withStep ((t.entry b).stepAt 0#6) with
    blkidx := BitVec.ofNat 64 b, stepidx := 0#6, phase := .inStep } : Stepper) = u
  have hc : u.ctx = ((t.entry b).stepAt 0#6).1 := by rw [← hu]; rfl
  have hr : u.round = ((t.entry b).stepAt 0#6).2.round ∧ u.widx = ((t.entry b).stepAt 0#6).2.widx ∧
      u.pre = ((t.entry b).stepAt 0#6).2.pre := by rw [← hu]; exact ⟨rfl, rfl, rfl⟩
  have hi : u.blkidx.toNat = b := by rw [← hu]; exact hbn
  have hs : u.stepidx.toNat = 0 := by rw [← hu]; rfl
  have hnb : u.nblk = t.nblk := by rw [← hu]; rfl
  have hm : u.blkmem = t.blkmem := by rw [← hu]; rfl
  obtain ⟨-, -, he⟩ := Stepper.entry_congr hm (by rw [hc]; simp) b
  unfold Stepper.isInStep Stepper.recordOf
  rw [hi, hs, he, hnb, hc, Context.steps_succ, Context.steps_zero]
  exact ⟨hb, rfl, hr⟩

/-- One more step (R277). -/
theorem Stepper.nextStep_inStep {t : Stepper} (h : t.isInStep) (hs : t.stepidx.toNat < 63) : t.nextStep.isInStep := by
  obtain ⟨hb, hctx, -⟩ := h
  have hn : (t.stepidx + 1#6).toNat = t.stepidx.toNat + 1 := by rw [BitVec.toNat_add]; simp; omega
  have hi : BitVec.ofNat 6 (t.stepidx.toNat + 1) = t.stepidx + 1#6 := by
    apply BitVec.eq_of_toNat_eq; rw [hn, BitVec.toNat_ofNat, Nat.mod_eq_of_lt (by omega)]
  obtain ⟨-, -, he⟩ := Stepper.entry_congr (t := t) (u := t.nextStep) rfl (by simp [Stepper.nextStep]) t.blkidx.toNat
  unfold Stepper.isInStep Stepper.recordOf
  simp only [show t.nextStep.blkidx = t.blkidx from rfl, show t.nextStep.stepidx = t.stepidx + 1#6 from rfl, hn, hi, he, ← hctx]
  refine ⟨hb, ?_, rfl, rfl, rfl⟩
  rw [Context.steps_succ, ← hctx, hi]
  rfl

/-- The fold (R278). -/
theorem Stepper.foldBlock_folded {t : Stepper} (h : t.isInStep) (hs : ¬ t.stepidx.toNat < 63) : t.foldBlock.isFolded := by
  obtain ⟨hb, hctx, hr⟩ := h
  have h63 : t.stepidx = 63#6 := by
    apply BitVec.eq_of_toNat_eq; have := t.stepidx.isLt; simp; omega
  obtain ⟨-, -, he⟩ := Stepper.entry_congr (t := t) (u := t.foldBlock) rfl (by simp [Stepper.foldBlock]) t.blkidx.toNat
  rw [h63] at hctx hr
  refine ⟨hb, h63, ?_, ?_⟩
  · show t.ctx.fold = _
    rw [show t.foldBlock.blkidx = t.blkidx from rfl, he, hctx]
    rfl
  · unfold Stepper.recordOf at hr ⊢
    rw [show t.foldBlock.blkidx = t.blkidx from rfl, he]
    exact hr

/-- A folded block leaves the chaining values of the next block in `ST.H`. -/
theorem Stepper.folded_h {t : Stepper} (h : t.isFolded) : t.ctx.h = t.chainBefore (t.blkidx.toNat + 1) := by
  conv_lhs => rw [h.2.2.1]
  exact Stepper.entry_folded_h t _

/-- A new session holds its message and is `Ready` (R272). -/
theorem Stepper.create_holds (data : List Byte) (n : Nat) (h : data.length ≤ Config.maxMsgBytes) :
    (Stepper.create data n).holdsMessage data ∧ (Stepper.create data n).isReady :=
  ⟨⟨h, rfl, rfl, rfl⟩, rfl, rfl, rfl, rfl, rfl, rfl, rfl⟩

theorem Stepper.cleared_isClear (n : Nat) : (Stepper.cleared n).isClear := ⟨rfl, rfl, rfl, rfl, rfl, rfl, rfl, rfl, rfl⟩

/-- BLKMEM of a new session is in the canonical form. -/
theorem Stepper.create_wf (data : List Byte) (n : Nat) : (Stepper.create data n).blkmem.wf :=
  Memory.store_wf 0 (padMsg data) Memory.wf_nil

/-- `Ready` meets the condition to enter block 0. -/
theorem Stepper.ready_h {t : Stepper} (h : t.isReady) : t.ctx.h = t.chainBefore 0 := h.1

/-! ## What the transitions leave in each field -/

@[simp] theorem Stepper.enterBlock_blkmem (t : Stepper) (b : Nat) (blk : List Byte) : (t.enterBlock b blk).blkmem = t.blkmem := rfl
@[simp] theorem Stepper.enterBlock_nblk (t : Stepper) (b : Nat) (blk : List Byte) : (t.enterBlock b blk).nblk = t.nblk := rfl
@[simp] theorem Stepper.enterBlock_blkidx (t : Stepper) (b : Nat) (blk : List Byte) : (t.enterBlock b blk).blkidx = BitVec.ofNat 64 b := rfl
@[simp] theorem Stepper.enterBlock_stepidx (t : Stepper) (b : Nat) (blk : List Byte) : (t.enterBlock b blk).stepidx = 0#6 := rfl
@[simp] theorem Stepper.enterBlock_phase (t : Stepper) (b : Nat) (blk : List Byte) : (t.enterBlock b blk).phase = .inStep := rfl
@[simp] theorem Stepper.enterBlock_ctx (t : Stepper) (b : Nat) (blk : List Byte) : (t.enterBlock b blk).ctx = ((t.ctx.loadBlk blk).initW.stepAt 0#6).1 := rfl
@[simp] theorem Stepper.nextStep_blkmem (t : Stepper) : (t.nextStep).blkmem = t.blkmem := rfl
@[simp] theorem Stepper.nextStep_nblk (t : Stepper) : (t.nextStep).nblk = t.nblk := rfl
@[simp] theorem Stepper.nextStep_blkidx (t : Stepper) : (t.nextStep).blkidx = t.blkidx := rfl
@[simp] theorem Stepper.nextStep_stepidx (t : Stepper) : (t.nextStep).stepidx = t.stepidx + 1#6 := rfl
@[simp] theorem Stepper.nextStep_phase (t : Stepper) : (t.nextStep).phase = t.phase := rfl
@[simp] theorem Stepper.nextStep_ctx (t : Stepper) : (t.nextStep).ctx = (t.ctx.stepAt (t.stepidx + 1#6)).1 := rfl
@[simp] theorem Stepper.foldBlock_blkmem (t : Stepper) : (t.foldBlock).blkmem = t.blkmem := rfl
@[simp] theorem Stepper.foldBlock_nblk (t : Stepper) : (t.foldBlock).nblk = t.nblk := rfl
@[simp] theorem Stepper.foldBlock_blkidx (t : Stepper) : (t.foldBlock).blkidx = t.blkidx := rfl
@[simp] theorem Stepper.foldBlock_stepidx (t : Stepper) : (t.foldBlock).stepidx = t.stepidx := rfl
@[simp] theorem Stepper.foldBlock_phase (t : Stepper) : (t.foldBlock).phase = .blockBoundary := rfl
@[simp] theorem Stepper.foldBlock_ctx (t : Stepper) : (t.foldBlock).ctx = t.ctx.fold := rfl
@[simp] theorem Stepper.foldBlock_round (t : Stepper) : (t.foldBlock).round = t.round := rfl
@[simp] theorem Stepper.foldBlock_widx (t : Stepper) : (t.foldBlock).widx = t.widx := rfl
@[simp] theorem Stepper.foldBlock_pre (t : Stepper) : (t.foldBlock).pre = t.pre := rfl

/-- No transition writes `MSGLEN` (R275). -/
@[simp] theorem Stepper.enterBlock_msglen (t : Stepper) (b : Nat) (blk : List Byte) : (t.enterBlock b blk).ctx.msglen = t.ctx.msglen := by
  rw [Stepper.enterBlock_ctx, Context.stepAt_msglen, Context.initW_msglen, Context.loadBlk_msglen]
@[simp] theorem Stepper.nextStep_msglen (t : Stepper) : t.nextStep.ctx.msglen = t.ctx.msglen := by
  rw [Stepper.nextStep_ctx, Context.stepAt_msglen]
@[simp] theorem Stepper.foldBlock_msglen (t : Stepper) : t.foldBlock.ctx.msglen = t.ctx.msglen := rfl

end Sys2Proof.Machine
end

