-- ==== Sys2Proof/Laws/Step.lean ====
section
/-! SUPPORT. What a command and a step can do, said once: how a digest command ends, what `STPADV` does in each phase, and what a step is. -/

namespace Sys2Proof.Machine

/-- The end of a digest command that answers a next state (R210, R217, R240): delivered, faulted or cancelled. -/
theorem State.finish_next {e : End} {s t : State} (h : s.finish e = .next t) :
    (e = .done ∧ t = (s.deliver s.sc.ctx.h).dropSC.respond .digest .none) ∨
      (∃ c, e = .failed c ∧ t = s.dropSC.raiseFault c) ∨ (e = .cancelled ∧ t = s.dropSC.respond .cancelled .none) := by
  cases e with
  | done => exact .inl ⟨rfl, (Host.Outcome.next.inj h).symm⟩
  | failed c => exact .inr (.inl ⟨c, rfl, (Host.Outcome.next.inj h).symm⟩)
  | cancelled => exact .inr (.inr ⟨rfl, (Host.Outcome.next.inj h).symm⟩)
  | endless => cases h
  | refused r => cases h

/-- A digest command stops with a fault only when its source never ends. -/
theorem State.finish_fault {e : End} {s : State} {f : Fault} (h : s.finish e = .fault f) : e = .endless ∧ f = .neverCompletes := by
  cases e with
  | endless => exact ⟨rfl, (Host.Outcome.fault.inj h).symm⟩
  | done => cases h
  | failed c => cases h
  | cancelled => cases h
  | refused r => cases h

theorem State.finish_fault_iff (x : End) (s : State) (f : Fault) : s.finish x = .fault f ↔ x = .endless ∧ f = .neverCompletes := by
  constructor
  · exact State.finish_fault
  · rintro ⟨rfl, rfl⟩; rfl

/-- What `finish` leaves unchanged when it answers a next state: all but the result registers, `SC`, the status and the count of free values. -/
theorem State.finish_frame {e : End} {s t : State} (h : s.finish e = .next t) :
    t.srcid = s.srcid ∧ t.st = s.st ∧ t.dd = s.dd ∧ t.params = s.params ∧ t.env = s.env ∧ t.data = s.data ∧ t.host = s.host ∧
      t.stepReq = s.stepReq ∧ t.stepCtx = s.stepCtx ∧ t.rdata = s.rdata ∧
      (t.rkind ≠ .digest → t.digest = s.digest ∧ t.dighex = s.dighex) := by
  rcases State.finish_next h with ⟨-, rfl⟩ | ⟨c, -, rfl⟩ | ⟨-, rfl⟩ <;> simp

/-- The causes a digest command can end with (R311): those of classes (a) and (b). -/
def ioCause (c : Cause) : Prop := c ∈ [Cause.ioNotFound, .ioOpen, .ioRead, .ioNotDir, .ioScan, .ioEmpty]

theorem digestLoop_cause (fuel : Nat) (first : Bool) (src : Source) (c : Streaming) (e : Env) (x : Cause)
    (h : (digestLoop fuel first src c e).how = .failed x) : x = .ioRead := by
  induction fuel generalizing first src c e with
  | zero => cases h
  | succ fuel ih =>
    unfold digestLoop at h
    generalize (if first then (false, e) else e.cancelPoll) = p at h
    obtain ⟨stop, f⟩ := p
    dsimp only at h
    split at h
    · cases h
    · revert h
      cases (f.srcRead src).1 with
      | fail => intro h; exact (End.failed.inj h).symm
      | window w =>
        dsimp only
        split
        · intro h; cases h
        · split
          · exact ih _ _ _ _
          · intro h; cases h

theorem digestFile_cause (id : Word) (c : Streaming) (e : Env) (x : Cause) (h : (digestFile id c e).how = .failed x) : ioCause x := by
  unfold digestFile at h
  dsimp only at h
  revert h
  cases (e.openFile id).1 with
  | notFound => intro h; cases h; simp [ioCause]
  | fail => intro h; cases h; simp [ioCause]
  | opened k => intro h; rw [digestLoop_cause _ _ _ _ _ x h]; simp [ioCause]

theorem walkLoop_cause (p : Params) (c : Streaming) (fuel : Nat) (d : Directory) (e : Env) (x : Cause)
    (h : (walkLoop p c fuel d e).how = .failed x) : x = .ioScan := by
  induction fuel generalizing d e with
  | zero => cases h
  | succ fuel ih =>
    unfold walkLoop at h
    rcases hw : d.work with _ | ⟨⟨pre, id⟩, rest⟩
    · rw [hw] at h; cases h
    · rw [hw] at h
      dsimp only at h
      revert h
      cases (e.scan id).1 with
      | notDir => intro h; cases h; rfl
      | fail => intro h; cases h; rfl
      | entries l =>
        dsimp only
        split
        · exact ih _ _
        · intro h; cases h

theorem enumerate_cause (p : Params) (root : Word) (c : Streaming) (e : Env) (x : Cause)
    (h : (enumerate p root c e).how = .failed x) : ioCause x := by
  unfold enumerate at h
  dsimp only at h
  revert h
  cases (e.scan root).1 with
  | notDir => intro h; cases h; simp [ioCause]
  | fail => intro h; cases h; simp [ioCause]
  | entries l =>
    dsimp only
    split
    · intro h; rw [walkLoop_cause _ _ _ _ _ x h]; simp [ioCause]
    · intro h; cases h

theorem hashFiles_cause (ents : List (List Byte × Word)) (first : Bool) (c : Streaming) (d : Directory) (e : Env) (x : Cause)
    (h : (hashFiles ents first c d e).how = .failed x) : ioCause x := by
  induction ents generalizing first c d e with
  | nil => cases h
  | cons y ents ih =>
    obtain ⟨key, id⟩ := y
    unfold hashFiles at h
    generalize (if first then (false, e) else e.cancelPoll) = p at h
    obtain ⟨stop, f⟩ := p
    dsimp only at h
    split at h
    · cases h
    · revert h
      cases hh : (digestFile id c f).how with
      | done => exact ih _ _ _ _
      | failed z => intro h; cases h; exact digestFile_cause id c f x hh
      | cancelled => intro h; cases h
      | endless => intro h; cases h
      | refused r => intro h; cases h

theorem hashDirectory_cause (p : Params) (root : Word) (c : Streaming) (e : Env) (x : Cause)
    (h : (hashDirectory p root c e).how = .failed x) : ioCause x := by
  unfold hashDirectory at h
  dsimp only at h
  revert h
  cases he : (enumerate p root c e).how with
  | failed z => intro h; rw [he] at h; cases h; exact enumerate_cause p root c e x he
  | cancelled => intro h; rw [he] at h; cases h
  | endless => intro h; rw [he] at h; cases h
  | refused r => intro h; rw [he] at h; cases h
  | done =>
    dsimp only
    unfold hashEntries
    split
    · intro h; cases h; simp [ioCause]
    · split
      · dsimp only
        cases hf : (hashFiles (sortEntries (enumerate p root c e).dd.ent) true (enumerate p root c e).sc (enumerate p root c e).dd
          (enumerate p root c e).env).how with
        | failed z => intro h; rw [hf] at h; cases h; exact hashFiles_cause _ _ _ _ _ x hf
        | cancelled => intro h; rw [hf] at h; cases h
        | endless => intro h; rw [hf] at h; cases h
        | refused r => intro h; rw [hf] at h; cases h
        | done =>
          dsimp only
          unfold digestHexcat
          generalize (if (hashFiles (sortEntries (enumerate p root c e).dd.ent) true (enumerate p root c e).sc
            (enumerate p root c e).dd (enumerate p root c e).env).dd.ent.isEmpty then _ else _ : Bool × Env) = q
          obtain ⟨stop, f⟩ := q
          dsimp only
          split
          · intro h; cases h
          · intro h; rw [digestLoop_cause _ _ _ _ _ x h]; simp [ioCause]
      · intro h; cases h

/-! ## How HASHD ends -/

theorem exec_hashd (s : State) : exec .hashd s =
    ((s.withDirRun (hashDirectory s.params s.srcid s.sc s.env)).dropDD).finish (hashDirectory s.params s.srcid s.sc s.env).how := rfl

/-- `HASHD` after work that failed: the cause, and nothing delivered (R240, R320). -/
theorem execHashd_failed {s : State} {x : Cause} {c : Streaming} {d : Directory} {e : Env}
    (h : hashDirectory s.params s.srcid s.sc s.env = ⟨.failed x, c, d, e⟩) :
    ∃ t, exec .hashd s = .next t ∧ t.rkind = .error ∧ t.cause = x ∧ t.digest = s.digest ∧ t.dighex = s.dighex ∧ t.env = e := by
  refine ⟨_, by simp only [exec, execHashd]; rw [h]; rfl, ?_⟩
  simp [State.withDirRun]

/-- After work that was cancelled (R325). -/
theorem execHashd_cancelled {s : State} {c : Streaming} {d : Directory} {e : Env}
    (h : hashDirectory s.params s.srcid s.sc s.env = ⟨.cancelled, c, d, e⟩) :
    ∃ t, exec .hashd s = .next t ∧ t.rkind = .cancelled ∧ t.cause = .none ∧ t.digest = s.digest ∧ t.dighex = s.dighex ∧ t.env = e := by
  refine ⟨_, by simp only [exec, execHashd]; rw [h]; rfl, ?_⟩
  simp [State.withDirRun]

/-- After work that completed: the digest in `SC` is delivered (R220, R252). -/
theorem execHashd_done {s : State} {c : Streaming} {d : Directory} {e : Env}
    (h : hashDirectory s.params s.srcid s.sc s.env = ⟨.done, c, d, e⟩) :
    ∃ t, exec .hashd s = .next t ∧ t.rkind = .digest ∧ t.cause = .none ∧ t.digest = c.ctx.h ∧ t.dighex = packHex (render c.ctx.h) ∧ t.env = e := by
  refine ⟨_, by simp only [exec, execHashd]; rw [h]; rfl, ?_⟩
  simp [State.withDirRun]

/-! ## STPADV by phase -/

theorem execStpadv_noSession {s : State} (h : s.st.phase = .noSession) : execStpadv s = .next (s.raiseFault .stateNoSession) := by
  simp [execStpadv, h]

theorem execStpadv_completed {s : State} (h : s.st.phase = .completed) : execStpadv s = .next (s.respond .already .stateCompleted) := by
  simp [execStpadv, h]

theorem execStpadv_ready {s : State} (h : s.st.phase = .ready) (hb : 0 < s.st.nblk.toNat) :
    execStpadv s = .next ({ s with st := s.st.enterBlock 0 (s.st.blockBytes 0) }.respond .step .none) := by
  unfold execStpadv State.advanceInto; rw [h, Stepper.block_eq 0 hb]

theorem execStpadv_step {s : State} (h : s.st.phase = .inStep) (hs : s.st.stepidx.toNat < 63) :
    execStpadv s = .next ({ s with st := s.st.nextStep }.respond .step .none) := by
  unfold execStpadv; rw [h]; dsimp only; rw [if_pos hs]

theorem execStpadv_fold {s : State} (h : s.st.phase = .inStep) (hs : ¬ s.st.stepidx.toNat < 63) :
    execStpadv s = .next ({ s with st := s.st.foldBlock }.respond .boundary .none) := by
  unfold execStpadv; rw [h]; dsimp only; rw [if_neg hs]

theorem execStpadv_nextBlock {s : State} (h : s.st.phase = .blockBoundary) (hb : s.st.blkidx.toNat + 1 < s.st.nblk.toNat) :
    execStpadv s =
      .next ({ s with st := s.st.enterBlock (s.st.blkidx.toNat + 1) (s.st.blockBytes (s.st.blkidx.toNat + 1)) }.respond .step .none) := by
  unfold execStpadv State.advanceInto; rw [h]; dsimp only; rw [if_pos hb, Stepper.block_eq _ hb]

theorem execStpadv_complete {s : State} (h : s.st.phase = .blockBoundary) (hb : s.st.blkidx.toNat + 1 = s.st.nblk.toNat) :
    execStpadv s = .next s.completeSession := by
  unfold execStpadv; rw [h]; dsimp only; rw [if_neg (by omega), if_pos hb]

/-- THE TRANSITIONS OF `STPADV` (R275): if it answers a next state, one of the seven rows of the table, with its condition. -/
theorem execStpadv_next {s t : State} (h : execStpadv s = .next t) :
    (s.st.phase = .noSession ∧ t = s.raiseFault .stateNoSession) ∨
    (s.st.phase = .ready ∧ 0 < s.st.nblk.toNat ∧ t = { s with st := s.st.enterBlock 0 (s.st.blockBytes 0) }.respond .step .none) ∨
    (s.st.phase = .inStep ∧ s.st.stepidx.toNat < 63 ∧ t = { s with st := s.st.nextStep }.respond .step .none) ∨
    (s.st.phase = .inStep ∧ ¬ s.st.stepidx.toNat < 63 ∧ t = { s with st := s.st.foldBlock }.respond .boundary .none) ∨
    (s.st.phase = .blockBoundary ∧ s.st.blkidx.toNat + 1 < s.st.nblk.toNat ∧
      t = { s with st := s.st.enterBlock (s.st.blkidx.toNat + 1) (s.st.blockBytes (s.st.blkidx.toNat + 1)) }.respond .step .none) ∨
    (s.st.phase = .blockBoundary ∧ s.st.blkidx.toNat + 1 = s.st.nblk.toNat ∧ t = s.completeSession) ∨
    (s.st.phase = .completed ∧ t = s.respond .already .stateCompleted) := by
  have key : ∀ {u : State}, execStpadv s = .next u → t = u := fun hu => Host.Outcome.next.inj (h.symm.trans hu)
  cases hp : s.st.phase with
  | noSession => exact .inl ⟨rfl, key (execStpadv_noSession hp)⟩
  | ready =>
    by_cases hb : 0 < s.st.nblk.toNat
    · exact .inr (.inl ⟨rfl, hb, key (execStpadv_ready hp hb)⟩)
    · exfalso; unfold execStpadv State.advanceInto at h; rw [hp, Stepper.block_none 0 hb] at h; cases h
  | inStep =>
    by_cases hs : s.st.stepidx.toNat < 63
    · exact .inr (.inr (.inl ⟨rfl, hs, key (execStpadv_step hp hs)⟩))
    · exact .inr (.inr (.inr (.inl ⟨rfl, hs, key (execStpadv_fold hp hs)⟩)))
  | blockBoundary =>
    by_cases hb : s.st.blkidx.toNat + 1 < s.st.nblk.toNat
    · exact .inr (.inr (.inr (.inr (.inl ⟨rfl, hb, key (execStpadv_nextBlock hp hb)⟩))))
    · by_cases he : s.st.blkidx.toNat + 1 = s.st.nblk.toNat
      · exact .inr (.inr (.inr (.inr (.inr (.inl ⟨rfl, he, key (execStpadv_complete hp he)⟩)))))
      · exfalso; unfold execStpadv at h; rw [hp] at h; dsimp only at h; rw [if_neg hb, if_neg he] at h; cases h
  | completed => exact .inr (.inr (.inr (.inr (.inr (.inr ⟨rfl, key (execStpadv_completed hp)⟩)))))

/-- The last transition changes the phase only, so what was folded still is. -/
theorem Stepper.isFolded_completed {t : Stepper} (h : t.isFolded) : ({ t with phase := .completed } : Stepper).isFolded := by
  obtain ⟨h1, h2, h3, h4⟩ := h
  obtain ⟨-, -, he⟩ := Stepper.entry_congr (t := t) (u := { t with phase := .completed }) rfl rfl t.blkidx.toNat
  unfold Stepper.isFolded
  refine ⟨h1, h2, ?_, ?_⟩
  · dsimp only; rw [he]; exact h3
  · unfold Stepper.recordOf at h4 ⊢
    dsimp only at h4 ⊢
    rw [he]; exact h4

theorem Stepper.inStep_ok {t : Stepper} (hp : t.phase = .inStep) (h : ∃ d, t.holdsMessage d) (h2 : t.isInStep) : t.ok := by
  unfold Stepper.ok; rw [hp]; exact ⟨h, h2⟩

theorem Stepper.folded_ok {t : Stepper} (hp : t.phase = .blockBoundary) (h : ∃ d, t.holdsMessage d) (h2 : t.isFolded) : t.ok := by
  unfold Stepper.ok; rw [hp]; exact ⟨h, h2⟩

/-- `STPADV` keeps what `ST` shows in each phase (R275, R290). -/
theorem execStpadv_ok {s t : State} (ho : s.st.ok) (h : execStpadv s = .next t) : t.st.ok := by
  rcases execStpadv_next h with ⟨hp, rfl⟩ | ⟨hp, hb, rfl⟩ | ⟨hp, hs, rfl⟩ | ⟨hp, hs, rfl⟩ | ⟨hp, hb, rfl⟩ | ⟨hp, hb, rfl⟩ | ⟨hp, rfl⟩
  · exact ho
  · unfold Stepper.ok at ho; rw [hp] at ho
    obtain ⟨⟨data, hd⟩, hr⟩ := ho
    rw [State.respond_st]
    exact Stepper.inStep_ok (Stepper.enterBlock_phase _ _ _) ⟨data, Stepper.holdsMessage_congr (Stepper.enterBlock_blkmem _ _ _) (Stepper.enterBlock_nblk _ _ _) (Stepper.enterBlock_msglen _ _ _) hd⟩ (Stepper.enterBlock_inStep 0 hb (Stepper.ready_h hr))
  · unfold Stepper.ok at ho; rw [hp] at ho
    obtain ⟨⟨data, hd⟩, hr⟩ := ho
    rw [State.respond_st]
    exact Stepper.inStep_ok ((Stepper.nextStep_phase _).trans hp) ⟨data, Stepper.holdsMessage_congr (Stepper.nextStep_blkmem _) (Stepper.nextStep_nblk _) (Stepper.nextStep_msglen _) hd⟩ (Stepper.nextStep_inStep hr hs)
  · unfold Stepper.ok at ho; rw [hp] at ho
    obtain ⟨⟨data, hd⟩, hr⟩ := ho
    rw [State.respond_st]
    exact Stepper.folded_ok (Stepper.foldBlock_phase _) ⟨data, Stepper.holdsMessage_congr (Stepper.foldBlock_blkmem _) (Stepper.foldBlock_nblk _) (Stepper.foldBlock_msglen _) hd⟩ (Stepper.foldBlock_folded hr hs)
  · unfold Stepper.ok at ho; rw [hp] at ho
    obtain ⟨⟨data, hd⟩, hr⟩ := ho
    rw [State.respond_st]
    exact Stepper.inStep_ok (Stepper.enterBlock_phase _ _ _) ⟨data, Stepper.holdsMessage_congr (Stepper.enterBlock_blkmem _ _ _) (Stepper.enterBlock_nblk _ _ _) (Stepper.enterBlock_msglen _ _ _) hd⟩ (Stepper.enterBlock_inStep _ hb (Stepper.folded_h hr))
  · unfold Stepper.ok at ho; rw [hp] at ho
    obtain ⟨⟨data, hd⟩, hr⟩ := ho
    show Stepper.ok { s.st with phase := .completed }
    exact ⟨⟨data, hd⟩, Stepper.isFolded_completed hr, hb⟩
  · exact ho

/-- `STPADV` writes neither BLKMEM nor `NBLK` nor `MSGLEN`. -/
theorem execStpadv_memory {s t : State} (ho : s.st.blkmem.wf) (h : execStpadv s = .next t) : t.st.blkmem.wf ∧ t.st.blkmem = s.st.blkmem ∧ t.st.nblk = s.st.nblk ∧ t.st.ctx.msglen = s.st.ctx.msglen := by
  rcases execStpadv_next h with ⟨hp, rfl⟩ | ⟨hp, hb, rfl⟩ | ⟨hp, hs, rfl⟩ | ⟨hp, hs, rfl⟩ | ⟨hp, hb, rfl⟩ | ⟨hp, hb, rfl⟩ | ⟨hp, rfl⟩
  · exact ⟨ho, rfl, rfl, rfl⟩
  · simp only [State.respond_st, Stepper.enterBlock_blkmem, Stepper.enterBlock_nblk, Stepper.enterBlock_msglen]; exact ⟨ho, trivial, trivial, trivial⟩
  · simp only [State.respond_st, Stepper.nextStep_blkmem, Stepper.nextStep_nblk, Stepper.nextStep_msglen]; exact ⟨ho, trivial, trivial, trivial⟩
  · simp only [State.respond_st, Stepper.foldBlock_blkmem, Stepper.foldBlock_nblk, Stepper.foldBlock_msglen]; exact ⟨ho, trivial, trivial, trivial⟩
  · simp only [State.respond_st, Stepper.enterBlock_blkmem, Stepper.enterBlock_nblk, Stepper.enterBlock_msglen]; exact ⟨ho, trivial, trivial, trivial⟩
  · exact ⟨ho, rfl, rfl, rfl⟩
  · exact ⟨ho, rfl, rfl, rfl⟩

/-- `STPNEW` with a next state: a source fault, or a new session over an admitted message (R270, R274). -/
theorem execStpnew_next {k : BitVec 2} {s t : State} (h : execStpnew k s = .next t) :
    (k ≠ 0#2 ∧ t = s.raiseFault .typeSource) ∨
    (k = 0#2 ∧ s.data.length ≤ Config.maxMsgBytes ∧ blkmemHolds s.params (nblkOf s.data.length) = true ∧
      t = { s with st := Stepper.create s.data s.draws, draws := s.draws + 1 }.respond .created .none) := by
  unfold execStpnew at h
  split at h
  · rename_i hk; exact .inl ⟨hk, (Host.Outcome.next.inj h).symm⟩
  · rename_i hk
    split at h
    · cases h
    · split at h
      · rename_i hl hc
        exact .inr ⟨not_not.mp hk, not_lt.mp hl, hc, (Host.Outcome.next.inj h).symm⟩
      · cases h

/-- `HASH` with a next state: a source fault, or the end of a digest computation (R210). -/
theorem execHash_next {k : BitVec 2} {s t : State} (h : execHash k s = .next t) :
    (s.sourceOf k = none ∧ t = s.raiseFault .typeSource) ∨
    (∃ src, s.sourceOf k = some src ∧ (s.withRun (digestOf src s.sc s.env)).finish (digestOf src s.sc s.env).how = .next t) := by
  unfold execHash at h
  cases hs : s.sourceOf k with
  | none => rw [hs] at h; exact .inl ⟨rfl, (Host.Outcome.next.inj h).symm⟩
  | some src => rw [hs] at h; exact .inr ⟨src, rfl, h⟩

/-! ## A step -/

/-- What a step does with each thing it can find (R33, R39, R72, R83, R334). -/
theorem step_stepNumber {s : State} {n : BitVec 6} (h : s.stepReq = some n) :
    step s = exec (decodeStep n) { s with stepReq := none } := by
  simp [step, State.fetch, h]

theorem step_idle {s : State} (h : s.stepReq = none) (hh : s.host = []) : step s = .next s := by
  simp [step, State.fetch, h, hh]

theorem step_reset {s : State} {rest : List HostOp} (h : s.stepReq = none) (hh : s.host = .reset :: rest) :
    step s = .next ({ s with host := rest } : State).resetEngine := by
  simp [step, State.fetch, State.transaction, h, hh]

theorem step_read {s : State} {off : Nat} {rest : List HostOp} (h : s.stepReq = none) (hh : s.host = .read off :: rest) :
    step s = if isRegOffset off then .next { s with host := rest, rdata := s.regRead off } else .refused .notATransaction := by
  have hr : ({ s with host := rest } : State).regRead off = s.regRead off := rfl
  cases hb : isRegOffset off
  · simp [step, State.fetch, State.transaction, h, hh, hb]
  · simp only [step, State.fetch, State.transaction, h, hh, hb, if_true]; rw [← hr, h]

theorem step_write {s : State} {off : Nat} {v : Word} {data : List Byte} {rest : List HostOp} (h : s.stepReq = none)
    (hh : s.host = .write off v data :: rest) (hoff : off ≠ 0) :
    step s = if isRegOffset off then .next (({ s with host := rest } : State).regWrite off v) else .refused .notATransaction := by
  cases hb : isRegOffset off <;> simp [step, State.fetch, State.transaction, h, hh, hb, hoff]

theorem step_command {s : State} {v : Word} {data : List Byte} {rest : List HostOp} (h : s.stepReq = none)
    (hh : s.host = .write 0x00 v data :: rest) :
    step s = match decodeCmd v with
      | .ok i => exec i { s with host := rest, data := data }
      | .error _ => .next (({ s with host := rest, data := data } : State).raiseFault .illegalCmd) := by
  simp only [step, State.fetch, State.transaction, State.command, h, hh, show isRegOffset 0x00 = true from rfl, if_true]
  cases decodeCmd v <;> rfl

/-- WHAT A STEP CAN DO: if it answers a next state, it ran an instruction, idled, was reset, or did a transaction on a register. -/
theorem step_next {s t : State} (h : step s = .next t) :
    (∃ n, s.stepReq = some n ∧ exec (decodeStep n) { s with stepReq := none } = .next t) ∨
    (s.stepReq = none ∧ (
      (s.host = [] ∧ t = s) ∨
      (∃ rest, s.host = .reset :: rest ∧ t = ({ s with host := rest } : State).resetEngine) ∨
      (∃ off rest, s.host = .read off :: rest ∧ t = { s with host := rest, rdata := s.regRead off }) ∨
      (∃ off v data rest, s.host = .write off v data :: rest ∧ off ≠ 0 ∧ t = ({ s with host := rest } : State).regWrite off v) ∨
      (∃ v data rest, s.host = .write 0x00 v data :: rest ∧
        ((∃ i, decodeCmd v = .ok i ∧ exec i { s with host := rest, data := data } = .next t) ∨
          t = ({ s with host := rest, data := data } : State).raiseFault .illegalCmd)))) := by
  rcases Option.eq_none_or_eq_some s.stepReq with hr | ⟨n, hr⟩
  · refine .inr ⟨hr, ?_⟩
    rcases hh : s.host with _ | ⟨op, rest⟩
    · rw [step_idle hr hh] at h; exact .inl ⟨rfl, (Host.Outcome.next.inj h).symm⟩
    · cases op with
      | reset => rw [step_reset hr hh] at h; exact .inr (.inl ⟨rest, rfl, (Host.Outcome.next.inj h).symm⟩)
      | read off =>
        rw [step_read hr hh] at h
        split at h
        · exact .inr (.inr (.inl ⟨off, rest, rfl, (Host.Outcome.next.inj h).symm⟩))
        · cases h
      | write off v data =>
        by_cases ho : off = 0
        · subst ho
          rw [step_command hr hh] at h
          refine .inr (.inr (.inr (.inr ⟨v, data, rest, rfl, ?_⟩)))
          rcases hd : decodeCmd v with r | i
          · rw [hd] at h; exact .inr (Host.Outcome.next.inj h).symm
          · rw [hd] at h; exact .inl ⟨i, rfl, h⟩
        · rw [step_write hr hh ho] at h
          split at h
          · exact .inr (.inr (.inr (.inl ⟨off, v, data, rest, rfl, ho, (Host.Outcome.next.inj h).symm⟩)))
          · cases h
  · rw [step_stepNumber hr] at h; exact .inl ⟨n, hr, h⟩

end Sys2Proof.Machine
end

