-- ==== Sys2Proof/Laws/Walk.lean ====
section
/-! SUPPORT. The walk's ends: one that completes has walked a finite tree, one that never ends was shown directories for ever, and what the walk has done
when it comes to any scan of its own (R242 to R245). -/

namespace Sys2Proof.Machine

/-- Any list of entries, with a content for each directory in it, is a tree. -/
theorem Forest.exists_subs (sep pre : List Byte) (l : List Entry) (ws : List (List Byte × Word × Forest))
    (h : dirEntries sep pre l = ws.map fun x => (x.1, x.2.1)) : ∃ f : Forest, f.entries = l ∧ f.subs sep pre = ws := by
  induction l generalizing ws with
  | nil => exact ⟨.nil, rfl, (List.map_eq_nil_iff.mp h.symm).symm⟩
  | cons x l ih =>
    obtain ⟨n, k, i⟩ := x
    cases k with
    | file => obtain ⟨f, h1, h2⟩ := ih ws (by simpa [dirEntries] using h); exact ⟨.file n i f, by simp [Forest.entries, h1], h2⟩
    | other => obtain ⟨f, h1, h2⟩ := ih ws (by simpa [dirEntries] using h); exact ⟨.other n i f, by simp [Forest.entries, h1], h2⟩
    | dir =>
      rcases ws with _ | ⟨⟨q, j, c⟩, ws⟩
      · simp [dirEntries] at h
      · have h' : (pre ++ n ++ sep, i) = (q, j) ∧ dirEntries sep pre l = ws.map fun x => (x.1, x.2.1) := by simpa [dirEntries] using h
        obtain ⟨rfl, rfl⟩ := Prod.mk.inj h'.1
        obtain ⟨f, h1, h2⟩ := ih ws h'.2
        exact ⟨.dir n i c f, by simp [Forest.entries, h1], by simp [Forest.subs, h2]⟩

/-- The scan answers to come: those listed, then the later one. -/
theorem Env.scan_answers (e : Env) (n : Nat) (id : Word) :
    e.scans ++ List.replicate (n + 1) e.later.scan = (e.scan id).1 :: ((e.scan id).2.scans ++ List.replicate (if e.scans = [] then n else n + 1) e.later.scan) := by
  cases hs : e.scans with
  | nil => simp [hs, List.replicate_succ]
  | cons a as => simp [hs]

/-- A walk that completes is one over finite trees: the converse of `walkLoop_forest`. -/
theorem walkLoop_done_forest (p : Params) (c : Streaming) (fuel : Nat) (d : Directory) (e : Env) (h : (walkLoop p c fuel d e).how = .done) :
    ∃ (ws : List (List Byte × Word × Forest)) (n : Nat), d.work = ws.map (fun x => (x.1, x.2.1)) ∧
      (ws.flatMap fun x => x.2.2.scans) <+: e.scans ++ List.replicate n e.later.scan ∧
      (walkLoop p c fuel d e).dd.ent.Perm (d.ent ++ ws.flatMap fun x => x.2.2.files p.pathSep x.1) ∧
      (walkLoop p c fuel d e).env.seen = ((ws.flatMap fun x => x.2.1 :: x.2.2.dirs).map Request.envScan).reverse ++ e.seen ∧
      (d.fits p = true → (walkLoop p c fuel d e).dd.fits p = true) := by
  induction fuel generalizing d e with
  | zero => simp [walkLoop] at h
  | succ fuel ih =>
    unfold walkLoop at h ⊢
    rcases hw : d.work with _ | ⟨⟨pre, id⟩, rest⟩
    · exact ⟨[], 0, rfl, by simp, by simp, by simp, fun hf => hf⟩
    · rw [hw] at h
      simp only at h ⊢
      rcases ha : (e.scan id).1 with l | - | -
      · simp only [ha] at h ⊢
        split at h
        · rename_i hfit
          rw [if_pos hfit]
          obtain ⟨ws, n, h1, h2, h3, h4, h5⟩ := ih _ _ h
          rw [Directory.enter_work] at h1
          obtain ⟨ws1, ws2, rfl, e1, e2⟩ := List.map_eq_append_iff.mp h1.symm
          obtain ⟨f, f1, f2⟩ := Forest.exists_subs p.pathSep pre l ws1 e1.symm
          refine ⟨(pre, id, f) :: ws2, n + 1, by simp; exact e2.symm, ?_, ?_, ?_, fun _ => h5 hfit⟩
          · rw [Env.scan_answers e n id, ha, List.flatMap_cons, Forest.scans, f1, List.cons_append, Forest.answers_subs p.pathSep pre, f2,
              ← List.flatMap_append]
            refine (List.prefix_cons_inj _).mpr (h2.trans ?_)
            simp only [Env.scan_later]
            split
            · exact List.prefix_refl _
            · exact (List.prefix_append_right_inj _).mpr ⟨[e.later.scan], by simp [List.replicate_succ']⟩
          · refine h3.trans ?_
            simp only [Directory.enter_ent, List.append_assoc, List.flatMap_append, List.flatMap_cons]
            refine List.Perm.append_left _ ?_
            rw [← List.append_assoc]
            refine List.Perm.append_right _ ?_
            rw [← f1, ← f2]
            exact (Forest.files_subs p.pathSep pre f).symm
          · rw [h4]
            simp [Forest.dirs_subs p.pathSep pre f, f2]
        · simp at h
      · simp only [ha] at h; cases h
      · simp only [ha] at h; cases h

/-- An enumeration that completes is one of a finite tree (R243). -/
theorem enumerate_done_forest (p : Params) (root : Word) (c : Streaming) (e : Env) (h : (enumerate p root c e).how = .done) :
    ∃ (f : Forest) (n : Nat), (enumerate p root c e).dd.ent.Perm (f.files p.pathSep []) ∧ tableHolds p (enumerate p root c e).dd.ent.length ∧
      f.scans <+: e.scans ++ List.replicate n e.later.scan ∧ (enumerate p root c e).env.seen = ((root :: f.dirs).map Request.envScan).reverse ++ e.seen := by
  unfold enumerate at h ⊢
  dsimp only at h ⊢
  rcases ha : (e.scan root).1 with l | - | -
  · simp only [ha] at h ⊢
    split at h
    · rename_i hfit
      rw [if_pos hfit]
      obtain ⟨ws, n, h1, h2, h3, h4, h5⟩ := walkLoop_done_forest _ _ _ _ _ h
      rw [Directory.enter_work, show Directory.empty.work = [] from rfl, List.append_nil] at h1
      obtain ⟨f, f1, f2⟩ := Forest.exists_subs p.pathSep [] l ws h1
      refine ⟨f, n + 1, ?_, (Directory.fits_iff _ _).mp (h5 hfit), ?_, ?_⟩
      · refine h3.trans ?_
        rw [Directory.enter_ent, show Directory.empty.ent = [] from rfl, List.nil_append, ← f1, ← f2]
        exact (Forest.files_subs p.pathSep [] f).symm
      · rw [Env.scan_answers e n root, ha, Forest.scans, f1, Forest.answers_subs p.pathSep [], f2]
        refine (List.prefix_cons_inj _).mpr (h2.trans ?_)
        simp only [Env.scan_later]
        split
        · exact List.prefix_refl _
        · exact (List.prefix_append_right_inj _).mpr ⟨[e.later.scan], by simp [List.replicate_succ']⟩
      · rw [h4]
        simp [Forest.dirs_subs p.pathSep [] f, f2]
    · simp at h
  · simp only [ha] at h; cases h
  · simp only [ha] at h; cases h

theorem presented_cons (k : EntryKind) (l : List Entry) (ls : List (List Entry)) :
    presented k (l :: ls) = (l.countP fun e => e.kind = k) + presented k ls := by simp [presented]

/-- The number of files does not depend on keys. -/
theorem length_fileEntries (pre : List Byte) (l : List Entry) : (fileEntries pre l).length = (l.countP fun e => e.kind = .file) := by
  induction l with
  | nil => rfl
  | cons e l ih => by_cases h : e.kind = .file <;> simp_all [fileEntries]

theorem ScanAnswer.dirs_entries (l : List Entry) : (ScanAnswer.entries l).dirs = l.countP fun e => e.kind = .dir := length_dirEntries _ _ _

theorem Env.scan_cons (id : Word) (e : Env) (a : ScanAnswer) (as : List ScanAnswer) (h : e.scans = a :: as) :
    e.scan id = (a, { e with scans := as, seen := .envScan id :: e.seen }) := by
  unfold Env.scan; simp only [h]; rfl

/-- While directories are still to scan, the scans answer with entries, and the table holds the files, the walk goes on (R243). -/
theorem walkLoop_run (p : Params) (c : Streaming) (ls : List (List Entry)) (more : List ScanAnswer) (d : Directory) (e : Env)
    (hs : e.scans = ls.map ScanAnswer.entries ++ more) (hw : ∀ j, j ≤ ls.length → j < d.work.length + presented .dir (ls.take j))
    (ht : tableHolds p (d.ent.length + presented .file ls)) :
    ∃ (d' : Directory) (ids : List Word), ids.length = ls.length ∧ d'.work ≠ [] ∧ ∀ fuel, walkLoop p c (ls.length + fuel) d e =
      walkLoop p c fuel d' { e with scans := more, seen := (ids.map Request.envScan).reverse ++ e.seen } := by
  induction ls generalizing d e with
  | nil =>
    have := hw 0 (by simp)
    refine ⟨d, [], rfl, ?_, fun fuel => ?_⟩
    · intro h; simp [h, presented] at this
    · simp at hs ⊢; rw [← hs]
  | cons l ls ih =>
    have h0 := hw 0 (by simp)
    rcases hwk : d.work with _ | ⟨⟨pre, id⟩, rest⟩
    · simp [hwk, presented] at h0
    · have hsc := Env.scan_cons id e (.entries l) (ls.map ScanAnswer.entries ++ more) (by rw [hs]; rfl)
      obtain ⟨d', ids, h1, h2, h3⟩ := ih ({ d with work := rest }.enter p.pathSep pre l) { e with scans := ls.map ScanAnswer.entries ++ more, seen := .envScan id :: e.seen } rfl
        (by
          intro j hj
          have := hw (j + 1) (by simpa using hj)
          rw [hwk, List.take_succ_cons, presented_cons, List.length_cons] at this
          rw [Directory.enter_work, List.length_append, length_dirEntries]
          show j < _ + rest.length + _
          omega)
        (by
          rw [Directory.enter_ent, List.length_append, length_fileEntries]
          rw [presented_cons, ← Nat.add_assoc] at ht
          exact ht)
      refine ⟨d', id :: ids, by simp [h1], h2, fun fuel => ?_⟩
      rw [show (l :: ls).length + fuel = ls.length + fuel + 1 by simp; omega]
      have hfit : ({ d with work := rest }.enter p.pathSep pre l).fits p = true := by
        rw [Directory.fits_iff, Directory.enter_ent, List.length_append, length_fileEntries]
        rw [presented_cons, ← Nat.add_assoc] at ht
        exact tableHolds_mono ht (by simp)
      rw [walkLoop]
      simp only [hwk, hsc]
      rw [if_pos hfit, h3]
      simp

/-- A walk answered with a subdirectory for ever never ends (X6). -/
theorem walkLoop_later (p : Params) (c : Streaming) (fuel : Nat) (d : Directory) (e : Env) (l : List Entry) (hs : e.scans = [])
    (hl : e.later.scan = .entries l) (hp : 0 < presented .dir [l]) (hw : d.work ≠ []) (hc : p.dirMaxEntries = none) : (walkLoop p c fuel d e).how = .endless := by
  induction fuel generalizing d e with
  | zero => rfl
  | succ fuel ih =>
    rcases hwk : d.work with _ | ⟨⟨pre, id⟩, rest⟩
    · exact absurd hwk hw
    · rw [walkLoop]
      have h1 : (e.scan id).1 = .entries l := by simp [hs, hl]
      simp only [hwk, h1]
      rw [if_pos (by simp [Directory.fits, hc])]
      apply ih
      · simp [hs]
      · simpa using hl
      · rw [Directory.enter_work]
        intro h
        have := congrArg List.length h
        rw [List.length_append, length_dirEntries] at this
        simp [presented] at hp
        simp at this
        obtain ⟨a, ha, hk⟩ := hp
        exact this.1 a ha hk

/-- A walk ends at its bound only when it was answered so. -/
theorem walkLoop_endless (p : Params) (c : Streaming) (fuel : Nat) (d : Directory) (e : Env) (h : (walkLoop p c fuel d e).how = .endless)
    (hf : d.work.length + (e.scans.map ScanAnswer.dirs).sum < fuel) :
    ∃ (l : List Entry) (ls : List (List Entry)), e.scans = ls.map ScanAnswer.entries ∧ e.later.scan = .entries l ∧ 0 < presented .dir [l] ∧
      ∀ j, j ≤ ls.length → j < d.work.length + presented .dir (ls.take j) := by
  induction fuel generalizing d e with
  | zero => omega
  | succ fuel ih =>
    rw [walkLoop] at h
    rcases hwk : d.work with _ | ⟨⟨pre, id⟩, rest⟩
    · rw [hwk] at h; cases h
    · rw [hwk] at h hf
      rw [List.length_cons] at hf
      rcases ha : (e.scan id).1 with l0 | - | -
      · simp only [ha] at h
        split at h
        · have hlen : ({ d with work := rest }.enter p.pathSep pre l0).work.length = (l0.countP fun e => e.kind = .dir) + rest.length := by
            rw [Directory.enter_work, List.length_append, length_dirEntries]
          rcases hs : e.scans with _ | ⟨a, as⟩
          · have hl : e.later.scan = .entries l0 := by simpa [hs] using ha
            by_cases hp : 0 < presented .dir [l0]
            · refine ⟨l0, [], rfl, hl, hp, ?_⟩
              intro j hj
              simp at hj; subst hj
              simp
            · exfalso
              have hz : (l0.countP fun e => e.kind = .dir) = 0 := by rw [presented_cons] at hp; omega
              obtain ⟨l, ls, k1, k2, k3, k4⟩ := ih _ _ h (by rw [hlen, hz]; simp [hs] at hf ⊢; omega)
              rw [Env.scan_later, hl] at k2
              cases k2
              exact hp k3
          · have hsc := Env.scan_cons id e _ _ hs
            have ha' : a = .entries l0 := by rw [hsc] at ha; exact ha
            subst ha'
            rw [hsc] at h
            obtain ⟨l, ls, k1, k2, k3, k4⟩ := ih _ _ h (by rw [hlen]; rw [hs, List.map_cons, List.sum_cons, ScanAnswer.dirs_entries] at hf; dsimp only; omega)
            refine ⟨l, l0 :: ls, by simp only [List.map_cons]; rw [← k1], k2, k3, ?_⟩
            intro j hj
            cases j with
            | zero => simp
            | succ j =>
              have := k4 j (by simpa using hj)
              rw [hlen] at this
              rw [List.take_succ_cons, presented_cons, List.length_cons]
              omega
        · cases h
      · simp only [ha] at h; cases h
      · simp only [ha] at h; cases h

/-- An enumeration never ends only when the directories never do (X6). -/
theorem enumerate_endless (p : Params) (root : Word) (c : Streaming) (e : Env) (h : (enumerate p root c e).how = .endless) :
    ∃ (l : List Entry) (ls : List (List Entry)), e.scans = ls.map ScanAnswer.entries ∧ e.later.scan = .entries l ∧ 0 < presented .dir [l] ∧ walkGoesOn ls := by
  unfold enumerate at h
  dsimp only at h
  rcases ha : (e.scan root).1 with l0 | - | -
  · simp only [ha] at h
    split at h
    · obtain ⟨l, ls, k1, k2, k3, k4⟩ := walkLoop_endless _ _ _ _ _ h (by simp [walkFuel])
      rcases hs : e.scans with _ | ⟨a, as⟩
      · exact ⟨l, [], rfl, by simpa using k2, k3, fun j h0 hj => by simp at hj; omega⟩
      · have ha' : a = .entries l0 := by simpa [hs] using ha
        subst ha'
        refine ⟨l, l0 :: ls, by simp [← k1, hs], by simpa using k2, k3, ?_⟩
        intro j h0 hj
        obtain ⟨i, rfl⟩ : ∃ i, j = i + 1 := ⟨j - 1, by omega⟩
        have := k4 i (by simpa using hj)
        rw [Directory.enter_work, List.length_append, length_dirEntries] at this
        rw [List.take_succ_cons, presented_cons]
        simp [Directory.empty] at this
        omega
    · cases h
  · simp only [ha] at h; cases h
  · simp only [ha] at h; cases h

/-- The enumeration up to a scan at any point of the walk (R242, R243). -/
theorem enumerate_run (p : Params) (root : Word) (c : Streaming) (e : Env) (l : List Entry) (ls : List (List Entry)) (more : List ScanAnswer)
    (hs : e.scans = (l :: ls).map ScanAnswer.entries ++ more) (hg : walkGoesOn (l :: ls)) (ht : tableHolds p (presented .file (l :: ls))) :
    ∃ (d' : Directory) (ids : List Word) (fuel : Nat), ids.length = ls.length ∧ d'.work ≠ [] ∧ enumerate p root c e =
      walkLoop p c (fuel + 1) d' { e with scans := more, seen := ((root :: ids).map Request.envScan).reverse ++ e.seen } := by
  have hsc := Env.scan_cons root e (.entries l) (ls.map ScanAnswer.entries ++ more) (by rw [hs]; rfl)
  unfold enumerate
  simp only [hsc]
  rw [if_pos (by rw [Directory.fits_iff, Directory.enter_ent, List.length_append, length_fileEntries]; rw [presented_cons] at ht; exact tableHolds_mono ht (by simp [Directory.empty]))]
  have hw : ∀ j, j ≤ ls.length → j < (Directory.empty.enter p.pathSep [] l).work.length + presented .dir (ls.take j) := by
    intro j hj
    have := hg (j + 1) (by omega) (by simpa using hj)
    rw [List.take_succ_cons, presented_cons] at this
    rw [Directory.enter_work, List.length_append, length_dirEntries]
    omega
  obtain ⟨d', ids, h1, h2, h3⟩ := walkLoop_run p c ls more (Directory.empty.enter p.pathSep [] l) { e with scans := ls.map ScanAnswer.entries ++ more, seen := .envScan root :: e.seen } rfl hw
    (by rw [Directory.enter_ent, List.length_append, length_fileEntries]; rw [presented_cons] at ht; simpa [Directory.empty] using ht)
  have hfuel : ∃ fuel, walkFuel (Directory.empty.enter p.pathSep [] l) { e with scans := ls.map ScanAnswer.entries ++ more, seen := .envScan root :: e.seen } = ls.length + (fuel + 1) := by
    have := hw ls.length le_rfl
    rw [List.take_length] at this
    have hx : (ls.map (ScanAnswer.dirs ∘ ScanAnswer.entries)).sum = presented .dir ls := by
      unfold presented; congr 1; apply List.map_congr_left; intro x _; exact ScanAnswer.dirs_entries x
    have hy : walkFuel (Directory.empty.enter p.pathSep [] l) { e with scans := ls.map ScanAnswer.entries ++ more, seen := .envScan root :: e.seen } =
        (Directory.empty.enter p.pathSep [] l).work.length + (presented .dir ls + (more.map ScanAnswer.dirs).sum) + 1 := by
      unfold walkFuel
      simp only [List.map_append, List.sum_append, List.map_map, hx]
    refine ⟨(Directory.empty.enter p.pathSep [] l).work.length + (presented .dir ls + (more.map ScanAnswer.dirs).sum) - ls.length, ?_⟩
    rw [hy]; omega
  obtain ⟨fuel, hfuel⟩ := hfuel
  refine ⟨d', ids, fuel, h1, h2, ?_⟩
  rw [hfuel, h3]
  simp

end Sys2Proof.Machine
end

