-- ==== Sys2Proof/Tests/Slice0.lean ====
section
/-! SUPPORT. The model's own tests: ill-formed terms refused, words written out from the spec's encodings, one step per test with results
from `spec/95_test_vectors.md`; then, for every statement with hypotheses, a state and operands that meet them. -/

namespace Sys2Proof.Tests

open Sys2Proof Sys2Proof.Machine

/-! ## Helpers -/

/-- The bytes of "abc". -/
def abc : List Byte := [0x61, 0x62, 0x63]

/-- `n` bytes of "a". -/
def letterA (n : Nat) : List Byte := List.replicate n 0x61

/-- An environment with these answers, quiet after them. -/
def answers (reads : List ReadAnswer) (opens : List OpenAnswer) (scans : List ScanAnswer) (polls : List Bool) : Env :=
  { Env.quiet with reads := reads, opens := opens, scans := scans, polls := polls }

/-- The reset state with a data operand at the port. -/
def withData (d : List Byte) : State := { State.reset with data := d }

/-- The reset state with an identifier in `SRCID` and an environment. -/
def withEnv (id : Word) (e : Env) : State := { State.reset with srcid := id, env := e }

/-- The reset state with a host about to do one transaction. -/
def withOp (op : HostOp) : State := { State.reset with host := [op] }

/-- A word of `CMD` written after reset. -/
def command (w : Word) (d : List Byte) : State := withOp (.write 0x00 w d)

/-- The session of "abc" in `Ready`. -/
def ready : State := { State.reset with st := Stepper.create abc 0, rkind := .created }

/-- A session register set in `InStep(0, i)`. -/
def inStep (i : BitVec 6) (h : Chain) (w : Work) (nblk : Dword) : State :=
  { State.reset with
    st := { Stepper.zero with ctx := { Context.zero with h := h, w := w }, nblk := nblk, stepidx := i, phase := .inStep }, rkind := .step }

/-- A session at `BlockBoundary(0)` of `nblk` blocks over "abc". -/
def boundary (h : Chain) (nblk : Dword) : State :=
  { State.reset with
    st := { Stepper.zero with ctx := { Context.zero with h := h }, blkmem := Memory.store 0 (padMsg abc) [], nblk := nblk, stepidx := 63,
                              phase := .blockBoundary }
    rkind := .boundary }

/-- A session in `Completed`. -/
def completed : State := { State.reset with st := { Stepper.zero with nblk := 1, stepidx := 63, phase := .completed }, rkind := .complete }

/-- A context with the working registers of a row of V10 before its step, and the message words of "abc". -/
def beforeStep (a b c d : Word) : State :=
  { State.reset with st := { Stepper.zero with ctx := { Context.zero.loadBlk (padMsg abc) with w := ⟨a, b, c, d⟩ } } }

/-- A value of the next state. -/
def got {α : Type} (f : State → α) : Result → Option α
  | .next s => some (f s)
  | .fault _ => none
  | .refused _ => none

def isNext : Result → Bool
  | .next _ => true
  | .fault _ => false
  | .refused _ => false

/-- Why it was refused. -/
def refusal : Result → Option Refusal
  | .next _ => none
  | .fault _ => none
  | .refused r => some r

/-- Why it faulted. -/
def faulted : Result → Option Fault
  | .next _ => none
  | .fault f => some f
  | .refused _ => none

theorem fault_of_faulted {r : Result} {f : Fault} (h : faulted r = some f) : r = .fault f := by
  cases r with
  | next t => cases h
  | fault g => cases h; rfl
  | refused g => cases h

theorem next_of_isNext {r : Result} (h : isNext r = true) : ∃ t, r = .next t := by
  cases r with
  | next t => exact ⟨t, rfl⟩
  | fault f => cases h
  | refused f => cases h

/-- A short window. -/
def win (d : List Byte) : ReadAnswer := .window (Window.ofBytes d)

/-- The digest of "abc" (V2). -/
def abcDigest : Chain := ⟨0x98500190, 0xb04fd23c, 0x7d3f96d6, 0x727fe128⟩

/-- The digest of the empty message (V1). -/
def emptyDigest : Chain := ⟨0xd98c1dd4, 0x04b2008f, 0x980980e9, 0x7e42f8ec⟩

/-! ## WellFormed: an ill-formed term for each check (R102 checks 4 and 5, V50) -/

theorem test_hash_source_2_ill_formed : (Instr.hash 2).wellFormed = false := by decide
theorem test_hash_source_3_ill_formed : (Instr.hash 3).wellFormed = false := by decide
theorem test_stpnew_stream_ill_formed : (Instr.stpnew 1).wellFormed = false := by decide
theorem test_hash_stream_well_formed : (Instr.hash 1).wellFormed = true := by decide

/-! ## Decoding: words written out from R101, R103, R111 (V50, V14) -/

theorem test_decode_hash_bytes : decode [0b00000001, 0b00000000, 0, 0] = .ok (.hash 0) := by decide
theorem test_decode_hash_stream : decode [0b00000001, 0b00000001, 0, 0] = .ok (.hash 1) := by decide
theorem test_decode_hashf : decode [0b00000010, 0b00000000, 0, 0] = .ok .hashf := by decide
theorem test_decode_hashd : decode [0b00000011, 0b00000000, 0, 0] = .ok .hashd := by decide
theorem test_decode_stpnew : decode [0b00000100, 0b00000000, 0, 0] = .ok (.stpnew 0) := by decide
theorem test_decode_stpadv : decode [0b00000101, 0b00000000, 0, 0] = .ok .stpadv := by decide
theorem test_decode_stprst : decode [0b00000110, 0b00000000, 0, 0] = .ok .stprst := by decide
theorem test_decode_ff : decode [0b00001111] = .ok (.stepFF 15) := by decide
theorem test_decode_gg : decode [0b00010011] = .ok (.stepGG 3) := by decide
theorem test_decode_hh : decode [0b00101001] = .ok (.stepHH 9) := by decide
theorem test_decode_ii : decode [0b00111110] = .ok (.stepII 14) := by decide

theorem test_decode_opc_0 : decode [0x00, 0, 0, 0] = .error .unknownOpcode := by decide
theorem test_decode_opc_7_source_2 : decode [0x07, 0x02, 0, 0] = .error .unknownOpcode := by decide
theorem test_decode_bit_10 : decode [0x01, 0x06, 0, 0] = .error .reservedBits := by decide
theorem test_decode_bit_31 : decode [0x05, 0, 0, 0x80] = .error .reservedBits := by decide
theorem test_decode_unused_source : decode [0x02, 0x01, 0, 0] = .error .unusedSrck := by decide
theorem test_decode_step_64 : decode [0b01000000] = .error .notAStepNumber := by decide
theorem test_decode_two_bytes : decode [0x01, 0x00] = .error .badLength := by decide

theorem test_table_word_stpnew : decodeTableWord 32 0x00000004 = some (.stpnew 0) := by decide
theorem test_table_word_hh : decodeTableWord 8 0x20 = some (.stepHH 0) := by decide
theorem test_no_table_word : decodeTableWord 32 0x00000105 = none := by decide

/-! ## Primitives (V12, V13) -/

theorem test_add32_wraps : add32 0x80000000 0x80000000 = 0 := by decide
theorem test_rotl32 : rotl32 0x12345678 12 = 0x45678123 := by decide
theorem test_fnF : fnF 0xd6d117b4 0xefcdab89 0x98badcfe = 0xceebcbca := by decide
theorem test_fnG : fnG 0xd6d117b4 0xefcdab89 0x98badcfe = 0xf7d537b5 := by decide
theorem test_fnH : fnH 0xd6d117b4 0xefcdab89 0x98badcfe = 0xa1a660c3 := by decide
theorem test_fnI : fnI 0xd6d117b4 0xefcdab89 0x98badcfe = 0x18189c3c := by decide

/-! ## One step of each kind (the examples of R164 to R167) -/

theorem test_step_ff :
    got (fun s => (s.st.ctx.w, s.st.pre)) (exec (.stepFF 0) (beforeStep 0x67452301 0xefcdab89 0x98badcfe 0x10325476)) =
      some (⟨0x10325476, 0xd6d117b4, 0xefcdab89, 0x98badcfe⟩, 0x57ce06d8) := by decide

theorem test_step_gg :
    got (fun s => (s.st.ctx.w, s.st.pre)) (exec (.stepGG 0) (beforeStep 0xdda9b9a6 0x72aff2e0 0xe396856b 0xa1051895)) =
      some (⟨0xa1051895, 0x3e9e9126, 0x72aff2e0, 0xe396856b⟩, 0x365f74f2) := by decide

theorem test_step_hh :
    got (fun s => (s.st.ctx.w, s.st.pre)) (exec (.stepHH 0) (beforeStep 0x790a77fb 0x726342d3 0xa62884aa 0x9f47e4f8)) =
      some (⟨0x9f47e4f8, 0xb3707ebf, 0x726342d3, 0xa62884aa⟩, 0xc410d3be) := by decide

theorem test_step_ii :
    got (fun s => (s.st.ctx.w, s.st.pre)) (exec (.stepII 0) (beforeStep 0x7f2e507b 0x7beb9700 0x8fae6399 0x99d9679d)) =
      some (⟨0x99d9679d, 0x7b201df8, 0x7beb9700, 0x8fae6399⟩, 0xe3fcd21b) := by decide

/-- V14: the record of step 63. -/
theorem test_step_63_record : (Context.zero.stepAt 63).2.round = 4 ∧ (Context.zero.stepAt 63).2.widx = 9 := by decide

/-! ## Padding (V20, V22) -/

theorem test_pad_56 : padMsg (letterA 56) =
    letterA 56 ++ [0x80] ++ List.replicate 7 0 ++ (List.replicate 56 0 ++ [0xc0, 0x01, 0, 0, 0, 0, 0, 0]) := by decide
theorem test_nblk : [0, 55, 56, 63, 64, 119, 120, 1000].map nblkOf = [1, 1, 2, 2, 2, 2, 3, 16] := by decide

/-! ## The digest commands (V2, V23, V24, V25, V26, V31, V36) -/

set_option maxRecDepth 100000 in
theorem test_hash_abc : got (fun s => (s.digest, s.dighex[0], s.statusWord)) (exec (.hash 0) (withData abc)) =
    some (abcDigest, 0x31303039, 0x00000001) := by decide

set_option maxRecDepth 100000 in
theorem test_hash_bytes_cancelled :
    got (fun s => (s.statusWord, s.env.seen)) (exec (.hash 0) { withData (letterA 128) with env := answers [] [] [] [true] }) =
      some (0x00000009, [.cancelPoll, .srcRead .bytes]) := by decide

set_option maxRecDepth 100000 in
theorem test_hashf_abc : got (fun s => (s.digest, s.env.seen)) (exec .hashf (withEnv 7 (answers [win abc] [.opened 9] [] []))) =
    some (abcDigest, [.envClose 9, .srcRead (.stream 9), .envOpen 7]) := by decide

set_option maxRecDepth 100000 in
theorem test_hashf_read_fails :
    got (fun s => (s.statusWord, s.env.seen)) (exec .hashf (withEnv 7 (answers [.fail] [.opened 9] [] []))) =
      some (0x00002208, [.envClose 9, .srcRead (.stream 9), .envOpen 7]) := by decide

/-- The environment of V31: `b.txt` (12) holds "abc", `a.txt` (11) is empty. -/
def twoFiles : Env :=
  answers [win [], win abc] [.opened 1, .opened 2]
    [.entries [⟨[0x62, 0x2e, 0x74, 0x78, 0x74], .file, 12⟩, ⟨[0x61, 0x2e, 0x74, 0x78, 0x74], .file, 11⟩]] []

set_option maxRecDepth 100000 in
theorem test_hashd_two_files : got (fun s => (s.digest, s.statusWord)) (exec .hashd (withEnv 100 twoFiles)) =
    some (⟨0x60412e6b, 0xa9baed60, 0xf10253d3, 0x6a1a3e3d⟩, 0x00000001) := by decide

/-- V32's tree with the scan of a subdirectory failing (V36). -/
theorem test_hashd_subdirectory_not_a_dir :
    got (fun s => (s.statusWord, s.env.seen))
        (exec .hashd (withEnv 100 (answers [] [] [.entries [⟨[0x61], .dir, 200⟩], .notDir] []))) =
      some (0x00002408, [.envScan 200, .envScan 100]) := by decide

/-! ## The stepper (V40, V41, V43) -/

theorem test_stpnew_abc : got (fun s => (s.st.ctx.w, s.statusWord)) (exec (.stpnew 0) (withData abc)) =
    some (⟨0x67452301, 0xefcdab89, 0x98badcfe, 0x10325476⟩, 0x00000012) := by decide

theorem test_stpnew_stream : got State.statusWord (exec (.stpnew 1) (withData abc)) = some 0x00001008 := by decide

set_option maxRecDepth 100000 in
theorem test_stpadv_first : got (fun s => (s.st.ctx.w, s.st.pre, s.statusWord)) (exec .stpadv ready) =
    some (⟨0x10325476, 0xd6d117b4, 0xefcdab89, 0x98badcfe⟩, 0x57ce06d8, 0x00000023) := by decide

theorem test_stpadv_fold :
    got (fun s => (s.st.ctx.h, s.statusWord)) (exec .stpadv (inStep 63 iv ⟨0x310ade8f, 0xc08226b3, 0xe484b9d8, 0x624d8cb2⟩ 1)) =
      some (abcDigest, 0x00000034) := by decide

theorem test_stprst : got (fun s => (s.statusWord, s.st.nblk)) (exec .stprst ready) = some (0x00000007, 0) := by decide

/-! ## One step of the machine (V50, V60, V61) -/

theorem test_illegal_command : got State.statusWord (step (command 0x00000601 [])) = some 0x00006008 := by decide
theorem test_source_register : got State.srcid (step (withOp (.write 0x08 0xdeadbeef []))) = some 0xdeadbeef := by decide
theorem test_status_not_writable : got State.statusWord (step (withOp (.write 0x04 0xffffffff []))) = some 0 := by decide
theorem test_misaligned : refusal (step (withOp (.read 0x06))) = some .notATransaction := by decide
theorem test_platform_reset : got State.statusWord (step { completed with host := [.reset] }) = some 0 := by decide
theorem test_placed_stpadv : got State.statusWord (step (State.reset.withFetchWord 32 5)) = some 0x00005108 := by decide

/-! ## Witnesses: a state and operands that meet the hypotheses of each statement, at the boundaries of its clauses -/

theorem witness_DecodeExactlyEncodings : decode [0x06, 0, 0, 0] = .ok .stprst ∧ encode .stprst = [0x06, 0, 0, 0] := by decide

theorem witness_StepRunsDecodedCommand :
    (command 0x00000301 abc).stepReq = none ∧ (command 0x00000301 abc).host = [.write 0x00 0x00000301 abc] ∧
      decode (bytesLE 4 (0x00000301 : Word).toNat) = .ok (.hash 3) := by decide

theorem witness_StepRunsStepNumber :
    ({ State.reset with stepReq := some 63 } : State).stepReq = some 63 ∧ decode [(63 : BitVec 6).setWidth 8] = .ok (.stepII 15) := by decide

theorem witness_PlacedWordRuns : 0x00000304 < 2 ^ 32 ∧ decodeTableWord 32 0x00000304 = some (.stpnew 3) ∧
    0x3F < 2 ^ 8 ∧ decodeTableWord 8 0x3F = some (.stepII 15) := by decide

theorem witness_CommandWordChecks (w : Word) : (command w abc).stepReq = none ∧ (command w abc).host = [.write 0x00 w abc] := ⟨rfl, rfl⟩

/-- Each branch of R102, at words where checks meet. -/
theorem witness_CommandWordChecks_clauses :
    (0x00000400 : Word).toNat / 2 ^ 10 ≠ 0 ∧ (0x000003ff : Word).toNat / 2 ^ 10 = 0 ∧ 6 < (0x00000207 : Word).toNat % 2 ^ 8 ∧
      (0x00000100 : Word).toNat % 2 ^ 8 < 1 ∧ (0x00000106 : Word).toNat / 2 ^ 8 % 2 ^ 2 = 1 ∧ (0x00000201 : Word).toNat / 2 ^ 8 % 2 ^ 2 = 2 ∧
      (0x00000101 : Word).toNat / 2 ^ 8 % 2 ^ 2 = 1 ∧ (0x00000104 : Word).toNat / 2 ^ 8 % 2 ^ 2 = 1 := by decide

theorem witness_StepNumberSelects :
    (15 : BitVec 6).toNat < 16 ∧ 16 ≤ (16 : BitVec 6).toNat ∧ (31 : BitVec 6).toNat < 32 ∧ 32 ≤ (32 : BitVec 6).toNat ∧
      (47 : BitVec 6).toNat < 48 ∧ 48 ≤ (48 : BitVec 6).toNat := by decide

theorem witness_RegisterMap : (withOp (.read 0xFC)).stepReq = none ∧ (withOp (.read 0xFC)).host = [.read 0xFC] ∧ 0xFC % 4 = 0 ∧ 0xFC ≤ 0xFC ∧
    (withOp (.read 0x00)).host = [.read 0x00] ∧ (withOp (.read 0x3C)).host = [.read (0x20 + 4 * (7 : Fin 8).val)] := by decide

theorem witness_RegisterWrites : (withOp (.write 0xFC 1 [])).stepReq = none ∧ (withOp (.write 0xFC 1 [])).host = [.write 0xFC 1 []] ∧
    0xFC % 4 = 0 ∧ 0xFC ≠ 0x00 ∧ (withOp (.write 0x08 1 [])).host = [.write 0x08 1 []] := by decide

theorem reset_inv : State.reset.Inv :=
  ⟨rfl, Memory.wf_nil, ⟨rfl, rfl, rfl, rfl, rfl, rfl, rfl, rfl, rfl⟩, ⟨rfl, rfl⟩, .inr ⟨rfl, rfl⟩⟩

theorem witness_NoSessionReadsZero : State.reset.Inv ∧ State.reset.st.phase = .noSession ∧ 0x40 ≤ 0x40 ∧ 0x7C ≤ 0x7C := ⟨reset_inv, by decide⟩

theorem witness_ResetValues : ({ completed with host := [.reset] } : State).stepReq = none ∧ ({ completed with host := [.reset] } : State).host = [.reset] :=
  ⟨rfl, rfl⟩

theorem witness_RotateLeft : 1 ≤ 1 ∧ 1 ≤ 31 ∧ 31 ≤ 31 ∧ 0 < 32 ∧ 31 < 32 := by decide

theorem witness_RoundFunctions : 0 < 32 ∧ 31 < 32 := by decide

theorem witness_StepKindsFrame : ∃ t, exec (.stepII 15) State.reset = .next t := ⟨_, rfl⟩

theorem witness_CompressIsPure : Context.zero.h = ({ Context.zero with msglen := 5 } : Context).h ∧ Context.zero ≠ { Context.zero with msglen := 5 } := by decide

theorem witness_LoadInitFold : (padMsg abc).length = 64 := by decide

theorem witness_PaddingLayout : (letterA 56).length ≤ Config.maxMsgBytes ∧ 55 < (letterA 56).length ∧ (letterA 56).length < 57 ∧
    119 < 64 * nblkOf (letterA 56).length - 8 ∧ 7 < 8 := by decide

theorem witness_BlockCount : (letterA 55).length % 64 ≤ 55 ∧ 56 ≤ (letterA 56).length % 64 ∧ (letterA 56).length ≤ Config.maxMsgBytes := by decide

theorem quiet_neverCancels (r : List ReadAnswer) (o : List OpenAnswer) (s : List ScanAnswer) : (answers r o s []).neverCancels :=
  ⟨by simp [answers], rfl⟩

theorem witness_HashBytesDelivers : (withData abc).data.length ≤ Config.maxMsgBytes ∧ (withData abc).env.neverCancels :=
  ⟨by decide, quiet_neverCancels [] [] []⟩

theorem witness_HashStreamEqualsBytes :
    let s := withEnv 5 (answers (windowsOf (letterA 64) ++ [.fail]) [] [] [])
    (letterA 64).length ≤ Config.maxMsgBytes ∧ s.env.continues ((letterA 64).length / 64) ∧ s.env.reads = windowsOf (letterA 64) ++ [.fail] :=
  ⟨by decide, Env.neverCancels_continues (quiet_neverCancels _ _ _) _, rfl⟩

theorem witness_HashFileDelivers :
    let s := withEnv 7 (answers (windowsOf abc ++ [.fail]) [.opened 9] [] [true])
    abc.length ≤ Config.maxMsgBytes ∧ s.env.continues (abc.length / 64) ∧ s.env.opens.headD s.env.later.opened = .opened 9 ∧
      s.env.reads = windowsOf abc ++ [.fail] :=
  ⟨by decide, fun k hk => by simp [abc] at hk, rfl, rfl⟩

theorem witness_DeliveredTextIsDigest : 0 < 10 ∧ 9 < 10 ∧ 10 ≤ 10 ∧ 15 < 16 := by decide

theorem witness_TypeSourceFaults : 2 ≤ (2 : BitVec 2).toNat ∧ 2 ≤ (3 : BitVec 2).toNat ∧ 1 ≤ (1 : BitVec 2).toNat := by decide

theorem witness_HashFileCannotOpen : (withEnv 7 (answers [] [.notFound] [] [])).env.opens.headD Env.quiet.later.opened = .notFound ∧
    (withEnv 7 (answers [] [.fail] [] [])).env.opens.headD Env.quiet.later.opened = .fail := by decide

/-- A full window. -/
def full : Window := ⟨letterA 64, by decide⟩

theorem witness_ReadFailureFaults :
    let s := withEnv 5 (answers [.window full, .fail] [.opened 9] [] [])
    s.env.continues [full].length ∧ (∀ w ∈ [full], w.bytes.length = 64) ∧ 64 * [full].length ≤ Config.maxMsgBytes ∧
      s.env.reads = [full].map ReadAnswer.window ++ .fail :: [] ∧ s.env.opens.headD s.env.later.opened = .opened 9 :=
  ⟨Env.neverCancels_continues (quiet_neverCancels _ _ _) _, by decide, by decide, rfl, rfl⟩

theorem witness_CancelEndsStream :
    let s := withEnv 5 (answers [.window full, .window full] [.opened 9] [] [false, true])
    (∀ v ∈ [full] ++ [full], v.bytes.length = 64) ∧ 64 * ([full].length + 1) ≤ Config.maxMsgBytes ∧
      s.env.reads = ([full] ++ [full]).map ReadAnswer.window ++ [] ∧ s.env.cancelsAt [full].length ∧
      s.env.opens.headD s.env.later.opened = .opened 9 := by
  unfold Env.cancelsAt Env.continues; decide

/-- V26: `HASH.B` of 128 bytes, with the first or the second poll asking to stop. -/
theorem witness_CancelEndsStream_bytes :
    let s := fun polls => ({ withData (letterA 128) with env := answers [] [] [] polls } : State)
    64 * (0 + 1) ≤ (s [true]).data.length ∧ 64 * (1 + 1) ≤ (s [false, true]).data.length ∧ 64 * (1 + 1) ≤ Config.maxMsgBytes ∧
      (s [true]).env.cancelsAt 0 ∧ (s [false, true]).env.cancelsAt 1 := by
  unfold Env.cancelsAt Env.continues; set_option maxRecDepth 100000 in decide

theorem witness_ShortMessageNeverPolls : (withData (letterA 63)).data.length < 64 := by decide

theorem witness_HashBytesRequests : (withData (letterA 64)).data.length ≤ Config.maxMsgBytes ∧ (withData (letterA 64)).env.neverCancels :=
  ⟨by decide, quiet_neverCancels [] [] []⟩

set_option maxRecDepth 100000 in
theorem witness_HandlesOpenedAreClosed :
    (withEnv 7 (answers [win abc] [.opened 9] [] [])).env.opens.headD Env.quiet.later.opened = .opened 9 ∧
      isNext (exec .hashf (withEnv 7 (answers [win abc] [.opened 9] [] []))) = true ∧ isNext (exec (.hash 1) (withEnv 7 (answers [win abc] [] [] []))) = true := by
  decide

set_option maxRecDepth 100000 in
theorem witness_DigestCommandsFrame : (∃ t, exec (.hash 0) (withData abc) = .next t) ∧ (∃ t, exec .hashf (withEnv 7 (answers [win abc] [.opened 9] [] [])) = .next t) ∧
    ∃ t, exec .hashd (withEnv 100 twoFiles) = .next t :=
  ⟨next_of_isNext (by decide), next_of_isNext (by decide), next_of_isNext (by decide)⟩

/-- A stream that delivers full windows for ever (X6). -/
def endlessEnv : Env := { Env.quiet with opens := [.opened 9], later := { Env.quiet.later with read := .window full } }

theorem endlessEnv_endless : endlessEnv.endlessStream :=
  ⟨⟨by simp [endlessEnv, Env.quiet], rfl⟩, by simp [endlessEnv, Env.quiet], full, rfl, by decide⟩

/-- Both sides of each equivalence, at once. -/
theorem witness_EndlessWhenSourceIs :
    let s := withEnv 5 endlessEnv
    s.env.endlessStream ∧ 64 * (s.env.reads.length + s.env.polls.length + 2) ≤ Config.maxMsgBytes ∧
      s.env.opens.headD s.env.later.opened = .opened 9 ∧ faulted (exec (.hash 1) s) = some .neverCompletes ∧
      faulted (exec .hashf s) = some .neverCompletes := by
  refine ⟨endlessEnv_endless, by decide, rfl, ?_, ?_⟩ <;> set_option maxRecDepth 100000 in decide

/-- Directories without an end: the root shows a subdirectory, and so does every scan after it. -/
def endlessDirectories : Env :=
  { answers [] [] [.entries [⟨[0x61], .dir, 200⟩]] [] with later := { Env.quiet.later with scan := .entries [⟨[0x61], .dir, 200⟩] } }

theorem witness_EndlessWhenSourceIs_directories :
    let s := withEnv 100 endlessDirectories
    s.params.dirMaxEntries = none ∧ s.env.scans = [[⟨[0x61], .dir, 200⟩]].map ScanAnswer.entries ∧ s.env.later.scan = .entries [⟨[0x61], .dir, 200⟩] ∧
      0 < presented .dir [[⟨[0x61], .dir, 200⟩]] ∧ walkGoesOn [[⟨[0x61], .dir, 200⟩]] ∧ faulted (exec .hashd s) = some .neverCompletes := by
  refine ⟨rfl, rfl, rfl, by decide, fun j h0 hj => ?_, by decide⟩
  obtain rfl : j = 1 := by simp at hj; omega
  decide

theorem witness_SortByKey : keysDistinct [([0x62], 1), ([0x61], 2)] = true ∧ [(([0x62] : List Byte), (1 : Word)), ([0x61], 2)].Perm [([0x61], 2), ([0x62], 1)] ∧
    keyLe [0x61] [0x61, 0x2e] = true ∧ keyLe [0x61, 0x2e] [0x61, 0x2f] = true := by decide

/-- A root with one subdirectory, which is empty. -/
def oneDirectory : Env := answers [] [] [.entries [⟨[0x61], .dir, 200⟩], .entries []] []

theorem witness_FiniteTreeIsEnumerated : (withEnv 100 oneDirectory).params.dirMaxEntries = none ∧
    (withEnv 100 oneDirectory).env.scans = .entries [⟨[0x61], .dir, 200⟩] :: [.entries []] ∧ (∀ a ∈ [ScanAnswer.entries []], ∃ l, a = .entries l) ∧
    ((withEnv 100 oneDirectory).env.scans.map ScanAnswer.dirs).sum ≤ [ScanAnswer.entries []].length ∧
    (enumerate Params.default 100 Streaming.zero oneDirectory).how = .done :=
  ⟨rfl, rfl, by simp, by decide, by decide⟩

/-- A tree with a file and another thing in a subdirectory, and a table that it just fills. -/
theorem witness_FiniteTreeIsEnumerated_tree :
    let f : Forest := .dir [0x61] 200 (.other [0x62] 3 (.file [0x63] 4 .nil)) .nil
    let e := answers [] [] [.entries [⟨[0x61], .dir, 200⟩], .entries [⟨[0x62], .other, 3⟩, ⟨[0x63], .file, 4⟩]] []
    e.scans = f.scans ++ [] ∧ f.files [0x2f] [] = [([0x61, 0x2f, 0x63], 4)] ∧ tableHolds { Params.default with dirMaxEntries := some 1 } (f.files [0x2f] []).length := by
  refine ⟨by decide, by decide, fun cap h => ?_⟩
  obtain rfl : 1 = cap := by simpa using h
  decide

theorem witness_HashDirectoryDelivers :
    let r := enumerate Params.default 100 Streaming.zero twoFiles
    r.how = .done ∧ r.dd.ent ≠ [] ∧ keysDistinct r.dd.ent = true ∧ [((1 : Word), ([] : List Byte)), (2, abc)].length = r.dd.ent.length ∧
      twoFiles.neverCancels ∧ twoFiles.delivers [(1, []), (2, abc)] ∧ (∀ f ∈ [((1 : Word), ([] : List Byte)), (2, abc)], f.2.length ≤ Config.maxMsgBytes) ∧
      32 * [((1 : Word), ([] : List Byte)), (2, abc)].length ≤ Config.maxMsgBytes :=
  ⟨by decide, by decide, by decide, by decide, quiet_neverCancels _ _ _, ⟨⟨[], rfl⟩, ⟨[], by decide⟩⟩, by decide, by decide⟩

/-- V31's tree: two files, the later key first. -/
def treeBA : Forest := .file [0x62, 0x2e, 0x74, 0x78, 0x74] 12 (.file [0x61, 0x2e, 0x74, 0x78, 0x74] 11 .nil)

/-- The same files in the other order, and an empty directory. -/
def treeAB : Forest := .file [0x61, 0x2e, 0x74, 0x78, 0x74] 11 (.dir [0x7a] 13 .nil (.file [0x62, 0x2e, 0x74, 0x78, 0x74] 12 .nil))

set_option maxRecDepth 100000 in
theorem witness_EnumerationOrderIrrelevant : (treeBA.files [0x2f] []).Perm (treeAB.files [0x2f] []) ∧ keysDistinct (treeBA.files [0x2f] []) = true ∧
    (withEnv 100 twoFiles).env.scans = treeBA.scans ++ [] ∧ (withEnv 100 twoFiles).params.pathSep = [0x2f] ∧ ∃ t, exec .hashd (withEnv 100 twoFiles) = .next t :=
  ⟨by decide, by decide, by decide, rfl, next_of_isNext (by decide)⟩

theorem witness_RootScanFaults : (∃ t, exec .hashd (withEnv 100 (answers [] [] [.notDir] [])) = .next t) ∧
    (withEnv 100 (answers [] [] [.notDir] [])).env.scans.headD Env.quiet.later.scan = .notDir ∧
    (withEnv 100 (answers [] [] [.fail] [])).env.scans.headD Env.quiet.later.scan = .fail :=
  ⟨next_of_isNext (by decide), by decide, by decide⟩

/-- A subdirectory that cannot be listed, in either way. -/
theorem witness_RootScanFaults_subdirectory : [[(⟨[0x61], .dir, 200⟩ : Entry)]] ≠ [] ∧
    (answers [] [] [.entries [⟨[0x61], .dir, 200⟩], .fail] []).scans = [[(⟨[0x61], .dir, 200⟩ : Entry)]].map ScanAnswer.entries ++ [.fail] ∧
    walkGoesOn [[(⟨[0x61], .dir, 200⟩ : Entry)]] ∧ tableHolds Params.default (presented .file [[(⟨[0x61], .dir, 200⟩ : Entry)]]) ∧
    [ScanAnswer.fail].headD Env.quiet.later.scan = .fail ∧ [ScanAnswer.notDir].headD Env.quiet.later.scan = .notDir := by
  refine ⟨by decide, rfl, fun j h0 hj => ?_, fun cap h => ?_, rfl, rfl⟩
  · obtain rfl : j = 1 := by simp at hj; omega
    decide
  · cases h

/-- The parameter and the walk in one state, for each value. -/
theorem witness_EmptyDirectory :
    let s := fun b => ({ withEnv 100 oneDirectory with params := { Params.default with emptyDirFaults := b } } : State)
    ∀ b, (s b).params.emptyDirFaults = b ∧ (enumerate (s b).params (s b).srcid (s b).sc (s b).env).how = .done ∧
      (enumerate (s b).params (s b).srcid (s b).sc (s b).env).dd.ent = [] := by decide

/-- V31's `a.txt` with its key. -/
def entryA : List Byte × Word := ([0x61, 0x2e, 0x74, 0x78, 0x74], 11)

/-- V31's `b.txt`. -/
def entryB : List Byte × Word := ([0x62, 0x2e, 0x74, 0x78, 0x74], 12)

/-- V31's root with these answers to reads, opens and polls. -/
def twoFilesWith (reads : List ReadAnswer) (opens : List OpenAnswer) (polls : List Bool) : Env := answers reads opens twoFiles.scans polls

/-- The walk over V31's root completes, with its two files. -/
def walksTwoFiles (s : State) : Prop :=
  let r := enumerate s.params s.srcid s.sc s.env
  r.how = .done ∧ r.dd.ent ≠ [] ∧ keysDistinct r.dd.ent = true ∧ sortEntries r.dd.ent = [entryA, entryB]

theorem twoFilesWith_walk (reads : List ReadAnswer) (opens : List OpenAnswer) (polls : List Bool) :
    walksTwoFiles (withEnv 100 (twoFilesWith reads opens polls)) := by
  have h : enumerate Params.default 100 Streaming.zero (twoFilesWith reads opens polls) =
    ⟨.done, Streaming.zero, { Directory.empty with ent := [entryB, entryA] }, { twoFilesWith reads opens polls with scans := [], seen := [.envScan 100] }⟩ := rfl
  show _ ∧ _
  simp only [withEnv, State.reset, h]
  exact ⟨trivial, by simp, by decide, by decide⟩

/-- The first file is good; the second cannot be opened, or fails after a full window. -/
theorem witness_FirstFileFailureDecides :
    let e := twoFilesWith ([win []] ++ [.window full, .fail]) [.opened 1, .opened 2] []
    walksTwoFiles (withEnv 100 e) ∧ [entryA, entryB] = [entryA] ++ entryB :: [] ∧ [((1 : Word), ([] : List Byte))].length = [entryA].length ∧
      (∀ f ∈ [((1 : Word), ([] : List Byte))], f.2.length ≤ Config.maxMsgBytes) ∧
      e.opens = [((1 : Word), ([] : List Byte))].map (fun f => OpenAnswer.opened f.1) ++ [.opened 2] ∧
      e.reads = [((1 : Word), ([] : List Byte))].flatMap (fun f => windowsOf f.2) ++ [.window full, .fail] ∧
      e.continues (pollCount [((1 : Word), ([] : List Byte))] + 1) ∧ [OpenAnswer.opened 2].headD e.later.opened = .opened 2 ∧
      [OpenAnswer.notFound].headD e.later.opened = .notFound ∧ [OpenAnswer.fail].headD e.later.opened = .fail ∧
      [ReadAnswer.window full, .fail] = [full].map ReadAnswer.window ++ .fail :: [] :=
  ⟨twoFilesWith_walk _ _ _, rfl, rfl, by decide, rfl, by decide, Env.neverCancels_continues (quiet_neverCancels _ _ _) _, rfl, rfl, rfl, rfl⟩

/-- A second file without an end, after a good one. -/
theorem witness_EndlessWhenSourceIs_file :
    let e := { twoFilesWith [win []] [.opened 1, .opened 2] [] with later := endlessEnv.later }
    walksTwoFiles (withEnv 100 e) ∧ e.opens = [((1 : Word), ([] : List Byte))].map (fun f => OpenAnswer.opened f.1) ++ [.opened 2] ∧
      e.reads = [((1 : Word), ([] : List Byte))].flatMap (fun f => windowsOf f.2) ++ [] ∧ [OpenAnswer.opened 2].headD e.later.opened = .opened 2 ∧
      ({ e with reads := [] } : Env).endlessStream ∧ 64 * (([] : List ReadAnswer).length + e.polls.length + 2) ≤ Config.maxMsgBytes :=
  ⟨twoFilesWith_walk [win []] [.opened 1, .opened 2] [], rfl, by decide, rfl, ⟨⟨by simp [twoFilesWith, answers], rfl⟩, by simp, full, rfl, by decide⟩, by decide⟩

/-- Each of the three places of a cancel request: after a file; after a full window of the second file; after the first window of the final digest. -/
theorem witness_CancelEndsDirectory :
    let one := [((1 : Word), ([] : List Byte))]
    let two := [((1 : Word), ([] : List Byte)), (2, abc)]
    let e1 := twoFilesWith [win []] [.opened 1] [true]
    let e2 := twoFilesWith (one.flatMap (fun f => windowsOf f.2) ++ ([] ++ [full]).map ReadAnswer.window) [.opened 1, .opened 2] [false, true]
    let e3 := twoFilesWith (two.flatMap fun f => windowsOf f.2) [.opened 1, .opened 2] [false, false, true]
    (walksTwoFiles (withEnv 100 e1) ∧ [entryA] ≠ [] ∧ e1.reads = one.flatMap (fun f => windowsOf f.2) ++ [] ∧ e1.cancelsAt (pollCount one - 1)) ∧
      (walksTwoFiles (withEnv 100 e2) ∧ [OpenAnswer.opened 2].headD e2.later.opened = .opened 2 ∧ e2.cancelsAt (pollCount one + 0)) ∧
      (walksTwoFiles (withEnv 100 e3) ∧ 0 < 32 * [entryA, entryB].length / 64 ∧ 32 * [entryA, entryB].length ≤ Config.maxMsgBytes ∧
        e3.cancelsAt (pollCount two + 0)) :=
  ⟨⟨twoFilesWith_walk _ _ _, by simp, by decide, by unfold Env.cancelsAt Env.continues; decide⟩,
    ⟨twoFilesWith_walk _ _ _, rfl, by unfold Env.cancelsAt Env.continues; decide⟩,
    ⟨twoFilesWith_walk _ _ _, by decide, by decide, by unfold Env.cancelsAt Env.continues; decide⟩⟩

theorem witness_NewSession : (withData []).data.length ≤ Config.maxMsgBytes ∧ blkmemHolds (withData []).params (nblkOf (withData []).data.length) = true ∧
    63 < 64 * nblkOf (withData []).data.length := by decide

theorem ready_inv : ready.Inv :=
  ⟨rfl, Stepper.create_wf abc 0, ⟨⟨abc, (Stepper.create_holds abc 0 (by decide)).1⟩, (Stepper.create_holds abc 0 (by decide)).2⟩, ⟨rfl, rfl⟩, .inr ⟨rfl, rfl⟩⟩

theorem witness_AdvanceFromReady : ready.Inv ∧ ready.st.phase = .ready := ⟨ready_inv, rfl⟩

theorem witness_AdvanceInBlock : (inStep 62 iv ⟨0, 0, 0, 0⟩ 1).st.phase = .inStep ∧ (inStep 62 iv ⟨0, 0, 0, 0⟩ 1).st.stepidx.toNat < 63 := by decide

theorem witness_AdvanceFolds : (inStep 63 iv ⟨0, 0, 0, 0⟩ 1).st.phase = .inStep ∧ (inStep 63 iv ⟨0, 0, 0, 0⟩ 1).st.stepidx = 63 := by decide

theorem witness_AdvanceToNextBlock : (boundary iv 2).st.phase = .blockBoundary ∧ (boundary iv 2).st.blkidx.toNat + 1 < (boundary iv 2).st.nblk.toNat := by decide

theorem witness_AdvanceCompletes : (boundary iv 1).st.phase = .blockBoundary ∧ (boundary iv 1).st.blkidx.toNat + 1 = (boundary iv 1).st.nblk.toNat := by decide

theorem witness_AdvanceWithoutWork : completed.st.phase = .completed ∧ State.reset.st.phase = .noSession := by decide

theorem witness_AdvanceMovesOnePosition : ready.Inv ∧ ready.st.phase ≠ .noSession ∧ ready.st.phase ≠ .completed := ⟨ready_inv, by decide, by decide⟩

theorem witness_SessionDiscarded : ∃ t, exec .stprst completed = .next t := ⟨_, rfl⟩

theorem witness_StepperCommandsFrame : (∃ t, exec (.stpnew 0) (withData abc) = .next t) ∧ (∃ t, exec .stpadv completed = .next t) ∧
    ∃ t, exec .stprst completed = .next t :=
  ⟨next_of_isNext (by decide), next_of_isNext (by decide), next_of_isNext (by decide)⟩

theorem witness_NumberOfAdvances : ready.Inv ∧ ready.st.phase = .ready ∧ 65 ≤ 65 * ready.st.nblk.toNat := ⟨ready_inv, rfl, by decide⟩

theorem witness_StepperAgreesWithHash : (withData abc).stepReq = none ∧ (withData abc).data.length ≤ Config.maxMsgBytes ∧
    blkmemHolds (withData abc).params (nblkOf (withData abc).data.length) = true ∧ (withData abc).env.neverCancels :=
  ⟨rfl, by decide, by decide, quiet_neverCancels [] [] []⟩

theorem witness_OutsideTheInterfaceRefused_access : (withOp (.read 0x100)).stepReq = none ∧ 0xFC < 0x100 ∧ 0xFD % 4 ≠ 0 ∧
    (withOp (.read 0x100)).host = [.read 0x100] ∧ (withOp (.write 0xFD 0 [])).host = [.write 0xFD 0 []] := by decide

theorem witness_OutsideTheInterfaceRefused_length :
    Config.maxMsgBytes < (withData (List.replicate (2 ^ 61) 0)).data.length ∧ (withData (List.replicate (2 ^ 61) 0)).env.neverCancels := by
  refine ⟨?_, quiet_neverCancels [] [] []⟩
  show Config.maxMsgBytes < (List.replicate (2 ^ 61) (0 : Byte)).length
  rw [List.length_replicate]; decide

/-- As many full windows as `MAX_MSG_BYTES` admits; one more passes it. -/
def admittedWindows : List Window := List.replicate (2 ^ 55 - 1) full

theorem admittedWindows_length : admittedWindows.length = 2 ^ 55 - 1 := List.length_replicate

theorem admittedWindows_full : ∀ v ∈ admittedWindows, v.bytes.length = 64 := fun v hv => by rw [List.eq_of_mem_replicate hv]; decide

theorem admittedWindows_most : 64 * admittedWindows.length ≤ Config.maxMsgBytes ∧ Config.maxMsgBytes < 64 * admittedWindows.length + full.bytes.length := by
  rw [admittedWindows_length]; decide

theorem witness_OutsideTheInterfaceRefused_stream :
    let e := answers ((admittedWindows ++ [full]).map ReadAnswer.window ++ []) [.opened 9] [] []
    (∀ v ∈ admittedWindows, v.bytes.length = 64) ∧ 64 * admittedWindows.length ≤ Config.maxMsgBytes ∧
      Config.maxMsgBytes < 64 * admittedWindows.length + full.bytes.length ∧ e.continues admittedWindows.length ∧
      e.reads = (admittedWindows ++ [full]).map ReadAnswer.window ++ [] ∧ e.opens.headD e.later.opened = .opened 9 :=
  ⟨admittedWindows_full, admittedWindows_most.1, admittedWindows_most.2, Env.neverCancels_continues (quiet_neverCancels _ _ _) _, rfl, rfl⟩

/-- The second file of `HASHD` is such a stream. -/
theorem witness_OutsideTheInterfaceRefused_file :
    let one := [((1 : Word), ([] : List Byte))]
    let reads := (admittedWindows ++ [full]).map ReadAnswer.window ++ []
    let e := twoFilesWith (one.flatMap (fun f => windowsOf f.2) ++ reads) [.opened 1, .opened 2] []
    walksTwoFiles (withEnv 100 e) ∧ [entryA, entryB] = [entryA] ++ [entryB] ∧ one.length = [entryA].length ∧ (∀ f ∈ one, f.2.length ≤ Config.maxMsgBytes) ∧
      e.opens = one.map (fun f => OpenAnswer.opened f.1) ++ [.opened 2] ∧ e.reads = one.flatMap (fun f => windowsOf f.2) ++ reads ∧
      [OpenAnswer.opened 2].headD e.later.opened = .opened 2 ∧ e.continues (pollCount one + admittedWindows.length) :=
  ⟨twoFilesWith_walk _ _ _, rfl, rfl, by decide, rfl, rfl, rfl, Env.neverCancels_continues (quiet_neverCancels _ _ _) _⟩

/-- A root of `n` files with distinct names. -/
def manyFiles : Nat → Forest
  | 0 => .nil
  | n + 1 => .file (letterA n) 1 (manyFiles n)

theorem manyFiles_files (n : Nat) : ((manyFiles n).files [0x2f] []).length = n ∧ (∀ x ∈ (manyFiles n).files [0x2f] [], x.1.length < n) ∧
    (((manyFiles n).files [0x2f] []).map Prod.fst).Nodup := by
  induction n with
  | zero => simp [manyFiles, Forest.files]
  | succ n ih =>
    obtain ⟨h1, h2, h3⟩ := ih
    simp only [manyFiles, Forest.files, List.nil_append, List.length_cons, List.map_cons, List.nodup_cons, List.mem_cons]
    refine ⟨by rw [h1], ?_, ?_, h3⟩
    · rintro x (rfl | hx)
      · simp [letterA]
      · exact (h2 x hx).trans (by omega)
    · intro hm
      obtain ⟨x, hx, he⟩ := List.mem_map.mp hm
      have := h2 x hx
      rw [he] at this
      simp [letterA] at this

theorem manyFiles_walk (n : Nat) (hn : 0 < n) (reads : List ReadAnswer) (opens : List OpenAnswer) :
    let s := withEnv 100 (answers reads opens ((manyFiles n).scans ++ []) [])
    let r := enumerate s.params s.srcid s.sc s.env
    r.how = .done ∧ r.dd.ent ≠ [] ∧ keysDistinct r.dd.ent = true ∧ (sortEntries r.dd.ent).length = n := by
  intro s r
  obtain ⟨h1, -, h3⟩ := manyFiles_files n
  obtain ⟨ent, hp, he⟩ := (enumerate_forest s.params s.srcid s.sc s.env (manyFiles n) [] rfl).1 (fun cap h => by cases h)
  have hp' : ent.Perm ((manyFiles n).files [0x2f] []) := hp
  have hr : r.how = .done ∧ r.dd.ent = ent := by
    show (enumerate _ _ _ _).how = _ ∧ (enumerate _ _ _ _).dd.ent = _
    rw [he]; exact ⟨rfl, rfl⟩
  refine ⟨hr.1, ?_, ?_, ?_⟩
  · rw [hr.2]; rintro rfl; have := hp'.length_eq; rw [h1] at this; simp at this; omega
  · rw [hr.2, keysDistinct, decide_eq_true_eq]; exact (hp'.map Prod.fst).nodup_iff.mpr h3
  · rw [hr.2, (sortEntries_perm ent).length_eq, hp'.length_eq, h1]

/-- So many empty files that their renderings pass `MAX_MSG_BYTES`. -/
theorem witness_OutsideTheInterfaceRefused_concatenation : ∃ n, ∀ files, files = List.replicate n ((1 : Word), ([] : List Byte)) →
    let s := withEnv 100 (answers (files.flatMap (fun f => windowsOf f.2) ++ []) (files.map (fun f => OpenAnswer.opened f.1) ++ []) ((manyFiles n).scans ++ []) [])
    let r := enumerate s.params s.srcid s.sc s.env
    r.how = .done ∧ r.dd.ent ≠ [] ∧ keysDistinct r.dd.ent = true ∧ sortEntries r.dd.ent = sortEntries r.dd.ent ++ [] ∧
      files.length = (sortEntries r.dd.ent).length ∧ (∀ f ∈ files, f.2.length ≤ Config.maxMsgBytes) ∧ Config.maxMsgBytes < 32 * (sortEntries r.dd.ent).length ∧
      s.env.continues (pollCount files + Config.maxMsgBytes / 64) := by
  refine ⟨2 ^ 56, ?_⟩
  generalize hn : 2 ^ 56 = n
  rintro files rfl
  obtain ⟨h1, h2, h3, h4⟩ := manyFiles_walk n (by omega) ((List.replicate n ((1 : Word), ([] : List Byte))).flatMap (fun f => windowsOf f.2) ++ [])
    ((List.replicate n ((1 : Word), ([] : List Byte))).map (fun f => OpenAnswer.opened f.1) ++ [])
  refine ⟨h1, h2, h3, (List.append_nil _).symm, ?_, fun f hf => ?_, ?_, Env.neverCancels_continues (quiet_neverCancels _ _ _) _⟩
  · rw [h4, List.length_replicate]
  · rw [List.eq_of_mem_replicate hf]; decide
  · rw [h4, ← hn]; decide

theorem witness_OutsideTheInterfaceRefused_blocks : (letterA 56).length ≤ Config.maxMsgBytes ∧
    blkmemHolds { Params.default with blkmemBlocks := some 1 } (nblkOf (letterA 56).length) = false := by decide

theorem witness_OutsideTheInterfaceRefused_table : twoFiles.scans = treeBA.scans ++ [] ∧
    ¬ tableHolds { Params.default with dirMaxEntries := some 1 } (treeBA.files [0x2f] []).length :=
  ⟨by decide, fun h => absurd (h 1 rfl) (by decide)⟩

theorem witness_OutsideTheInterfaceRefused_keys :
    let e := answers [] [] [.entries [⟨[0x61], .file, 1⟩, ⟨[0x61], .file, 2⟩]] []
    (enumerate Params.default 100 Streaming.zero e).how = .done ∧ keysDistinct (enumerate Params.default 100 Streaming.zero e).dd.ent = false := by decide

theorem witness_StepKeepsInvariant : State.reset.Inv ∧ ∃ t, step State.reset = .next t := ⟨reset_inv, _, rfl⟩

theorem witness_FaultsLeaveHostState : isCommand .stpadv = true ∧ got State.rkind (exec .stpadv State.reset) = some .error ∧
    got State.rkind (exec (.hash 0) { withData (letterA 64) with env := answers [] [] [] [true] }) = some .cancelled := by
  set_option maxRecDepth 100000 in decide

theorem witness_CommandOutcomes : isCommand .stprst = true ∧ ∃ t, exec .stprst State.reset = .next t := ⟨rfl, _, rfl⟩

theorem witness_SourceRegisterIsTheHosts : (∃ t, exec .stprst State.reset = .next t) ∧ ∃ t, step (withOp (.write 0x08 7 [])) = .next t :=
  ⟨⟨_, rfl⟩, ⟨_, rfl⟩⟩

end Sys2Proof.Tests
end

/-! # O54: what the spec gives no meaning is refused

The window that makes a message too long is found once for a byte sequence and once for a stream; every command that digests such a source then ends with the
refusal of that digest. -/

namespace Sys2Proof.Machine

/-! ## A host access outside the register space (R72, X4) -/

theorem isRegOffset_eq_false {off : Nat} (h : off % 4 ≠ 0 ∨ 0xFC < off) : isRegOffset off = false := by
  rcases h with h | h
  · simp [isRegOffset, h]
  · simp [isRegOffset]; omega

theorem step_read_outside {s : State} {off : Nat} {rest : List HostOp} (hr : s.stepReq = none) (hoff : off % 4 ≠ 0 ∨ 0xFC < off)
    (hh : s.host = .read off :: rest) : step s = .refused .notATransaction := by
  rw [step_read hr hh, isRegOffset_eq_false hoff]
  rfl

theorem step_write_outside {s : State} {off : Nat} {v : Word} {data : List Byte} {rest : List HostOp} (hr : s.stepReq = none)
    (hoff : off % 4 ≠ 0 ∨ 0xFC < off) (hh : s.host = .write off v data :: rest) : step s = .refused .notATransaction := by
  rw [step_write hr hh (by omega), isRegOffset_eq_false hoff]
  rfl

/-! ## STPNEW (R270, X2, X3) -/

theorem exec_stpnew_tooLong {s : State} (h : Config.maxMsgBytes < s.data.length) : exec (.stpnew 0) s = .refused .messageTooLong := by
  simp [exec, execStpnew, h]

theorem exec_stpnew_storeFull {s : State} (h : s.data.length ≤ Config.maxMsgBytes) (hb : blkmemHolds s.params (nblkOf s.data.length) = false) :
    exec (.stpnew 0) s = .refused .blkmemFull := by
  simp [exec, execStpnew, hb, Nat.not_lt.mpr h]

/-! ## A digest command ends with the refusal of its work -/

theorem exec_hash_refused {s : State} {k : BitVec 2} {src : Source} {x : Refusal} (hs : s.sourceOf k = some src)
    (h : (digestOf src s.sc s.env).how = .refused x) : exec (.hash k) s = .refused x := by
  simp only [exec, execHash, hs, State.hashSource, h, State.finish]

theorem exec_hashf_refused {s : State} {x : Refusal} (h : (digestFile s.srcid s.sc s.env).how = .refused x) : exec .hashf s = .refused x := by
  simp only [exec, execHashf, h, State.finish]

theorem exec_hashd_refused {s : State} {x : Refusal} (h : (hashDirectory s.params s.srcid s.sc s.env).how = .refused x) :
    exec .hashd s = .refused x := by
  rw [exec_hashd, h, State.finish]

/-- A file that opens is refused when its stream is (R217). -/
theorem digestFile_refused {id h : Word} {c : Streaming} {e : Env} {x : Refusal} (hopen : e.opens.headD e.later.opened = .opened h)
    (hr : (digestOf (.stream h) c { e with opens := e.opens.tail, seen := .envOpen id :: e.seen }).how = .refused x) :
    (digestFile id c e).how = .refused x := by
  rw [digestFile_opened id h c e hopen]
  exact hr

/-- The first file still to come that is refused ends `HASHD` (R240 part 4). -/
theorem filesTail_refused {y : List Byte × Word} {rest : List (List Byte × Word)} {c : Streaming} {d : Directory} {e : Env} {x : Refusal}
    (h : (digestFile y.2 c e).how = .refused x) : (filesTail (y :: rest) c d e).how = .refused x := by
  rw [filesTail, h]

theorem hashDirectory_enumerate_refused {p : Params} {root : Word} {c : Streaming} {e : Env} {x : Refusal}
    (h : (enumerate p root c e).how = .refused x) : (hashDirectory p root c e).how = .refused x := by
  simp only [hashDirectory, h]

/-- Equal keys are refused before a file is opened (R246, X5); a table with equal keys is not empty, so it is no `IO_EMPTY` (R248). -/
theorem hashDirectory_equalKeys {p : Params} {root : Word} {c : Streaming} {e : Env} (hdone : (enumerate p root c e).how = .done)
    (hkeys : keysDistinct (enumerate p root c e).dd.ent = false) : (hashDirectory p root c e).how = .refused .equalKeys := by
  have hne : (enumerate p root c e).dd.ent ≠ [] := fun h => by rw [h] at hkeys; cases hkeys
  simp [hashDirectory, hdone, hashEntries, hkeys, hne]

/-! ## The window that passes `MAX_MSG_BYTES` (R195, R214, X2) -/

/-- A byte sequence that is too long: its window number `MAX_MSG_BYTES / 64` is full and passes the bound. -/
theorem digestOf_bytes_tooLong {d : List Byte} (c : Streaming) {e : Env} (hd : Config.maxMsgBytes < d.length)
    (hp : e.continues (Config.maxMsgBytes / 64)) : (digestOf (.bytes d) c e).how = .refused .messageTooLong := by
  have hmax : 64 * (Config.maxMsgBytes / 64) + 63 = Config.maxMsgBytes := by decide
  obtain ⟨ws, hn, hws, hgives⟩ := Source.gives_bytes (Config.maxMsgBytes / 64) d (by omega)
  obtain ⟨last, hone, hw, hlast⟩ := Source.gives_bytes 1 (d.drop (64 * (Config.maxMsgBytes / 64))) (by rw [List.length_drop]; omega)
  obtain ⟨w, rfl⟩ := List.length_eq_one_iff.mp hone
  exact digestOf_tooLong _ _ _ c e ws w _ _ (List.forall_mem_append.mpr ⟨hws, hw⟩) (hgives e.reads) (hlast e.reads) (by rw [hn]; exact hp)
    (by omega) (by omega)

section Stream

variable {e : Env} {ws : List Window} {w : Window} {more : List ReadAnswer} (hws : ∀ v ∈ ws, v.bytes.length = 64)
  (hfits : 64 * ws.length ≤ Config.maxMsgBytes) (hpasses : Config.maxMsgBytes < 64 * ws.length + w.bytes.length)
  (hreads : e.reads = (ws ++ [w]).map ReadAnswer.window ++ more) (hp : e.continues ws.length)

include hws hfits hpasses hreads hp

/-- A stream whose window `w`, after the full windows `ws`, passes the bound. Since the bound is one byte below a whole number of windows, `w` is full. -/
theorem digestOf_stream_tooLong (h : Word) (c : Streaming) : (digestOf (.stream h) c e).how = .refused .messageTooLong := by
  have hmax : Config.maxMsgBytes % 64 = 63 := by decide
  have hw : w.bytes.length = 64 := by have := w.short; omega
  have hsplit : e.reads = ws.map ReadAnswer.window ++ ([w].map ReadAnswer.window ++ more) := by rw [hreads, List.map_append, List.append_assoc]
  exact digestOf_tooLong (.stream h) (.stream h) (.stream h) c e ws w _ more (List.forall_mem_append.mpr ⟨hws, by simpa using hw⟩) ⟨hsplit, rfl⟩
    ⟨rfl, rfl⟩ hp hfits (by omega)

/-- The same for a file that opens (R217). -/
theorem digestFile_tooLong (id h : Word) (c : Streaming) (hopen : e.opens.headD e.later.opened = .opened h) :
    (digestFile id c e).how = .refused .messageTooLong :=
  digestFile_refused hopen
    (digestOf_stream_tooLong (e := { e with opens := e.opens.tail, seen := .envOpen id :: e.seen }) hws hfits hpasses hreads hp h c)

end Stream

/-! ## HASHD after files that deliver their messages (R249 to R252) -/

/-- A rendering has 32 characters, so `HEXCAT` has 32 for each file. -/
theorem length_renderings (files : List (Word × List Byte)) : (files.flatMap fun f => render (digestOfMessage f.2)).length = 32 * files.length := by
  simp [List.length_flatMap, length_render, Nat.mul_comm]

section Files

variable {p : Params} {root : Word} {c : Streaming} {e : Env} {good rest : List (List Byte × Word)} {files : List (Word × List Byte)}
  {opens : List OpenAnswer} {reads : List ReadAnswer} (hdone : (enumerate p root c e).how = .done) (hne : (enumerate p root c e).dd.ent ≠ [])
  (hkeys : keysDistinct (enumerate p root c e).dd.ent = true) (hsort : sortEntries (enumerate p root c e).dd.ent = good ++ rest)
  (hcount : files.length = good.length) (hlen : ∀ f ∈ files, f.2.length ≤ Config.maxMsgBytes)
  (hopens : e.opens = files.map (fun f => OpenAnswer.opened f.1) ++ opens) (hreads : e.reads = files.flatMap (fun f => windowsOf f.2) ++ reads)

include hdone hne hkeys hsort hcount hlen hopens hreads

/-- `HASHD` when the files of `good` have delivered their messages: what is left to do, and what the environment will answer to it. -/
theorem hashDirectory_after_good (hp : e.continues (pollCount files)) :
    ∃ (c' : Streaming) (d' : Directory) (f : Env), hashDirectory p root c e = filesTail rest c' d' f ∧
      d'.hexcat = files.flatMap (fun f => render (digestOfMessage f.2)) ∧ f.reads = reads ∧ f.opens = opens ∧
      f.polls = e.polls.drop (pollCount files) ∧ f.later = e.later := by
  obtain ⟨-, hhex, hr, ho, hpo, hla⟩ := enumerate_env p root c e
  obtain ⟨c', h⟩ := filesTail_run good rest files (enumerate p root c e).sc (enumerate p root c e).dd (enumerate p root c e).env opens reads hcount
    (Env.continues_drop (n := 0) hpo hla (by rwa [Nat.zero_add])) (ho.trans hopens) (hr.trans hreads) hlen
  rw [hashDirectory_files p root c e hdone hkeys (.inl hne), hsort]
  exact ⟨c', _, _, h, by rw [hhex, List.nil_append], rfl, rfl, by rw [hpo], hla⟩

/-- The next file is too long (R214). -/
theorem hashDirectory_fileTooLong {y : List Byte × Word} {rest' : List (List Byte × Word)} {h : Word} {ws : List Window} {w : Window}
    {more : List ReadAnswer} (hrest : rest = y :: rest') (hopen : opens.headD e.later.opened = .opened h) (hws : ∀ v ∈ ws, v.bytes.length = 64)
    (hfits : 64 * ws.length ≤ Config.maxMsgBytes) (hpasses : Config.maxMsgBytes < 64 * ws.length + w.bytes.length)
    (hstream : reads = (ws ++ [w]).map ReadAnswer.window ++ more) (hp : e.continues (pollCount files + ws.length)) :
    (hashDirectory p root c e).how = .refused .messageTooLong := by
  obtain ⟨c', d', f, hrun, -, hr, ho, hpo, hla⟩ :=
    hashDirectory_after_good hdone hne hkeys hsort hcount hlen hopens hreads (Env.continues_mono hp (Nat.le_add_right _ _))
  rw [hrun, hrest]
  exact filesTail_refused (digestFile_tooLong hws hfits hpasses (hr.trans hstream) (Env.continues_drop hpo hla hp) y.2 h c' (by rw [ho, hla]; exact hopen))

/-- All files have delivered, and the concatenation of their renderings is too long (R252). -/
theorem hashDirectory_concatenationTooLong (hrest : rest = []) (hlong : Config.maxMsgBytes < 32 * good.length)
    (hp : e.continues (pollCount files + Config.maxMsgBytes / 64)) : (hashDirectory p root c e).how = .refused .messageTooLong := by
  obtain ⟨c', d', f, hrun, hhex, -, -, hpo, hla⟩ :=
    hashDirectory_after_good hdone hne hkeys hsort hcount hlen hopens hreads (Env.continues_mono hp (Nat.le_add_right _ _))
  rw [hrun, hrest, filesTail]
  exact digestOf_bytes_tooLong c' (by rw [hhex, length_renderings, hcount]; exact hlong) (Env.continues_drop hpo hla hp)

end Files

/-- Settles O54, clause by clause: the host access, the data operand, a stream and a file, the files and the concatenation of `HASHD`, the block store, the table,
equal keys. -/
theorem outsideTheInterfaceRefused : Obligations.OutsideTheInterfaceRefused := by
  refine ⟨fun s off v data rest hr hoff => ⟨step_read_outside hr hoff, step_write_outside hr hoff⟩,
    fun s hd => ⟨exec_stpnew_tooLong hd, fun hp => exec_hash_refused rfl (digestOf_bytes_tooLong s.sc hd hp)⟩, ?stream, ?directory,
    fun s => exec_stpnew_storeFull, ?table, fun s hdone hkeys => exec_hashd_refused (hashDirectory_equalKeys hdone hkeys)⟩
  case stream =>
    intro s ws w rest hws hfits hpasses hp hreads
    exact ⟨exec_hash_refused rfl (digestOf_stream_tooLong hws hfits hpasses hreads hp s.srcid s.sc),
      fun h hopen => exec_hashf_refused (digestFile_tooLong hws hfits hpasses hreads hp s.srcid h s.sc hopen)⟩
  case directory =>
    intro s good rest files opens reads r hdone hne hkeys hsort hcount hlen hopens hreads
    refine ⟨fun y rest' h ws w more hrest hopen hws hfits hpasses hstream hp => exec_hashd_refused ?_, fun hrest hlong hp => exec_hashd_refused ?_⟩
    · exact hashDirectory_fileTooLong hdone hne hkeys hsort hcount hlen hopens hreads hrest hopen hws hfits hpasses hstream hp
    · exact hashDirectory_concatenationTooLong hdone hne hkeys hsort hcount hlen hopens hreads hrest hlong hp
  case table =>
    intro s f more hscans hfull
    exact exec_hashd_refused (hashDirectory_enumerate_refused ((enumerate_forest s.params s.srcid s.sc s.env f more hscans).2 hfull))

end Sys2Proof.Machine

/-! # What the host reads and writes (O8, O9, O10, O11, O12, O55)

`State.regRead` is read off its definition once per group of offsets: the fields of `STATUS`, the 64-bit counters, the reserved offsets, the `STP_*` window
of a clear stepper, and everything after reset. -/

namespace Sys2Proof.Machine

theorem isRegOffset_eq_true {off : Nat} (h : off % 4 = 0) (hle : off ≤ 0xFC) : isRegOffset off = true := by
  simp [isRegOffset, h, hle]

/-! ## Reads (R32) -/

theorem toNat_loWord (x : Dword) : (loWord x).toNat = x.toNat % 2 ^ 32 := by
  simp [loWord]

theorem toNat_hiWord (x : Dword) : (hiWord x).toNat = x.toNat / 2 ^ 32 := by
  have := x.isLt
  rw [hiWord, BitVec.extractLsb'_toNat, Nat.shiftRight_eq_div_pow]
  omega

theorem State.regRead_dighex (s : State) (k : Fin 8) : s.regRead (0x20 + 4 * k.val) = s.dighex[k] := by
  fin_cases k <;> rfl

/-- `CMD` and the offsets no register stands at read 0 (R39). -/
theorem State.regRead_reserved (s : State) {off : Nat} (h : off = 0x00 ∨ off = 0x0C ∨ 0x80 ≤ off) : s.regRead off = 0 := by
  unfold State.regRead
  split
  case h_31 => rfl
  all_goals omega

/-- Settles O8: the value is `regRead`, offset by offset. -/
theorem registerMap : Obligations.RegisterMap := by
  intro s off rest hreq hhost halign hle
  refine ⟨s.regRead off, by rw [step_read hreq hhost, isRegOffset_eq_true halign hle, if_pos rfl], ?_⟩
  have hdighex : ∀ k : Fin 8, off = 0x20 + 4 * k.val → s.regRead off = s.dighex[k] := fun k h => h ▸ s.regRead_dighex k
  refine ⟨?_, ?_, ?_, ?_, ?_, ?_, hdighex, ?_, ?_, ?_, ?_, ?_, ?_, ?_, ?_, ?blkidxLo, ?blkidxHi, ?nblkLo, ?nblkHi, ?stepidx, ?round, ?widx, ?_,
    s.regRead_reserved⟩
  case blkidxLo => rintro rfl; exact toNat_loWord s.st.blkidx
  case blkidxHi => rintro rfl; exact toNat_hiWord s.st.blkidx
  case nblkLo => rintro rfl; exact toNat_loWord s.st.nblk
  case nblkHi => rintro rfl; exact toNat_hiWord s.st.nblk
  case stepidx | round | widx => rintro rfl; exact BitVec.toNat_setWidth_of_le (by norm_num)
  all_goals rintro rfl; rfl

/-! ## STATUS (R34) -/

/-- The three fields of `STATUS`, and the bits outside them. -/
theorem State.statusWord_fields (s : State) :
    s.statusWord.toNat % 2 ^ 4 = s.rkind.code.toNat ∧ s.statusWord.toNat / 2 ^ 4 % 2 ^ 3 = s.st.phase.code.toNat ∧
      s.statusWord.toNat / 2 ^ 8 % 2 ^ 8 = s.cause.code.toNat ∧ s.statusWord.toNat / 2 ^ 7 % 2 = 0 ∧ s.statusWord.toNat / 2 ^ 16 = 0 := by
  have := s.rkind.code.isLt
  have := s.st.phase.code.isLt
  have := s.cause.code.isLt
  rw [s.statusWord_toNat]
  omega

/-- A field that shows the code of `a` shows the number a table of codes gives `a`. -/
theorem field_of_codes {α : Type} {m : Nat} (code : α → BitVec m) {table : List (α × Nat)} (htable : ∀ x ∈ table, (code x.1).toNat = x.2) {a : α}
    {field : Nat} (hfield : field = (code a).toNat) : ∀ x ∈ table, a = x.1 → field = x.2 := by
  rintro x hx rfl
  exact hfield.trans (htable x hx)

/-- Settles O10: each field is the code of its register, and the codes are those written out. -/
theorem statusFields : Obligations.StatusFields := by
  intro s
  obtain ⟨hrkind, hphase, hcause, hbit7, hupper⟩ := s.statusWord_fields
  exact ⟨hbit7, hupper, field_of_codes RKind.code (by decide) hrkind, field_of_codes Phase.code (by decide) hphase,
    field_of_codes Cause.code (by decide) hcause⟩

/-! ## No session (R38) -/

/-- The `STP_*` window shows only what `Stepper.isClear` says is 0, and past it no register stands. -/
theorem State.regRead_of_isClear {s : State} (h : s.st.isClear) {off : Nat} (hlo : 0x40 ≤ off) : s.regRead off = 0 := by
  obtain ⟨hh, hw, hblkidx, hnblk, hstepidx, hround, hwidx, hpre, -⟩ := h
  simp only [State.regRead, hh, hw, hblkidx, hnblk, hstepidx, hround, hwidx, hpre]
  split
  -- The first fourteen rows of the map lie below the window.
  iterate 14 next => omega
  all_goals rfl

/-- Settles O11: the invariant says the stepper is clear in `NoSession`. -/
theorem noSessionReadsZero : Obligations.NoSessionReadsZero := by
  intro s off hinv hphase hlo _
  have hok := hinv.stepperOk
  unfold Stepper.ok at hok
  rw [hphase] at hok
  exact State.regRead_of_isClear hok hlo

/-! ## Writes (R35, R39) -/

/-- Settles O9: the transaction is `regWrite`, which stores at one offset only. -/
theorem registerWrites : Obligations.RegisterWrites := by
  intro s off v data rest hreq hhost halign hle hcmd
  have hstep : step s = .next (({ s with host := rest } : State).regWrite off v) := by
    rw [step_write hreq hhost hcmd, isRegOffset_eq_true halign hle, if_pos rfl]
  refine ⟨?_, fun hoff => ?_⟩
  · rintro rfl
    exact hstep
  · rw [hstep, State.regWrite_other _ _ _ hoff]

/-! ## Reset (R41, R350 to R352) -/

theorem Stepper.zero_isClear : Stepper.zero.isClear := ⟨rfl, rfl, rfl, rfl, rfl, rfl, rfl, rfl, rfl⟩

theorem State.regRead_reset (off : Nat) : State.reset.regRead off = 0 := by
  unfold State.regRead
  split <;> rfl

/-- What the platform's reset keeps is nothing a register shows. -/
theorem State.regRead_resetEngine (s : State) (off : Nat) : s.resetEngine.regRead off = 0 :=
  State.regRead_reset off

/-- Settles O12, at power-on and after the platform's reset. -/
theorem resetValues : Obligations.ResetValues := by
  refine ⟨State.regRead_reset, rfl, rfl, rfl, step_idle rfl rfl, fun s rest hreq hhost => ?_⟩
  exact ⟨_, step_reset hreq hhost, State.regRead_resetEngine _, rfl, rfl, rfl, rfl⟩

/-- Settles O55, clause by clause. -/
theorem invariantAtReset : Obligations.InvariantAtReset where
  noStepPending := rfl
  memoryCanonical := Memory.wf_nil
  stepperOk := Stepper.zero_isClear
  statusOk := ⟨rfl, rfl⟩
  resultOk := .inr ⟨rfl, rfl⟩

end Sys2Proof.Machine

/-! # A step runs what its bytes decode to (O3, O5) -/

namespace Sys2Proof.Machine

/-- The four bytes of a word decode as that word (R81). -/
theorem decode_bytesLE (w : Word) : decode (bytesLE 4 w.toNat) = decodeCmd w := by
  show decodeCmd (le32 (bytesLE 4 w.toNat)) = decodeCmd w
  rw [le32_bytesLE]

/-- Settles O3: a write of `CMD` runs what `decodeCmd` reads, which is what its bytes decode to. -/
theorem stepRunsDecodedCommand : Obligations.StepRunsDecodedCommand := by
  intro s w data rest i hreq hhost hdecode
  rw [decode_bytesLE] at hdecode
  rw [step_command hreq hhost, hdecode]

theorem decodeTableWord_eq_some {nbits w : Nat} {i : Instr} :
    decodeTableWord nbits w = some i ↔ decode (bytesLE (if nbits ≤ 8 then 1 else 4) w) = .ok i := by
  unfold decodeTableWord
  cases decode (bytesLE (if nbits ≤ 8 then 1 else 4) w) <;> simp [Except.toOption]

theorem decode_byte (b : Byte) :
    decode [b] = if b.toNat < 64 then .ok (decodeStep (b.setWidth 6)) else .error .notAStepNumber := rfl

/-- One byte that decodes is the step number of its low six bits (R111). -/
theorem decodeStep_of_decode_byte {w : Nat} {i : Instr} (h : decode [BitVec.ofNat 8 w] = .ok i) : decodeStep (BitVec.ofNat 6 w) = i := by
  rw [decode_byte] at h
  split at h
  · rw [BitVec.setWidth_ofNat_of_le (by norm_num)] at h
    exact Except.ok.inj h
  · cases h

/-- Settles O5: a placed command word is the next write of `CMD`, a placed byte the pending step number. -/
theorem placedWordRuns : Obligations.PlacedWordRuns := by
  refine ⟨fun s w i hw hdecode => ?_, fun s w i _ hdecode => ?_⟩
  · have hword : decode (bytesLE 4 (BitVec.ofNat 32 w).toNat) = .ok i := by
      rw [BitVec.toNat_ofNat, Nat.mod_eq_of_lt hw]
      exact decodeTableWord_eq_some.mp hdecode
    exact stepRunsDecodedCommand (s.withFetchWord 32 w) (BitVec.ofNat 32 w) s.data s.host i rfl rfl hword
  · have hstep : decodeStep (BitVec.ofNat 6 w) = i := decodeStep_of_decode_byte (decodeTableWord_eq_some.mp hdecode)
    rw [step_stepNumber (s := s.withFetchWord 8 w) rfl, hstep]
    rfl

end Sys2Proof.Machine

/-! # The cursor (O49) -/

namespace Sys2Proof.Machine

theorem Stepper.position_enterBlock {t : Stepper} {b : Nat} (hb : b < t.nblk.toNat) (blk : List Byte) :
    (t.enterBlock b blk).position = 65 * b + 1 := by
  have hb64 : (BitVec.ofNat 64 b).toNat = b := by
    rw [BitVec.toNat_ofNat, Nat.mod_eq_of_lt (hb.trans t.nblk.isLt)]
  simp [Stepper.position, hb64]

theorem Stepper.position_nextStep {t : Stepper} (hp : t.phase = .inStep) (hs : t.stepidx.toNat < 63) :
    t.nextStep.position = t.position + 1 := by
  have hnext : (t.stepidx + 1#6).toNat = t.stepidx.toNat + 1 := by
    rw [BitVec.toNat_add]
    simp
    omega
  simp only [Stepper.position, Stepper.nextStep_phase, hp, Stepper.nextStep_blkidx, Stepper.nextStep_stepidx, hnext]
  omega

theorem Stepper.position_foldBlock {t : Stepper} (hp : t.phase = .inStep) (hs : ¬ t.stepidx.toNat < 63) :
    t.foldBlock.position = t.position + 1 := by
  have := t.stepidx.isLt
  simp only [Stepper.position, Stepper.foldBlock_phase, hp, Stepper.foldBlock_blkidx]
  omega

theorem Stepper.position_completed {t : Stepper} (hp : t.phase = .completed) : t.position = 65 * t.nblk.toNat + 1 := by
  rw [Stepper.position, hp]

/-- An advance of a session under way has a transition, into the next position of R31 (R275 to R280). -/
theorem execStpadv_position {s : State} (hok : s.st.ok) (hn : s.st.phase ≠ .noSession) (hc : s.st.phase ≠ .completed) :
    ∃ t, execStpadv s = .next t ∧ t.st.position = s.st.position + 1 := by
  unfold Stepper.ok at hok
  cases hp : s.st.phase with
  | noSession => exact absurd hp hn
  | completed => exact absurd hp hc
  | ready =>
    rw [hp] at hok
    obtain ⟨⟨data, hholds⟩, -⟩ := hok
    have hpos : 0 < s.st.nblk.toNat := Stepper.toNat_nblk hholds ▸ nblkOf_pos _
    refine ⟨_, execStpadv_ready hp hpos, ?_⟩
    rw [State.respond_st, Stepper.position_enterBlock hpos, Stepper.position, hp]
  | inStep =>
    by_cases hs : s.st.stepidx.toNat < 63
    · exact ⟨_, execStpadv_step hp hs, Stepper.position_nextStep hp hs⟩
    · exact ⟨_, execStpadv_fold hp hs, Stepper.position_foldBlock hp hs⟩
  | blockBoundary =>
    rw [hp] at hok
    obtain ⟨-, hlt, -⟩ := hok
    have hpos : s.st.position = 65 * s.st.blkidx.toNat + 65 := by rw [Stepper.position, hp]
    by_cases hb : s.st.blkidx.toNat + 1 < s.st.nblk.toNat
    · refine ⟨_, execStpadv_nextBlock hp hb, ?_⟩
      rw [State.respond_st, Stepper.position_enterBlock hb, hpos]
      omega
    · have hlast : s.st.blkidx.toNat + 1 = s.st.nblk.toNat := by omega
      refine ⟨_, execStpadv_complete hp hlast, ?_⟩
      rw [State.completeSession_st, Stepper.position_completed rfl, hpos, ← hlast]
      omega

/-- Settles O49: the invariant supplies the session's shape, and no advance writes `NBLK`. -/
theorem advanceMovesOnePosition : Obligations.AdvanceMovesOnePosition := by
  intro s hinv hn hc
  obtain ⟨t, hnext, hpos⟩ := execStpadv_position hinv.stepperOk hn hc
  obtain ⟨-, -, hnblk, -⟩ := execStpadv_memory hinv.memoryCanonical hnext
  exact ⟨t, hnext, hpos, hnblk⟩

end Sys2Proof.Machine

/-! # How a command ends (O58)

One lemma for the end every digest command shares, one for `STPADV`; the other commands have one or two answers each. -/

namespace Sys2Proof.Machine

/-- A command has ended with an outcome of V51: `NONE` is left to reset (R108). -/
def State.answered (s : State) : Prop := statusOk s.rkind s.cause s.st.phase ∧ s.rkind ≠ .none

/-- No outcome of V51 has a reserved cause (R323). -/
theorem statusOk_cause {k : RKind} {c : Cause} {p : Phase} (h : statusOk k c p) : c ≠ .encoding ∧ c ≠ .validation := by
  constructor <;> rintro rfl <;> cases k <;> simp [statusOk] at h

theorem State.raiseFault_typeSource_answered (s : State) : (s.raiseFault .typeSource).answered := by
  simp [State.answered, statusOk]

theorem statusOk_error_of_ioCause {c : Cause} (h : ioCause c) (p : Phase) : statusOk .error c p :=
  .inl (List.mem_cons_of_mem _ (List.mem_append_left [Cause.illegalCmd] h))

theorem State.finish_answered {e : End} {s t : State} (hcause : ∀ c, e = .failed c → ioCause c) (h : s.finish e = .next t) : t.answered := by
  rcases State.finish_next h with ⟨-, rfl⟩ | ⟨c, he, rfl⟩ | ⟨-, rfl⟩
  · exact ⟨rfl, nofun⟩
  · exact ⟨statusOk_error_of_ioCause (hcause c he) _, nofun⟩
  · exact ⟨rfl, nofun⟩

theorem execHash_answered {k : BitVec 2} {s t : State} (h : execHash k s = .next t) : t.answered := by
  rcases execHash_next h with ⟨-, rfl⟩ | ⟨src, -, hfinish⟩
  · exact s.raiseFault_typeSource_answered
  · refine State.finish_answered (fun c hc => ?_) hfinish
    rw [digestLoop_cause _ _ _ _ _ c hc]
    simp [ioCause]

theorem execStpnew_answered {k : BitVec 2} {s t : State} (h : execStpnew k s = .next t) : t.answered := by
  rcases execStpnew_next h with ⟨-, rfl⟩ | ⟨-, -, -, rfl⟩
  · exact s.raiseFault_typeSource_answered
  · exact ⟨⟨rfl, rfl⟩, nofun⟩

theorem execStpadv_answered {s t : State} (h : execStpadv s = .next t) : t.answered := by
  rcases execStpadv_next h with ⟨hp, rfl⟩ | ⟨-, -, rfl⟩ | ⟨hp, -, rfl⟩ | ⟨-, -, rfl⟩ | ⟨-, -, rfl⟩ | ⟨-, -, rfl⟩ | ⟨hp, rfl⟩
  · exact ⟨.inr ⟨rfl, hp⟩, nofun⟩
  · exact ⟨⟨rfl, rfl⟩, nofun⟩
  · exact ⟨⟨rfl, hp⟩, nofun⟩
  · exact ⟨⟨rfl, rfl⟩, nofun⟩
  · exact ⟨⟨rfl, rfl⟩, nofun⟩
  · exact ⟨⟨rfl, rfl⟩, nofun⟩
  · exact ⟨⟨rfl, hp⟩, nofun⟩

theorem exec_command_answered {i : Instr} {s t : State} (hi : isCommand i = true) (h : exec i s = .next t) : t.answered := by
  cases i with
  | hash k => exact execHash_answered h
  | hashf => exact State.finish_answered (fun c => digestFile_cause _ _ _ c) h
  | hashd => exact State.finish_answered (fun c => hashDirectory_cause _ _ _ _ c) h
  | stpnew k => exact execStpnew_answered h
  | stpadv => exact execStpadv_answered h
  | stprst => obtain rfl := Host.Outcome.next.inj h; exact ⟨⟨rfl, rfl⟩, nofun⟩
  | stepFF _ | stepGG _ | stepHH _ | stepII _ => cases hi

/-- Settles O58: every command answers with an outcome of V51, and those have no reserved cause. -/
theorem commandOutcomes : Obligations.CommandOutcomes := by
  intro i s t hi h
  obtain ⟨hstatus, hnone⟩ := exec_command_answered hi h
  exact ⟨hstatus, hnone, statusOk_cause hstatus⟩

end Sys2Proof.Machine

/-! # Who writes SRCID and the parameters (O59) -/

namespace Sys2Proof.Machine

/-- `SRCID` and the parameters are as they were: what every instruction keeps (R35, log 5). -/
def State.keepsHostInputs (s t : State) : Prop := t.srcid = s.srcid ∧ t.params = s.params

theorem State.finish_keepsHostInputs {e : End} {s t : State} (h : s.finish e = .next t) : s.keepsHostInputs t := by
  obtain ⟨hsrcid, -, -, hparams, -⟩ := State.finish_frame h
  exact ⟨hsrcid, hparams⟩

theorem State.applyStep_keepsHostInputs (s : State) (f : Context → Context × StepRecord) : s.keepsHostInputs (s.applyStep f) :=
  ⟨s.applyStep_srcid f, s.applyStep_params f⟩

theorem execHash_keepsHostInputs {k : BitVec 2} {s t : State} (h : execHash k s = .next t) : s.keepsHostInputs t := by
  rcases execHash_next h with ⟨-, rfl⟩ | ⟨src, -, hfinish⟩
  · exact ⟨rfl, rfl⟩
  · exact State.finish_keepsHostInputs (s := s.withRun _) hfinish

theorem execStpnew_keepsHostInputs {k : BitVec 2} {s t : State} (h : execStpnew k s = .next t) : s.keepsHostInputs t := by
  rcases execStpnew_next h with ⟨-, rfl⟩ | ⟨-, -, -, rfl⟩ <;> exact ⟨rfl, rfl⟩

theorem execStpadv_keepsHostInputs {s t : State} (h : execStpadv s = .next t) : s.keepsHostInputs t := by
  rcases execStpadv_next h with ⟨-, rfl⟩ | ⟨-, -, rfl⟩ | ⟨-, -, rfl⟩ | ⟨-, -, rfl⟩ | ⟨-, -, rfl⟩ | ⟨-, -, rfl⟩ | ⟨-, rfl⟩ <;> exact ⟨rfl, rfl⟩

theorem exec_keepsHostInputs {i : Instr} {s t : State} (h : exec i s = .next t) : s.keepsHostInputs t := by
  cases i with
  | hash k => exact execHash_keepsHostInputs h
  | hashf => exact State.finish_keepsHostInputs (s := s.withRun _) h
  | hashd => exact State.finish_keepsHostInputs (s := (s.withDirRun _).dropDD) h
  | stpnew k => exact execStpnew_keepsHostInputs h
  | stpadv => exact execStpadv_keepsHostInputs h
  | stprst => obtain rfl := Host.Outcome.next.inj h; exact ⟨rfl, rfl⟩
  | stepFF _ | stepGG _ | stepHH _ | stepII _ =>
    obtain rfl := Host.Outcome.next.inj h
    exact State.applyStep_keepsHostInputs _ _

/-- Settles O59: by what the step did. -/
theorem sourceRegisterIsTheHosts : Obligations.SourceRegisterIsTheHosts := by
  refine ⟨fun i s t h => (exec_keepsHostInputs h).1, fun s t h => ?_⟩
  rcases step_next h with ⟨n, -, hexec⟩ | ⟨-, ⟨-, rfl⟩ | ⟨rest, hhost, rfl⟩ | ⟨off, rest, -, rfl⟩ | ⟨off, v, data, rest, hhost, -, rfl⟩ |
    ⟨v, data, rest, -, ⟨i, -, hexec⟩ | rfl⟩⟩
  · obtain ⟨hsrcid, hparams⟩ := exec_keepsHostInputs hexec
    exact ⟨hparams, .inl hsrcid⟩
  · exact ⟨rfl, .inl rfl⟩
  · exact ⟨rfl, .inr ⟨rest, .inl hhost⟩⟩
  · exact ⟨rfl, .inl rfl⟩
  · by_cases hoff : off = 0x08
    · subst hoff
      exact ⟨rfl, .inr ⟨rest, .inr ⟨data, hhost⟩⟩⟩
    · rw [State.regWrite_other _ _ _ hoff]
      exact ⟨rfl, .inl rfl⟩
  · obtain ⟨hsrcid, hparams⟩ := exec_keepsHostInputs hexec
    exact ⟨hparams, .inl hsrcid⟩
  · exact ⟨rfl, .inl rfl⟩

end Sys2Proof.Machine

/-! # The words of the tables, field by field (O2) -/

namespace Sys2Proof.Machine

theorem cmdWord_toNat (opc : BitVec 8) (k : BitVec 2) : (cmdWord opc k).toNat = opc.toNat + 256 * k.toNat := by
  rw [cmdWord, BitVec.toNat_append, BitVec.toNat_append, ← Nat.shiftLeft_add_eq_or_of_lt opc.isLt, Nat.shiftLeft_eq,
    BitVec.toNat_ofNat, Nat.zero_mod, Nat.zero_shiftLeft, Nat.zero_or]
  omega

/-- The order of R81: a command word's first byte is `OPC`, its second holds `SRCK`, and the rest are reserved bits (R101). -/
theorem le32_cmdFields (opc : BitVec 8) (k : BitVec 2) : le32 [opc, k.setWidth 8, 0, 0] = cmdWord opc k := by
  have hbytes : leNat [opc, k.setWidth 8, 0, 0] = (cmdWord opc k).toNat := by
    simpa [leNat, cmdWord_toNat] using k.isLt.trans (by norm_num)
  rw [le32, hbytes, BitVec.ofNat_toNat, BitVec.setWidth_eq]

theorem reservedOf_cmdWord (opc : BitVec 8) (k : BitVec 2) : reservedOf (cmdWord opc k) = 0#22 := by
  apply BitVec.eq_of_toNat_eq
  simp only [reservedOf, BitVec.extractLsb'_toNat, cmdWord_toNat, Nat.shiftRight_eq_div_pow, BitVec.toNat_zero]
  omega

theorem opcOf_cmdWord (opc : BitVec 8) (k : BitVec 2) : opcOf (cmdWord opc k) = opc :=
  BitVec.extractLsb'_append_eq_right

theorem srckOf_cmdWord (opc : BitVec 8) (k : BitVec 2) : srckOf (cmdWord opc k) = k := by
  apply BitVec.eq_of_toNat_eq
  simp only [srckOf, BitVec.extractLsb'_toNat, cmdWord_toNat, Nat.shiftRight_eq_div_pow]
  omega

/-- A word without reserved bits is read by its fields (R101, R102). -/
theorem decodeCmd_cmdWord (opc : BitVec 8) (k : BitVec 2) : decodeCmd (cmdWord opc k) = decodeFields opc k := by
  rw [decodeCmd, if_pos (reservedOf_cmdWord opc k), opcOf_cmdWord, srckOf_cmdWord]

/-- The bytes of a command word are read by the fields they hold (R81, R101, R103). -/
theorem decode_cmdFields (opc : BitVec 8) (k : BitVec 2) : decode [opc, k.setWidth 8, 0, 0] = decodeFields opc k := by
  show decodeCmd (le32 [opc, k.setWidth 8, 0, 0]) = decodeFields opc k
  rw [le32_cmdFields, decodeCmd_cmdWord]

/-- Every round select and position is a legal step number, held in one byte (R111, log 22). -/
theorem decode_stepNumber (rnd : BitVec 2) (pos : BitVec 4) :
    decode [(stepNumber rnd pos).setWidth 8] = .ok (decodeStep (stepNumber rnd pos)) := by
  have hlt : ((stepNumber rnd pos).setWidth 8).toNat < 64 := by
    rw [BitVec.toNat_setWidth_of_le (by norm_num)]
    exact (stepNumber rnd pos).isLt
  rw [decode_byte, if_pos hlt, BitVec.setWidth_setWidth_of_le _ (by norm_num), BitVec.setWidth_eq]

/-- Settles O2: the seven command words by their opcode and source kind, the four step numbers by their round select and position. -/
theorem writtenWordsDecode : Obligations.WrittenWordsDecode :=
  ⟨decode_cmdFields 1 0, decode_cmdFields 1 1, decode_cmdFields 2 0, decode_cmdFields 3 0, decode_cmdFields 4 0, decode_cmdFields 5 0,
    decode_cmdFields 6 0, decode_stepNumber 0 5, decode_stepNumber 1 1, decode_stepNumber 2 9, decode_stepNumber 3 15⟩

end Sys2Proof.Machine

/-! # Decoder and encoder, inverse to each other (O1), and a pending step number (O4)

A command word without reserved bits is its opcode and its source kind, a step number its round select and its position, so what `decode` reads is always
the bytes of such fields; on those bytes the decoder and the encoder are compared field by field. -/

namespace Sys2Proof.Machine

/-! ## Step numbers (R111) -/

theorem stepNumber_toNat (rnd : BitVec 2) (pos : BitVec 4) : (stepNumber rnd pos).toNat = 16 * rnd.toNat + pos.toNat :=
  toNat_append_bits rnd pos

theorem stepNumber_rnd (rnd : BitVec 2) (pos : BitVec 4) : (stepNumber rnd pos).extractLsb' 4 2 = rnd :=
  BitVec.extractLsb'_append_eq_left

theorem stepNumber_pos (rnd : BitVec 2) (pos : BitVec 4) : (stepNumber rnd pos).extractLsb' 0 4 = pos :=
  BitVec.extractLsb'_append_eq_right

/-- The sixteen step numbers of a round are the positions under its round select. -/
theorem stepNumber_ofNat {i : BitVec 6} {rnd : BitVec 2} (h : i.toNat / 16 = rnd.toNat) : stepNumber rnd (BitVec.ofNat 4 i.toNat) = i := by
  apply BitVec.eq_of_toNat_eq
  rw [stepNumber_toNat, BitVec.toNat_ofNat]
  omega

theorem eq_stepNumber (i : BitVec 6) : ∃ rnd pos, i = stepNumber rnd pos := by
  refine ⟨BitVec.ofNat 2 (i.toNat / 16), BitVec.ofNat 4 i.toNat, (stepNumber_ofNat ?_).symm⟩
  rw [BitVec.toNat_ofNat]
  omega

theorem roundSelect_cases (rnd : BitVec 2) : rnd = 0#2 ∨ rnd = 1#2 ∨ rnd = 2#2 ∨ rnd = 3#2 := by
  revert rnd; decide

theorem decodeStep_FF (pos : BitVec 4) : decodeStep (stepNumber 0#2 pos) = .stepFF pos := by simp [decodeStep, stepNumber_rnd, stepNumber_pos]
theorem decodeStep_GG (pos : BitVec 4) : decodeStep (stepNumber 1#2 pos) = .stepGG pos := by simp [decodeStep, stepNumber_rnd, stepNumber_pos]
theorem decodeStep_HH (pos : BitVec 4) : decodeStep (stepNumber 2#2 pos) = .stepHH pos := by simp [decodeStep, stepNumber_rnd, stepNumber_pos]
theorem decodeStep_II (pos : BitVec 4) : decodeStep (stepNumber 3#2 pos) = .stepII pos := by simp [decodeStep, stepNumber_rnd, stepNumber_pos]

/-- Every step number is legal (R111). -/
theorem decode_stepBytes (i : BitVec 6) : decode (stepBytes i) = .ok (decodeStep i) := by
  obtain ⟨rnd, pos, rfl⟩ := eq_stepNumber i
  exact decode_stepNumber rnd pos

theorem encode_decodeStep (i : BitVec 6) : encode (decodeStep i) = stepBytes i := by
  obtain ⟨rnd, pos, rfl⟩ := eq_stepNumber i
  obtain rfl | rfl | rfl | rfl := roundSelect_cases rnd
  · rw [decodeStep_FF, encode]
  · rw [decodeStep_GG, encode]
  · rw [decodeStep_HH, encode]
  · rw [decodeStep_II, encode]

/-- A byte that decodes is the byte of a step number. -/
theorem decode_byte_eq_ok {b : Byte} {i : Instr} (h : decode [b] = .ok i) : ∃ n, [b] = stepBytes n ∧ decodeStep n = i := by
  rw [decode_byte] at h
  split at h
  next hlt =>
    refine ⟨b.setWidth 6, ?_, Except.ok.inj h⟩
    have hb : (b.setWidth 6).setWidth 8 = b := by
      apply BitVec.eq_of_toNat_eq
      simp only [BitVec.toNat_setWidth]
      omega
    rw [stepBytes, hb]
  next => cases h

/-! ## Command words (R101 to R103) -/

theorem opcOf_toNat (w : Word) : (opcOf w).toNat = w.toNat % 2 ^ 8 := by simp [opcOf]

theorem srckOf_toNat (w : Word) : (srckOf w).toNat = w.toNat / 2 ^ 8 % 2 ^ 2 := by
  rw [srckOf, BitVec.extractLsb'_toNat, Nat.shiftRight_eq_div_pow]

/-- Check 1 of R102 as a bound on the word. -/
theorem reservedOf_eq_zero {w : Word} : reservedOf w = 0#22 ↔ w.toNat / 2 ^ 10 = 0 := by
  have := w.isLt
  rw [← BitVec.toNat_inj, reservedOf, BitVec.extractLsb'_toNat, Nat.shiftRight_eq_div_pow, BitVec.toNat_zero]
  omega

/-- A word without reserved bits is its two fields (R101). -/
theorem cmdWord_fields {w : Word} (h : reservedOf w = 0#22) : cmdWord (opcOf w) (srckOf w) = w := by
  have hres := reservedOf_eq_zero.mp h
  apply BitVec.eq_of_toNat_eq
  rw [cmdWord_toNat, opcOf_toNat, srckOf_toNat]
  omega

/-- A word that decodes has no reserved bits, so it is the command word of its fields. -/
theorem decodeCmd_eq_ok {w : Word} {i : Instr} (h : decodeCmd w = .ok i) : ∃ opc k, w = cmdWord opc k ∧ decodeFields opc k = .ok i := by
  rw [decodeCmd] at h
  split at h
  next hres => exact ⟨opcOf w, srckOf w, (cmdWord_fields hres).symm, h⟩
  next => cases h

theorem withoutSrck_eq_ok {k : BitVec 2} {i j : Instr} : withoutSrck k i = .ok j ↔ k = 0#2 ∧ i = j := by
  unfold withoutSrck
  split <;> simp_all

/-- The encoder has the opcode and the source kind the decoder read (R103): one row of the table at a time. -/
theorem encode_of_decodeFields {opc : BitVec 8} {k : BitVec 2} {i : Instr} (h : decodeFields opc k = .ok i) :
    encode i = cmdBytes (cmdWord opc k) := by
  have hopc : BitVec.ofNat 8 opc.toNat = opc := by rw [BitVec.ofNat_toNat, BitVec.setWidth_eq]
  unfold decodeFields at h
  split at h
  case h_1 hn | h_4 hn =>
    obtain rfl := Except.ok.inj h
    rw [encode, ← hopc, hn]
  case h_2 hn | h_3 hn | h_5 hn | h_6 hn =>
    obtain ⟨rfl, rfl⟩ := withoutSrck_eq_ok.mp h
    rw [encode, ← hopc, hn]
  case h_7 => cases h

theorem decode_cmdBytes (opc : BitVec 8) (k : BitVec 2) : decode (cmdBytes (cmdWord opc k)) = decodeFields opc k :=
  (decode_bytesLE (cmdWord opc k)).trans (decodeCmd_cmdWord opc k)

/-- Four bytes that decode are the bytes of a command word. -/
theorem decode_word_eq_ok {b0 b1 b2 b3 : Byte} {i : Instr} (h : decode [b0, b1, b2, b3] = .ok i) :
    ∃ opc k, [b0, b1, b2, b3] = cmdBytes (cmdWord opc k) ∧ decodeFields opc k = .ok i := by
  obtain ⟨opc, k, hw, hfields⟩ := decodeCmd_eq_ok (w := le32 [b0, b1, b2, b3]) h
  have hlt : leNat [b0, b1, b2, b3] < 2 ^ 32 := (leNat_lt [b0, b1, b2, b3]).trans_eq (by norm_num)
  refine ⟨opc, k, ?_, hfields⟩
  rw [← hw, cmdBytes, le32, BitVec.toNat_ofNat, Nat.mod_eq_of_lt hlt]
  exact (bytesLE_leNat [b0, b1, b2, b3]).symm

/-! ## Both directions -/

theorem decode_encode (i : Instr) : decode (encode i) = .ok i := by
  cases i with
  | hash k => exact decode_cmdBytes 0x01 k
  | hashf => exact decode_cmdBytes 0x02 0
  | hashd => exact decode_cmdBytes 0x03 0
  | stpnew k => exact decode_cmdBytes 0x04 k
  | stpadv => exact decode_cmdBytes 0x05 0
  | stprst => exact decode_cmdBytes 0x06 0
  | stepFF pos => rw [encode, decode_stepBytes, decodeStep_FF]
  | stepGG pos => rw [encode, decode_stepBytes, decodeStep_GG]
  | stepHH pos => rw [encode, decode_stepBytes, decodeStep_HH]
  | stepII pos => rw [encode, decode_stepBytes, decodeStep_II]

theorem encode_of_decode {bs : List Byte} {i : Instr} (h : decode bs = .ok i) : encode i = bs := by
  match bs with
  | [b] =>
    obtain ⟨n, hbs, rfl⟩ := decode_byte_eq_ok h
    rw [hbs, encode_decodeStep]
  | [b0, b1, b2, b3] =>
    obtain ⟨opc, k, hbs, hfields⟩ := decode_word_eq_ok h
    rw [hbs, encode_of_decodeFields hfields]
  | [] | [_, _] | [_, _, _] | _ :: _ :: _ :: _ :: _ :: _ => cases h

/-- Settles O1: the decoder undoes the encoder, and the encoder the decoder. -/
theorem decodeExactlyEncodings : Obligations.DecodeExactlyEncodings := by
  refine fun bs i => ⟨encode_of_decode, ?_⟩
  rintro rfl
  exact decode_encode i

/-- Settles O4: the pending step number is the one its byte decodes to. -/
theorem stepRunsStepNumber : Obligations.StepRunsStepNumber := by
  intro s n i hreq hdecode
  obtain rfl : decodeStep n = i := Except.ok.inj ((decode_stepBytes n).symm.trans hdecode)
  exact step_stepNumber hreq

end Sys2Proof.Machine

/-! # The checks of a command word (O6) -/

namespace Sys2Proof.Machine

/-! ## Checks 1 to 3 of R102: the decoder's -/

theorem decodeCmd_reserved {w : Word} (h : w.toNat / 2 ^ 10 ≠ 0) : decodeCmd w = .error .reservedBits := by
  rw [decodeCmd, if_neg (mt reservedOf_eq_zero.mp h)]

theorem decodeCmd_unreserved {w : Word} (h : w.toNat / 2 ^ 10 = 0) : decodeCmd w = decodeFields (opcOf w) (srckOf w) := by
  rw [decodeCmd, if_pos (reservedOf_eq_zero.mpr h)]

theorem withoutSrck_zero (i : Instr) : withoutSrck 0#2 i = .ok i := rfl

theorem withoutSrck_nonzero {k : BitVec 2} (h : k ≠ 0#2) (i : Instr) : withoutSrck k i = .error .unusedSrck := if_neg h

/-- The table of R103 by the number of the opcode. -/
theorem decodeFields_rows {opc : BitVec 8} (k : BitVec 2) :
    (opc.toNat = 1 → decodeFields opc k = .ok (.hash k)) ∧ (opc.toNat = 2 → decodeFields opc k = withoutSrck k .hashf) ∧
    (opc.toNat = 3 → decodeFields opc k = withoutSrck k .hashd) ∧ (opc.toNat = 4 → decodeFields opc k = .ok (.stpnew k)) ∧
    (opc.toNat = 5 → decodeFields opc k = withoutSrck k .stpadv) ∧ (opc.toNat = 6 → decodeFields opc k = withoutSrck k .stprst) := by
  refine ⟨?_, ?_, ?_, ?_, ?_, ?_⟩
  all_goals
    intro h
    simp only [decodeFields, h]

theorem decodeFields_unknown {opc : BitVec 8} (k : BitVec 2) (h : opc.toNat < 1 ∨ 6 < opc.toNat) : decodeFields opc k = .error .unknownOpcode := by
  unfold decodeFields
  split
  case h_7 => rfl
  all_goals omega

theorem decodeFields_unusedSrck {opc : BitVec 8} {k : BitVec 2} (h : opc.toNat = 2 ∨ opc.toNat = 3 ∨ opc.toNat = 5 ∨ opc.toNat = 6) (hk : k ≠ 0#2) :
    decodeFields opc k = .error .unusedSrck := by
  obtain ⟨-, hhashf, hhashd, -, hstpadv, hstprst⟩ := decodeFields_rows (opc := opc) k
  rcases h with h | h | h | h
  · rw [hhashf h, withoutSrck_nonzero hk]
  · rw [hhashd h, withoutSrck_nonzero hk]
  · rw [hstpadv h, withoutSrck_nonzero hk]
  · rw [hstprst h, withoutSrck_nonzero hk]

/-! ## Checks 4 and 5: the command's own (R312) -/

theorem exec_hash_badSource (s : State) {k : BitVec 2} (h : 2 ≤ k.toNat) : exec (.hash k) s = .next (s.raiseFault .typeSource) := by
  have hnone : s.sourceOf k = none := by
    unfold State.sourceOf
    split
    case h_3 => rfl
    all_goals omega
  show execHash k s = _
  rw [execHash, hnone]

theorem exec_stpnew_badSource (s : State) {k : BitVec 2} (h : k ≠ 0#2) : exec (.stpnew k) s = .next (s.raiseFault .typeSource) :=
  if_pos h

/-! ## The step -/

theorem step_command_error {s : State} {w : Word} {data : List Byte} {rest : List HostOp} {r : Reject} (hreq : s.stepReq = none)
    (hhost : s.host = .write 0x00 w data :: rest) (hdecode : decodeCmd w = .error r) :
    step s = .next (({ s with host := rest, data := data } : State).raiseFault .illegalCmd) := by
  rw [step_command hreq hhost, hdecode]

theorem step_command_ok {s : State} {w : Word} {data : List Byte} {rest : List HostOp} {i : Instr} (hreq : s.stepReq = none)
    (hhost : s.host = .write 0x00 w data :: rest) (hdecode : decodeCmd w = .ok i) : step s = exec i { s with host := rest, data := data } := by
  rw [step_command hreq hhost, hdecode]

/-- Settles O6: checks 1 to 3 reject the word, checks 4 and 5 are the fault of the command it decodes to. -/
theorem commandWordChecks : Obligations.CommandWordChecks := by
  intro s w data rest hreq hhost s' illegal badSource opc srck
  have hillegal {r : Reject} (hdecode : decodeCmd w = .error r) : illegal := step_command_error hreq hhost hdecode
  have hruns {i : Instr} (hdecode : decodeCmd w = .ok i) : step s = exec i s' := step_command_ok hreq hhost hdecode
  have hopc : (opcOf w).toNat = opc := opcOf_toNat w
  have hsrckNat : (srckOf w).toNat = srck := srckOf_toNat w
  have hsrck : srckOf w = BitVec.ofNat 2 srck := by rw [← hsrckNat, BitVec.ofNat_toNat, BitVec.setWidth_eq]
  have hzero : srckOf w = 0#2 ↔ srck = 0 := by rw [← hsrckNat]; exact BitVec.toNat_inj.symm
  obtain ⟨hhash, hhashf, hhashd, hstpnew, hstpadv, hstprst⟩ := decodeFields_rows (opc := opcOf w) (srckOf w)
  rw [hopc] at hhash hhashf hhashd hstpnew hstpadv hstprst
  split_ifs with hres hunknown hunused hbadHash hbadStpnew
  · exact hillegal (decodeCmd_reserved hres)
  all_goals
    rw [ne_eq, not_not] at hres
    rw [decodeCmd_unreserved hres] at hillegal hruns
  · exact hillegal (decodeFields_unknown _ (hopc ▸ hunknown))
  · exact hillegal (decodeFields_unusedSrck (hopc ▸ hunused.1) (mt hzero.mp hunused.2))
  · exact (hruns (hhash hbadHash.1)).trans (exec_hash_badSource s' (hsrckNat ▸ hbadHash.2))
  · exact (hruns (hstpnew hbadStpnew.1)).trans (exec_stpnew_badSource s' (mt hzero.mp hbadStpnew.2))
  · have hnoSrck (h : opc = 2 ∨ opc = 3 ∨ opc = 4 ∨ opc = 5 ∨ opc = 6) : srckOf w = 0#2 := by rw [hzero]; omega
    refine ⟨fun h => ?_, fun h => ?_, fun h => ?_, fun h => ?_, fun h => ?_, fun h => ?_⟩
    · rw [← hsrck]; exact hruns (hhash h)
    · exact hruns (by rw [hhashf h, hnoSrck (by omega), withoutSrck_zero])
    · exact hruns (by rw [hhashd h, hnoSrck (by omega), withoutSrck_zero])
    · exact hruns (by rw [hstpnew h, hnoSrck (by omega)]; rfl)
    · exact hruns (by rw [hstpadv h, hnoSrck (by omega), withoutSrck_zero])
    · exact hruns (by rw [hstprst h, hnoSrck (by omega), withoutSrck_zero])

end Sys2Proof.Machine

/-! # What a step number selects (O7) -/

namespace Sys2Proof.Machine

/-- The kind is the round select, with the position as its operand (R111). -/
theorem Context.stepAt_FF (pos : BitVec 4) (x : Context) : x.stepAt (stepNumber 0#2 pos) = x.stepFF pos := by
  simp [Context.stepAt, stepNumber_rnd, stepNumber_pos]
theorem Context.stepAt_GG (pos : BitVec 4) (x : Context) : x.stepAt (stepNumber 1#2 pos) = x.stepGG pos := by
  simp [Context.stepAt, stepNumber_rnd, stepNumber_pos]
theorem Context.stepAt_HH (pos : BitVec 4) (x : Context) : x.stepAt (stepNumber 2#2 pos) = x.stepHH pos := by
  simp [Context.stepAt, stepNumber_rnd, stepNumber_pos]
theorem Context.stepAt_II (pos : BitVec 4) (x : Context) : x.stepAt (stepNumber 3#2 pos) = x.stepII pos := by
  simp [Context.stepAt, stepNumber_rnd, stepNumber_pos]

/-- `ROUND(i)` is one more than the round select (R112). -/
theorem roundOf_stepNumber (rnd : BitVec 2) (pos : BitVec 4) : roundOf (stepNumber rnd pos) = BitVec.ofNat 3 (rnd.toNat + 1) := by
  have hdiv : (stepNumber rnd pos).toNat / 16 = rnd.toNat := by rw [stepNumber_toNat]; omega
  rw [roundOf, hdiv]

/-- What the four kinds have in common: a step number under the kind's round select selects the kind, at its position, of the next round, with the message
word of the kind's index rule `g`. -/
theorem Context.stepAt_selects {x : Context} {i : BitVec 6} {rnd : BitVec 2} (kind : BitVec 4 → Context → Context × StepRecord)
    (fn : Word → Word → Word → Word) (g : BitVec 6 → BitVec 4) (hkind : ∀ pos, x.stepAt (stepNumber rnd pos) = kind pos x)
    (hshape : ∀ pos, kind pos x = x.stepShape fn (g (stepNumber rnd pos)) (stepNumber rnd pos)) (h : i.toNat / 16 = rnd.toNat) :
    x.stepAt i = kind (BitVec.ofNat 4 i.toNat) x ∧ (x.stepAt i).2.round = BitVec.ofNat 3 (rnd.toNat + 1) ∧ (x.stepAt i).2.widx = g i := by
  have hi : stepNumber rnd (BitVec.ofNat 4 i.toNat) = i := stepNumber_ofNat h
  have hselected : x.stepAt i = kind (BitVec.ofNat 4 i.toNat) x := by rw [← hkind, hi]
  have hstep : x.stepAt i = x.stepShape fn (g i) i := by rw [hselected, hshape, hi]
  have hround : roundOf i = BitVec.ofNat 3 (rnd.toNat + 1) := by rw [← hi, roundOf_stepNumber]
  exact ⟨hselected, by rw [hstep, ← hround]; rfl, by rw [hstep]; rfl⟩

/-- Settles O7: a range of sixteen step numbers is one round select. -/
theorem stepNumberSelects : Obligations.StepNumberSelects := by
  intro i x
  refine ⟨fun hhi => ?_, fun hlo hhi => ?_, fun hlo hhi => ?_, fun hlo => ?_⟩
  · exact Context.stepAt_selects (rnd := 0#2) Context.stepFF fnF gRound1 (Context.stepAt_FF · x) (fun _ => rfl) (by simp; omega)
  · exact Context.stepAt_selects (rnd := 1#2) Context.stepGG fnG gRound2 (Context.stepAt_GG · x) (fun _ => rfl) (by simp; omega)
  · exact Context.stepAt_selects (rnd := 2#2) Context.stepHH fnH gRound3 (Context.stepAt_HH · x) (fun _ => rfl) (by simp; omega)
  · exact Context.stepAt_selects (rnd := 3#2) Context.stepII fnI gRound4 (Context.stepAt_II · x) (fun _ => rfl) (by simp; omega)

end Sys2Proof.Machine

/-! # The delivered text (O24)

Both the bytes of a digest and the characters of its rendering are sequences of equal pieces: four bytes to a word, two characters to a byte, four
characters to a word of `DIGHEX`. -/

namespace Sys2Proof.Machine

/-! ## Sequences of equal pieces -/

theorem getElem?_flatMap_of_length {α β : Type} {f : α → List β} {n : Nat} (hf : ∀ a, (f a).length = n) (l : List α) (c : Nat) {j : Nat} (hj : j < n) :
    (l.flatMap f)[n * c + j]? = l[c]?.bind fun a => (f a)[j]? := by
  induction l generalizing c with
  | nil => simp
  | cons a l ih =>
    rw [List.flatMap_cons]
    cases c with
    | zero => rw [Nat.mul_zero, Nat.zero_add, List.getElem?_append_left (by rw [hf]; exact hj)]; rfl
    | succ c =>
      have hskip : n * (c + 1) + j = (f a).length + (n * c + j) := by rw [hf]; ring
      rw [hskip, List.getElem?_append_right (Nat.le_add_right _ _), Nat.add_sub_cancel_left, ih]
      rfl

/-- Byte `j` of `bytes_le(v, n)` (R9). -/
theorem getElem?_bytesLE {n j : Nat} (v : Nat) (hj : j < n) : (bytesLE n v)[j]? = some (BitVec.ofNat 8 (v / 2 ^ (8 * j))) := by
  induction n generalizing v j with
  | zero => omega
  | succ n ih =>
    cases j with
    | zero => simp [bytesLE]
    | succ j =>
      rw [bytesLE, List.getElem?_cons_succ, ih (v / 256) (by omega), Nat.div_div_eq_div_mul, Nat.mul_succ, Nat.pow_add, Nat.mul_comm]

theorem digestBytes_eq_flatMap (h : Chain) : digestBytes h = [h.h0, h.h1, h.h2, h.h3].flatMap fun w => bytesLE 4 w.toNat := by
  simp [digestBytes]

/-- Byte `j` of chaining word `c` is byte `4c + j` of the digest (R221). -/
theorem getElem?_digestBytes (h : Chain) (c : Nat) {j : Nat} (hj : j < 4) :
    (digestBytes h)[4 * c + j]? = [h.h0, h.h1, h.h2, h.h3][c]?.bind fun w => (bytesLE 4 w.toNat)[j]? := by
  rw [digestBytes_eq_flatMap, getElem?_flatMap_of_length (f := fun w : Word => bytesLE 4 w.toNat) (fun w => length_bytesLE 4 w.toNat) _ c hj]

/-- Byte `k` of the digest: byte `k mod 4` of chaining word `k div 4` (R221). -/
theorem digestBytes_byte (h : Chain) {k : Nat} (hk : k < 16) :
    (digestBytes h)[k]? = some (BitVec.ofNat 8 (([h.h0, h.h1, h.h2, h.h3].getD (k / 4) 0).toNat / 2 ^ (8 * (k % 4)))) := by
  have hj : k % 4 < 4 := Nat.mod_lt k (by norm_num)
  have hc : k / 4 < [h.h0, h.h1, h.h2, h.h3].length := by simp; omega
  calc (digestBytes h)[k]?
      = (digestBytes h)[4 * (k / 4) + k % 4]? := by rw [Nat.div_add_mod]
    _ = _ := by
        rw [getElem?_digestBytes _ _ hj, List.getElem?_eq_getElem hc, Option.bind_some, getElem?_bytesLE _ hj, List.getD_eq_getElem _ _ hc]

/-- The two characters of byte `k` (R222). -/
theorem getElem?_render (h : Chain) (k : Nat) {j : Nat} (hj : j < 2) :
    (render h)[2 * k + j]? = (digestBytes h)[k]?.bind fun b => (hexByte b)[j]? :=
  getElem?_flatMap_of_length (f := hexByte) (fun _ => rfl) _ k hj

/-! ## The register space, byte by byte (R71, R81) -/

/-- Byte `j` of the register at offset `4c`. -/
theorem State.regByte_word (s : State) (c : Nat) {j : Nat} (hj : j < 4) :
    (bytesLE 4 (s.regRead (4 * c)).toNat)[j]? = some (s.regByte (4 * c + j)) := by
  have hc : (4 * c + j) / 4 = c := by omega
  have hmod : (4 * c + j) % 4 = j := by omega
  rw [State.regByte, hc, hmod, List.getD_eq_getElem?_getD, getElem?_bytesLE _ hj, Option.getD_some]

theorem State.regRead_digest (s : State) (c : Fin 4) :
    [s.digest.h0, s.digest.h1, s.digest.h2, s.digest.h3][c.val]? = some (s.regRead (4 * (4 + c.val))) := by
  fin_cases c <;> rfl

/-- `DIGEST0..3` hold `DIGESTBYTES` of the digest (R36, R221). -/
theorem State.regByte_digest (s : State) {k : Nat} (hk : k < 16) : (digestBytes s.digest)[k]? = some (s.regByte (0x10 + k)) := by
  have hj : k % 4 < 4 := Nat.mod_lt k (by norm_num)
  have hoff : 0x10 + k = 4 * (4 + k / 4) + k % 4 := by omega
  calc (digestBytes s.digest)[k]?
      = (digestBytes s.digest)[4 * (k / 4) + k % 4]? := by rw [Nat.div_add_mod]
    _ = (bytesLE 4 (s.regRead (4 * (4 + k / 4))).toNat)[k % 4]? := by
        rw [getElem?_digestBytes _ _ hj, s.regRead_digest ⟨k / 4, by omega⟩, Option.bind_some]
    _ = some (s.regByte (0x10 + k)) := by rw [s.regByte_word _ hj, ← hoff]

/-- The bytes of word `c` of packed characters are its four characters (R37). -/
theorem bytesLE_packHex {chars : List Byte} (h : chars.length = 32) (c : Fin 8) : bytesLE 4 (packHex chars)[c].toNat = slice chars (4 * c.val) 4 := by
  have hlen : (slice chars (4 * c.val) 4).length = 4 := by rw [length_slice, h]; omega
  have hlt : leNat (slice chars (4 * c.val) 4) < 2 ^ 32 := (leNat_lt _).trans_eq (by rw [hlen]; rfl)
  have hword : (packHex chars)[c].toNat = leNat (slice chars (4 * c.val) 4) := by
    rw [← Nat.mod_eq_of_lt hlt]; simp [packHex, le32]
  calc bytesLE 4 (packHex chars)[c].toNat
      = bytesLE (slice chars (4 * c.val) 4).length (leNat (slice chars (4 * c.val) 4)) := by rw [hword, hlen]
    _ = slice chars (4 * c.val) 4 := bytesLE_leNat _

/-- `DIGHEX0..7` hold the characters packed into them (R37). -/
theorem State.regByte_dighex {s : State} {chars : List Byte} (hs : s.dighex = packHex chars) (hlen : chars.length = 32) {k : Nat} (hk : k < 32) :
    chars[k]? = some (s.regByte (0x20 + k)) := by
  have hj : k % 4 < 4 := Nat.mod_lt k (by norm_num)
  have hoff : 0x20 + k = 4 * (8 + k / 4) + k % 4 := by omega
  have hread : s.regRead (4 * (8 + k / 4)) = (packHex chars)[k / 4] := by
    rw [← hs, Nat.mul_add]; exact s.regRead_dighex ⟨k / 4, by omega⟩
  calc chars[k]?
      = (slice chars (4 * (k / 4)) 4)[k % 4]? := by
        rw [slice, List.getElem?_take_of_lt hj, List.getElem?_drop, Nat.div_add_mod]
    _ = (bytesLE 4 (s.regRead (4 * (8 + k / 4))).toNat)[k % 4]? := by
        rw [hread]; exact congrArg (·[k % 4]?) (bytesLE_packHex hlen ⟨k / 4, by omega⟩).symm
    _ = some (s.regByte (0x20 + k)) := by rw [s.regByte_word _ hj, ← hoff]

/-! ## After a delivery -/

theorem hexDigit_decimal {n : Nat} (h : n < 10) : (hexDigit n).toNat = 0x30 + n := by
  rw [hexDigit, if_pos h, BitVec.toNat_ofNat]; omega

theorem hexDigit_letter {n : Nat} (h : 10 ≤ n) (hlt : n < 16) : (hexDigit n).toNat = 0x61 + (n - 10) := by
  rw [hexDigit, if_neg (by omega), BitVec.toNat_ofNat]; omega

/-- The byte at 0x10 + k is byte `k` of the digest (R36). -/
theorem State.deliver_digestByte (s : State) (h : Chain) {k : Nat} (hk : k < 16) : (digestBytes h)[k]? = some ((s.deliver h).regByte (0x10 + k)) :=
  (s.deliver h).regByte_digest hk

/-- The two characters at 0x20 + 2k are those of the byte at 0x10 + k (R222). -/
theorem State.deliver_hexByte (s : State) (h : Chain) {k j : Nat} (hk : k < 16) (hj : j < 2) :
    some ((s.deliver h).regByte (0x20 + 2 * k + j)) = (hexByte ((s.deliver h).regByte (0x10 + k)))[j]? := by
  rw [Nat.add_assoc, ← State.regByte_dighex (s.deliver_dighex h) (length_render h) (by omega), getElem?_render h k hj,
    s.deliver_digestByte h hk, Option.bind_some]

/-- Settles O24: the characters are those of the bytes, and the bytes those of the chaining words. -/
theorem deliveredTextIsDigest : Obligations.DeliveredTextIsDigest := by
  refine ⟨fun n => hexDigit_decimal, fun n => hexDigit_letter, fun s h k hk => ⟨?_, ?_, ?_⟩⟩
  · exact Option.some.inj (s.deliver_hexByte h hk (j := 0) (by norm_num))
  · exact Option.some.inj (s.deliver_hexByte h hk (j := 1) (by norm_num))
  · rw [Option.some.inj ((s.deliver_digestByte h hk).symm.trans (digestBytes_byte h hk)), BitVec.toNat_ofNat]

end Sys2Proof.Machine

/-! # The bit and word primitives (O13, O14)

`rotl32` is the library's rotation for every amount below 32. As a number its two parts do not overlap: the low part is a multiple of `2^n`, the high
part is below `2^n`. -/

namespace Sys2Proof.Machine

theorem rotl32_eq_rotateLeft (x : Word) {n : Nat} (hn : n < 32) : rotl32 x n = x.rotateLeft n := by
  rw [BitVec.rotateLeft_def, Nat.mod_eq_of_lt hn, rotl32]

/-- The low part of a rotation, moved up, is a multiple of `2^n` (R142). -/
theorem mul_two_pow_mod_word (a : Nat) {n : Nat} (hn : n < 32) : a * 2 ^ n % 2 ^ 32 = 2 ^ n * (a % 2 ^ (32 - n)) := by
  have hword : 2 ^ 32 = 2 ^ n * 2 ^ (32 - n) := by rw [← pow_add, Nat.add_sub_cancel' hn.le]
  rw [hword, Nat.mul_comm a, Nat.mul_mod_mul_left]

/-- The high part of a rotation, brought down, is below `2^n` (R142). -/
theorem toNat_div_two_pow_lt (x : Word) {n : Nat} (hn : n < 32) : x.toNat / 2 ^ (32 - n) < 2 ^ n := by
  refine Nat.div_lt_of_lt_mul ?_
  rw [← pow_add, Nat.sub_add_cancel hn.le]
  exact x.isLt

/-- The arithmetic definition of `rotl32` (R142). -/
theorem toNat_rotl32 (x : Word) {n : Nat} (hn : n < 32) :
    (rotl32 x n).toNat = x.toNat * 2 ^ n % 2 ^ 32 + x.toNat / 2 ^ (32 - n) := by
  calc (rotl32 x n).toNat
      = x.toNat * 2 ^ n % 2 ^ 32 ||| x.toNat / 2 ^ (32 - n) := by
        rw [rotl32_eq_rotateLeft x hn, BitVec.toNat_rotateLeft, Nat.mod_eq_of_lt hn, Nat.shiftLeft_eq, Nat.shiftRight_eq_div_pow]
    _ = x.toNat * 2 ^ n % 2 ^ 32 + x.toNat / 2 ^ (32 - n) := by
        rw [mul_two_pow_mod_word _ hn, Nat.two_pow_add_eq_or_of_lt (toNat_div_two_pow_lt x hn)]

/-- Bit `k` moves to bit `(k + n) mod 32` (R142): up by `n`, or past the top and down by `32 - n`. -/
theorem getLsbD_rotl32 (x : Word) {n k : Nat} (hn : n < 32) (hk : k < 32) : (rotl32 x n).getLsbD ((k + n) % 32) = x.getLsbD k := by
  rw [rotl32_eq_rotateLeft x hn, BitVec.getLsbD_rotateLeft_of_le hn]
  by_cases hwrap : k + n < 32
  · have hpos : (k + n) % 32 = k + n := Nat.mod_eq_of_lt hwrap
    simp [hpos, hwrap]
  · have hpos : (k + n) % 32 = k + n - 32 := by omega
    have hback : 32 - n + (k + n - 32) = k := by omega
    have hlow : k + n - 32 < n := by omega
    simp [hpos, hback, hlow]

/-- Settles O13: the two parts of a rotation do not overlap, and each bit goes up by `n` or wraps. -/
theorem rotateLeft : Obligations.RotateLeft := fun x _ _ hn =>
  ⟨toNat_rotl32 x (Nat.lt_succ_of_le hn), fun _ hk => getLsbD_rotl32 x (Nat.lt_succ_of_le hn) hk⟩

/-! ## The round functions -/

/-- `F` selects by `B` (R143). -/
theorem getLsbD_fnF (b c d : Word) {k : Nat} (hk : k < 32) :
    (fnF b c d).getLsbD k = if b.getLsbD k then c.getLsbD k else d.getLsbD k := by
  rw [fnF, BitVec.getLsbD_or, BitVec.getLsbD_and, BitVec.getLsbD_and, BitVec.getLsbD_not, decide_eq_true hk, Bool.true_and]
  cases b.getLsbD k <;> simp

/-- `G` is `F` with the selector last (R144). -/
theorem fnG_eq_fnF (b c d : Word) : fnG b c d = fnF d b c := by
  rw [fnG, fnF, BitVec.and_comm b, BitVec.and_comm c]

theorem getLsbD_fnH (b c d : Word) (k : Nat) : (fnH b c d).getLsbD k = ((b.getLsbD k ^^ c.getLsbD k) ^^ d.getLsbD k) := by
  rw [fnH, BitVec.getLsbD_xor, BitVec.getLsbD_xor]

theorem getLsbD_fnI (b c d : Word) {k : Nat} (hk : k < 32) : (fnI b c d).getLsbD k = (c.getLsbD k ^^ (b.getLsbD k || !d.getLsbD k)) := by
  rw [fnI, BitVec.getLsbD_xor, BitVec.getLsbD_or, BitVec.getLsbD_not, decide_eq_true hk, Bool.true_and]

/-- Settles O14: `F` and `G` are one selection, `H` and `I` are read off bit by bit. -/
theorem roundFunctions : Obligations.RoundFunctions := fun b c d k hk =>
  ⟨getLsbD_fnF b c d hk, by rw [fnG_eq_fnF, getLsbD_fnF d b c hk], getLsbD_fnH b c d k, getLsbD_fnI b c d hk⟩

end Sys2Proof.Machine

/-! # The block compressor (O15 to O18)

The four step rows are one shape (R163); the rounds differ in the step numbers, the function, the index rule and the row of `ROT` only. -/

namespace Sys2Proof.Machine

/-! ## The step rows (R163 to R167) -/

/-- Each step row completes with a step of the shape of R163. -/
theorem exec_stepRow {i : Instr} {pos : BitVec 4} (s : State) (h : i ∈ [.stepFF pos, .stepGG pos, .stepHH pos, .stepII pos]) :
    ∃ fn g n, exec i s = .next (s.applyStep (Context.stepShape fn g n)) := by
  simp only [List.mem_cons, List.not_mem_nil, or_false] at h
  obtain rfl | rfl | rfl | rfl := h
  · exact ⟨fnF, _, stepNumber 0#2 pos, rfl⟩
  · exact ⟨fnG, _, stepNumber 1#2 pos, rfl⟩
  · exact ⟨fnH, _, stepNumber 2#2 pos, rfl⟩
  · exact ⟨fnI, _, stepNumber 3#2 pos, rfl⟩

/-- A step leaves the state of R163, with the constant, the amount and the round of its step number. -/
theorem State.applyStep_stepShape (s : State) (fn : Word → Word → Word → Word) (g : BitVec 4) (n : BitVec 6) :
    s.applyStep (Context.stepShape fn g n) = afterStep fn g (tOf n) (sOf n) (roundOf n) s := by
  cases hctx : s.stepCtx with
  | sc => rw [s.applyStep_sc _ hctx]; simp only [afterStep, hctx]; rfl
  | st => rw [s.applyStep_st _ hctx]; simp only [afterStep, hctx]; rfl

/-- What the four rows have in common: the step at position `pos` of round `rnd + 1` is the step number `i = 16 rnd + pos`, whose constant, amount and
message word it takes (R112). -/
theorem State.applyStep_round (s : State) (fn : Word → Word → Word → Word) (index : Nat → Nat) {rnd : BitVec 2} {pos : BitVec 4} {i : Nat}
    (hi : 16 * rnd.toNat + pos.toNat = i) :
    s.applyStep (Context.stepShape fn (BitVec.ofNat 4 (index (stepNumber rnd pos).toNat)) (stepNumber rnd pos)) =
      afterStep fn (BitVec.ofNat 4 (index i)) (tTable.getD i 0) ((rotRow rnd).getD (i % 4) 0) (BitVec.ofNat 3 (rnd.toNat + 1)) s := by
  rw [s.applyStep_stepShape, tOf, sOf, roundOf_stepNumber, stepNumber_rnd, stepNumber_toNat, hi]

/-- Settles O15: the four rows are one shape, each at its round's step numbers, index rule and row of `ROT`. -/
theorem stepKinds : Obligations.StepKinds := fun pos s =>
  ⟨congrArg Host.Outcome.next (s.applyStep_round fnF (fun i => i) (rnd := 0#2) (pos := pos) (Nat.zero_add _)),
    congrArg Host.Outcome.next (s.applyStep_round fnG (fun i => 5 * i + 1) (rnd := 1#2) (pos := pos) rfl),
    congrArg Host.Outcome.next (s.applyStep_round fnH (fun i => 3 * i + 5) (rnd := 2#2) (pos := pos) rfl),
    congrArg Host.Outcome.next (s.applyStep_round fnI (fun i => 7 * i) (rnd := 3#2) (pos := pos) rfl)⟩

/-! ## The frame of a step -/

/-- Of `SC`, a step keeps whatever a replacement of its context by the next one keeps. -/
theorem State.applyStep_keeps_sc {α : Type} (s : State) {f : Context → Context × StepRecord} (p : Streaming → α)
    (hp : p { s.sc with ctx := (f s.sc.ctx).1 } = p s.sc) : p (s.applyStep f).sc = p s.sc := by
  cases hctx : s.stepCtx with
  | sc => rw [s.applyStep_sc f hctx]; exact hp
  | st => rw [s.applyStep_st f hctx]

/-- Of `ST`, a step keeps whatever `Stepper.withStep` keeps. -/
theorem State.applyStep_keeps_st {α : Type} (s : State) {f : Context → Context × StepRecord} (p : Stepper → α)
    (hp : p (s.st.withStep (f s.st.ctx)) = p s.st) : p (s.applyStep f).st = p s.st := by
  cases hctx : s.stepCtx with
  | sc => rw [s.applyStep_sc f hctx]
  | st => rw [s.applyStep_st f hctx]; exact hp

@[simp] theorem State.applyStep_phase (s : State) (f : Context → Context × StepRecord) : (s.applyStep f).st.phase = s.st.phase :=
  s.applyStep_keeps_st Stepper.phase (Stepper.withStep_phase _ _)

/-- A step changes no flag (R163, R26). -/
@[simp] theorem State.applyStep_statusWord (s : State) (f : Context → Context × StepRecord) : (s.applyStep f).statusWord = s.statusWord := by
  simp [State.statusWord]

/-- Settles O16: a step of the shape of R163 keeps `H`, `M` and `MSGLEN` of its context, and all of the other one. -/
theorem stepKindsFrame : Obligations.StepKindsFrame := by
  intro pos s t i hi hexec
  obtain ⟨fn, g, n, hrow⟩ := exec_stepRow s hi
  obtain rfl := Host.Outcome.next.inj (hrow.symm.trans hexec)
  have keepsH := Context.stepShape_h fn g n
  have keepsM := Context.stepShape_m fn g n
  have keepsMsglen := Context.stepShape_msglen fn g n
  exact ⟨s.applyStep_statusWord _, s.applyStep_srcid _, s.applyStep_digest _, s.applyStep_dighex _, s.applyStep_dd _, s.applyStep_env _,
    s.applyStep_keeps_sc (·.win) rfl, s.applyStep_keeps_sc (·.ctx.h) (keepsH _), s.applyStep_keeps_sc (·.ctx.m) (keepsM _),
    s.applyStep_keeps_sc (·.ctx.msglen) (keepsMsglen _), s.applyStep_keeps_st (·.ctx.h) (keepsH _), s.applyStep_keeps_st (·.ctx.m) (keepsM _),
    s.applyStep_keeps_st (·.ctx.msglen) (keepsMsglen _), s.applyStep_keeps_st (·.nblk) (Stepper.withStep_nblk _ _),
    s.applyStep_keeps_st (·.blkidx) (Stepper.withStep_blkidx _ _), s.applyStep_keeps_st (·.stepidx) (Stepper.withStep_stepidx _ _),
    s.applyStep_phase _, fun a => s.applyStep_keeps_st (·.blkmem.read a) (by rw [Stepper.withStep_blkmem]),
    fun hsc => by rw [s.applyStep_sc _ hsc], fun hst => by rw [s.applyStep_st _ hst]⟩

/-! ## LOADBLK, INITW, FOLD and COMPRESS (R160 to R162, R169, R170) -/

/-- A slice is read from its first byte on; past the end of the sequence both sides are 0 (R8, R9). -/
theorem leNat_slice_succ (s : List Byte) (i n : Nat) :
    leNat (slice s i (n + 1)) = (s.getD i 0).toNat + 256 * leNat (slice s (i + 1) n) := by
  by_cases hi : i < s.length
  · rw [slice, List.drop_eq_getElem_cons hi, List.take_succ_cons, leNat, List.getD_eq_getElem _ _ hi, slice]
  · have hnone : s.drop i = [] := List.drop_eq_nil_of_le (by omega)
    have hnext : s.drop (i + 1) = [] := List.drop_eq_nil_of_le (by omega)
    simp [slice, hnone, hnext, leNat, Nat.le_of_not_lt hi]

/-- `le32` of R9 as a number, on the four bytes it is used for. -/
theorem toNat_le32 {s : List Byte} (h : s.length ≤ 4) : (le32 s).toNat = leNat s := by
  have hlt : leNat s < 2 ^ 32 := (leNat_lt s).trans_le (Nat.pow_le_pow_right (by norm_num) h)
  rw [le32, BitVec.toNat_ofNat, Nat.mod_eq_of_lt hlt]

/-- The word `LOADBLK` reads at byte `i` (R161, R81). -/
theorem toNat_le32_slice (s : List Byte) (i : Nat) :
    (le32 (slice s i 4)).toNat =
      (s.getD i 0).toNat + 2 ^ 8 * (s.getD (i + 1) 0).toNat + 2 ^ 16 * (s.getD (i + 2) 0).toNat + 2 ^ 24 * (s.getD (i + 3) 0).toNat := by
  have hempty : leNat (slice s (i + 4) 0) = 0 := by simp [slice, leNat]
  rw [toNat_le32 (by rw [length_slice]; omega)]
  simp only [leNat_slice_succ, Nat.add_assoc, Nat.reduceAdd, hempty]
  omega

/-- Settles O18: each message word is read byte by byte; the rest is what the operations assign. -/
theorem loadInitFold : Obligations.LoadInitFold := by
  intro x blk _
  refine ⟨fun j => ?_, ⟨x.loadBlk_h blk, x.loadBlk_w blk, x.loadBlk_msglen blk⟩, rfl, rfl⟩
  have hword : (x.loadBlk blk).m[j] = le32 (slice blk (4 * j.val) 4) := x.loadBlk_word blk (BitVec.ofFin j)
  rw [hword, toNat_le32_slice]

/-- Settles O17: the chaining registers after `COMPRESS` are a function of those before and of the block. -/
theorem compressIsPure : Obligations.CompressIsPure := fun x y blk h => by
  rw [x.compress_h, y.compress_h, h]

end Sys2Proof.Machine

/-! # Padding (O19, O20)

The whole blocks `PADMSG` takes from the message and the tail it hands to `PAD` are the message again. So a padded message is four runs: the message, one
byte 0x80, `z` zeros, eight bytes of bit length. Their lengths add up to `64 NBLK`, which places the last run. -/

namespace Sys2Proof.Machine

theorem padZeros_lt (t : Nat) : padZeros t < 64 := by
  unfold padZeros; omega

/-- No admitted message reaches the wrap of the bit length (R195, R6). -/
theorem bitLen_of_admitted {n : Nat} (h : n ≤ Config.maxMsgBytes) : bitLen n = 8 * n := by
  unfold Config.maxMsgBytes at h
  exact Nat.mod_eq_of_lt (by omega)

/-- The four runs of a padded message (R193, R197). -/
theorem padMsg_eq_append (data : List Byte) :
    padMsg data = data ++ 0x80#8 :: (List.replicate (padZeros (data.length % 64)) 0#8 ++ bytesLE 8 (bitLen data.length)) := by
  have htail : (data.drop (64 * (data.length / 64))).length = data.length % 64 := by rw [List.length_drop]; omega
  rw [padMsg, padBytes, htail]
  simp only [List.append_assoc, List.cons_append, List.nil_append]
  rw [← List.append_assoc, List.take_append_drop]

/-- The lengths of the four runs add up to `NBLK` blocks (R192, R196). -/
theorem length_add_padZeros (data : List Byte) : data.length + 9 + padZeros (data.length % 64) = 64 * nblkOf data.length := by
  rw [← length_padMsg_eq, padMsg_eq_append]
  simp only [List.length_append, List.length_cons, List.length_replicate, length_bytesLE]
  omega

/-- R194: 9 to 72 bytes are added. -/
theorem length_padMsg_bounds (data : List Byte) : data.length + 9 ≤ (padMsg data).length ∧ (padMsg data).length ≤ data.length + 72 := by
  have hz := padZeros_lt (data.length % 64)
  rw [length_padMsg_eq, ← length_add_padZeros]
  omega

/-- Settles O20: the length is the sum of the four runs, the count `NBLK` by its two cases. -/
theorem blockCount : Obligations.BlockCount := by
  intro data
  refine ⟨length_padMsg_eq data, fun hle => ?_, fun hgt => ?_, nblkOf_le data.length, length_padMsg_bounds data⟩
  · rw [nblkOf, if_pos hle]
  · rw [nblkOf, if_neg (by omega)]

/-! ## The bytes of the four runs -/

theorem getElem?_padMsg_message {data : List Byte} {k : Nat} (hk : k < data.length) : (padMsg data)[k]? = data[k]? := by
  rw [padMsg_eq_append, List.getElem?_append_left hk]

/-- Behind the message stand the marker and what follows it. -/
theorem getElem?_padMsg_padding (data : List Byte) (j : Nat) : (padMsg data)[data.length + j]? =
    (0x80#8 :: (List.replicate (padZeros (data.length % 64)) 0#8 ++ bytesLE 8 (bitLen data.length)))[j]? := by
  rw [padMsg_eq_append, List.getElem?_append_right (Nat.le_add_right _ _), Nat.add_sub_cancel_left]

theorem getElem?_padMsg_marker (data : List Byte) : (padMsg data)[data.length]? = some 0x80#8 :=
  getElem?_padMsg_padding data 0

theorem getElem?_padMsg_zeros {data : List Byte} {j : Nat} (hj : j < padZeros (data.length % 64)) :
    (padMsg data)[data.length + (j + 1)]? = some 0#8 := by
  rw [getElem?_padMsg_padding, List.getElem?_cons_succ, List.getElem?_append_left (by rwa [List.length_replicate]),
    List.getElem?_replicate_of_lt hj]

/-- The last eight bytes are those of the bit length (R193, R195). -/
theorem getElem?_padMsg_bitLen {data : List Byte} {j : Nat} (hj : j < 8) :
    (padMsg data)[data.length + (padZeros (data.length % 64) + j + 1)]? = some (BitVec.ofNat 8 (bitLen data.length / 2 ^ (8 * j))) := by
  rw [getElem?_padMsg_padding, List.getElem?_cons_succ, List.getElem?_append_right (by rw [List.length_replicate]; omega),
    List.length_replicate, Nat.add_sub_cancel_left, getElem?_bytesLE _ hj]

/-- Settles O19: each range is one run, placed by `length_add_padZeros`. -/
theorem paddingLayout : Obligations.PaddingLayout := by
  intro data hadmitted
  have hplace := length_add_padZeros data
  refine ⟨fun k hk => getElem?_padMsg_message hk, getElem?_padMsg_marker data, fun k hlow hhigh => ?_, fun k hk => ?_⟩
  · obtain ⟨j, rfl⟩ : ∃ j, k = data.length + (j + 1) := ⟨k - data.length - 1, by omega⟩
    exact getElem?_padMsg_zeros (by omega)
  · have hpos : 64 * nblkOf data.length - 8 + k = data.length + (padZeros (data.length % 64) + k + 1) := by omega
    rw [hpos, getElem?_padMsg_bitLen hk, bitLen_of_admitted hadmitted]

end Sys2Proof.Machine

/-! # HASH and HASHF (O21 to O23, O26 to O32)

The laws of the streaming controller say how a digest run ends and what it leaves of the environment. What remains is what the host sees of that end:
a digest is delivered (`State.Delivers`), or only a status is reported and the result registers stay (`State.EndsWithout`). Each is proved once, of the
end every digest command shares; `HASH` of bytes, `HASH` of a stream and `HASHF` are then one run each. -/

namespace Sys2Proof.Machine

/-! ## What the host sees of the end -/

/-- A digest command on `s` has delivered the digest of `msg` in `t` (R220); it left the environment `e` and the stepper's registers. -/
structure State.Delivers (s : State) (msg : List Byte) (e : Env) (t : State) : Prop where
  rkind : t.rkind = .digest
  cause : t.cause = .none
  digest : t.digest = digestOfMessage msg
  dighex : t.dighex = packHex (render (digestOfMessage msg))
  env : t.env = e
  st : t.st = s.st

/-- The status an end without a digest is reported with (R320, R325). -/
inductive End.Reports : End → RKind → Cause → Prop where
  | failed (c : Cause) : Reports (.failed c) .error c
  | cancelled : Reports .cancelled .cancelled .none

/-- A digest command on `s` has ended in `t` with this status and no digest (R224, R320, R325); it left the environment `e`. -/
structure State.EndsWithout (s : State) (k : RKind) (c : Cause) (e : Env) (t : State) : Prop where
  rkind : t.rkind = k
  cause : t.cause = c
  digest : t.digest = s.digest
  dighex : t.dighex = s.dighex
  env : t.env = e

/-- Deliveries that left the same session show the same status (R34). -/
theorem State.Delivers.statusWord_eq {s₁ s₂ t₁ t₂ : State} {m₁ m₂ : List Byte} {e₁ e₂ : Env} (h₁ : s₁.Delivers m₁ e₁ t₁)
    (h₂ : s₂.Delivers m₂ e₂ t₂) (hst : s₁.st = s₂.st) : t₁.statusWord = t₂.statusWord := by
  simp only [State.statusWord, h₁.rkind, h₂.rkind, h₁.cause, h₂.cause, h₁.st, h₂.st, hst]

/-- The request log, oldest first, after requests that are listed in their order. -/
theorem Env.requests_of_seen {e f : Env} {l : List Request} (h : f.seen = l.reverse ++ e.seen) : f.requests = e.requests ++ l := by
  rw [Env.requests, h, List.reverse_append, List.reverse_reverse, Env.requests]

theorem State.finish_delivers (s : State) {r : DigestRun} {msg : List Byte} (hdone : r.how = .done) (hdigest : r.sc.ctx.h = digestOfMessage msg) :
    ∃ t, (s.withRun r).finish r.how = .next t ∧ s.Delivers msg r.env t := by
  rw [hdone]
  exact ⟨_, rfl, rfl, rfl, hdigest, congrArg (packHex ∘ render) hdigest, rfl, rfl⟩

theorem State.finish_endsWithout (s : State) {x : End} {k : RKind} {c : Cause} (hx : x.Reports k c) (sc : Streaming) (e : Env) :
    ∃ t, (s.withRun ⟨x, sc, e⟩).finish x = .next t ∧ s.EndsWithout k c e t := by
  cases hx with
  | failed c => exact ⟨_, rfl, rfl, rfl, rfl, rfl, rfl⟩
  | cancelled => exact ⟨_, rfl, rfl, rfl, rfl, rfl, rfl⟩

/-! ## HASH and HASHF as the end of one digest run (R210, R217) -/

theorem exec_hash_source {s : State} {k : BitVec 2} {src : Source} (hsrc : s.sourceOf k = some src) :
    exec (.hash k) s = (s.withRun (digestOf src s.sc s.env)).finish (digestOf src s.sc s.env).how := by
  show execHash k s = _
  rw [execHash, hsrc]
  rfl

theorem exec_hashf (s : State) :
    exec .hashf s = (s.withRun (digestFile s.srcid s.sc s.env)).finish (digestFile s.srcid s.sc s.env).how := rfl

/-! ## A message delivered (R211 to R219) -/

/-- `HASH` of a source that delivers a message, with no poll that asks to stop. -/
theorem exec_hash_delivers {s : State} {k : BitVec 2} {src : Source} {msg : List Byte} {more : List ReadAnswer} (hsrc : s.sourceOf k = some src)
    (hfeed : src.feeds s.env.reads msg more) (hp : s.env.continues (msg.length / 64)) (hlen : msg.length ≤ Config.maxMsgBytes) :
    ∃ t, exec (.hash k) s = .next t ∧ s.Delivers msg
      { s.env with reads := more, polls := s.env.polls.drop (msg.length / 64), seen := (readRequests src.name msg.length).reverse ++ s.env.seen } t := by
  obtain ⟨hdone, hdigest, henv⟩ := digestOf_run src s.sc s.env msg more hp hfeed hlen
  rw [exec_hash_source hsrc, ← henv]
  exact s.finish_delivers hdone hdigest

/-- `HASH` of the bytes presented: the answers to `SrcRead` stay. -/
theorem exec_hash_bytes_delivers {s : State} (hp : s.env.continues (s.data.length / 64)) (hlen : s.data.length ≤ Config.maxMsgBytes) :
    ∃ t, exec (.hash 0) s = .next t ∧ s.Delivers s.data
      { s.env with polls := s.env.polls.drop (s.data.length / 64), seen := (readRequests .bytes s.data.length).reverse ++ s.env.seen } t :=
  exec_hash_delivers (src := .bytes s.data) rfl ⟨rfl, rfl⟩ hp hlen

/-- `HASHF` of a file that opens and delivers a message. -/
theorem exec_hashf_delivers {s : State} {h : Word} {msg : List Byte} {more : List ReadAnswer} (hopen : s.env.opens.headD s.env.later.opened = .opened h)
    (hreads : s.env.reads = windowsOf msg ++ more) (hp : s.env.continues (msg.length / 64)) (hlen : msg.length ≤ Config.maxMsgBytes) :
    ∃ t, exec .hashf s = .next t ∧ s.Delivers msg
      { s.env with reads := more, opens := s.env.opens.tail, polls := s.env.polls.drop (msg.length / 64),
                   seen := (fileRequests s.srcid h msg.length).reverse ++ s.env.seen } t := by
  obtain ⟨hdone, hdigest, henv⟩ := digestFile_run s.srcid h s.sc s.env msg more hopen hp hreads hlen
  rw [exec_hashf, ← henv]
  exact s.finish_delivers hdone hdigest

/-- Settles O21: the bytes presented feed the run, and an environment that never cancels goes on at each of its polls. -/
theorem hashBytesDelivers : Obligations.HashBytesDelivers := by
  intro s hlen hcancel
  obtain ⟨t, hexec, hd⟩ := exec_hash_bytes_delivers (Env.neverCancels_continues hcancel _) hlen
  exact ⟨t, hexec, hd.digest, hd.dighex, hd.rkind, hd.cause⟩

/-- Settles O22: both commands deliver the digest of the same message, and neither touches the session `PHASE` shows. -/
theorem hashStreamEqualsBytes : Obligations.HashStreamEqualsBytes := by
  intro s msg more hlen hp hreads
  obtain ⟨t, htexec, ht⟩ := exec_hash_delivers (k := 1) (src := .stream s.srcid) rfl hreads hp hlen
  obtain ⟨u, huexec, hu⟩ := exec_hash_bytes_delivers (s := { s with data := msg }) hp hlen
  refine ⟨t, u, htexec, huexec, ht.digest, ht.rkind, ht.cause, ht.digest.trans hu.digest.symm, ht.dighex.trans hu.dighex.symm,
    ht.statusWord_eq hu rfl, ?_⟩
  rw [ht.env]
  exact ⟨rfl, rfl, rfl, Env.requests_of_seen rfl⟩

/-- Settles O23: the run over the handle's stream, between the open and the close. -/
theorem hashFileDelivers : Obligations.HashFileDelivers := by
  intro s h msg more hlen hp hopen hreads
  obtain ⟨t, hexec, hd⟩ := exec_hashf_delivers hopen hreads hp hlen
  refine ⟨t, hexec, hd.digest, hd.dighex, hd.rkind, hd.cause, ?_⟩
  rw [hd.env]
  exact ⟨rfl, rfl, rfl, Env.requests_of_seen rfl⟩

/-- Settles O29: below 64 bytes the run has no poll, so nothing is asked of the environment's answers to `CancelPoll`. -/
theorem shortMessageNeverPolls : Obligations.ShortMessageNeverPolls := by
  intro s hshort
  have hpolls : s.data.length / 64 = 0 := Nat.div_eq_of_lt hshort
  have hlen : s.data.length ≤ Config.maxMsgBytes := by unfold Config.maxMsgBytes; omega
  obtain ⟨t, hexec, hd⟩ := exec_hash_bytes_delivers (s := s) (fun j hj => by omega) hlen
  refine ⟨t, hexec, hd.rkind, hd.digest, ?_⟩
  rw [hd.env, readRequests, hpolls]
  exact ⟨rfl, rfl⟩

/-- Reads with one poll between each two are the same requests in either order of time. -/
theorem readRequests_reverse (src : SourceName) (n : Nat) : (readRequests src n).reverse = readRequests src n := by
  have hshift : ∀ m, .srcRead src :: (windowRequests src m).reverse = windowRequests src m ++ [.srcRead src] := by
    intro m
    induction m with
    | zero => rfl
    | succ m ih =>
      calc .srcRead src :: (windowRequests src (m + 1)).reverse
          = (.srcRead src :: (windowRequests src m).reverse) ++ [.cancelPoll, .srcRead src] := by simp [windowRequests_succ]
        _ = windowRequests src m ++ [.srcRead src, .cancelPoll] ++ [.srcRead src] := by rw [ih]; simp
        _ = windowRequests src (m + 1) ++ [.srcRead src] := by simp [windowRequests, List.replicate_succ']
  rw [readRequests, List.reverse_append]
  exact hshift _

/-- Settles O30: the requests of the run, which the log lists newest first. -/
theorem hashBytesRequests : Obligations.HashBytesRequests := by
  intro s hlen hcancel
  obtain ⟨t, hexec, hd⟩ := exec_hash_bytes_delivers (Env.neverCancels_continues hcancel _) hlen
  refine ⟨t, hexec, ?_⟩
  rw [hd.env]
  show (readRequests .bytes s.data.length).reverse ++ s.env.seen = _
  rw [readRequests_reverse, readRequests, List.append_assoc]
  rfl

/-! ## No digest: a failing open or read, a request to stop (R215 to R217) -/

theorem exec_hash_endsWithout {s : State} {srck : BitVec 2} {src : Source} {x : End} {k : RKind} {c : Cause} {sc : Streaming} {e : Env}
    (hsrc : s.sourceOf srck = some src) (hrun : digestOf src s.sc s.env = ⟨x, sc, e⟩) (hx : x.Reports k c) :
    ∃ t, exec (.hash srck) s = .next t ∧ s.EndsWithout k c e t := by
  rw [exec_hash_source hsrc, hrun]
  exact s.finish_endsWithout hx sc e

theorem exec_hashf_endsWithout {s : State} {x : End} {k : RKind} {c : Cause} {sc : Streaming} {e : Env}
    (hrun : digestFile s.srcid s.sc s.env = ⟨x, sc, e⟩) (hx : x.Reports k c) : ∃ t, exec .hashf s = .next t ∧ s.EndsWithout k c e t := by
  rw [exec_hashf, hrun]
  exact s.finish_endsWithout hx sc e

/-- A file that opens ends as the digest of its stream does, with the close after (R218). -/
theorem digestFile_of_digestOf {id h : Word} {c c' : Streaming} {e e' : Env} {x : End} (hopen : e.opens.headD e.later.opened = .opened h)
    (hrun : digestOf (.stream h) c { e with opens := e.opens.tail, seen := .envOpen id :: e.seen } = ⟨x, c', e'⟩) :
    digestFile id c e = ⟨x, c', e'.close h⟩ := by
  rw [digestFile_opened id h c e hopen, hrun]

/-- Settles O26: the open is the one request, and its answer the cause. -/
theorem hashFileCannotOpen : Obligations.HashFileCannotOpen := by
  intro s a hopen
  obtain ⟨-, -, -, hrun⟩ := digestFile_env s.srcid s.sc s.env
  rw [hopen] at hrun
  have hseen : (s.env.openFile s.srcid).2.seen = .envOpen s.srcid :: s.env.seen := s.env.openFile_seen _
  constructor <;> rintro rfl
  all_goals
    obtain ⟨t, hexec, hd⟩ := exec_hashf_endsWithout hrun (.failed _)
    exact ⟨t, hexec, hd.rkind, hd.cause, hd.digest, hd.dighex, hd.env ▸ hseen⟩

/-- Settles O27: the run that fails after full windows, by itself and between the open and the close. -/
theorem readFailureFaults : Obligations.ReadFailureFaults := by
  intro s ws rest hp hfull hlen hreads
  refine ⟨?stream, fun h hopen => ?file⟩
  case stream =>
    obtain ⟨c, hrun⟩ := digestOf_fails s.srcid s.sc s.env ws rest hfull hreads hp hlen
    obtain ⟨t, hexec, hd⟩ := exec_hash_endsWithout (srck := 1) rfl hrun (.failed _)
    refine ⟨t, hexec, hd.rkind, hd.cause, hd.digest, hd.dighex, ?_⟩
    rw [hd.env, List.append_assoc]
    exact Env.requests_of_seen (by simp)
  case file =>
    obtain ⟨c, hrun⟩ := digestOf_fails h s.sc { s.env with opens := s.env.opens.tail, seen := .envOpen s.srcid :: s.env.seen } ws rest hfull hreads hp hlen
    obtain ⟨t, hexec, hd⟩ := exec_hashf_endsWithout (digestFile_of_digestOf hopen hrun) (.failed _)
    refine ⟨t, hexec, hd.rkind, hd.cause, hd.digest, hd.dighex, ?_⟩
    rw [hd.env]
    exact Env.requests_of_seen (by simp)

/-- Settles O28: the run that is told to stop after its full windows, of a byte sequence, of a stream, and between the open and the close of a file. -/
theorem cancelEndsStream : Obligations.CancelEndsStream := by
  refine ⟨fun s n hdata hlen hp => ?bytes, fun s ws w rest hfull hlen hreads hp => ⟨?stream, fun h hopen => ?file⟩⟩
  case bytes =>
    obtain ⟨all, hcount, hfull, hgives⟩ := Source.gives_bytes (n + 1) s.data hdata
    obtain rfl | ⟨ws, w, rfl⟩ := List.eq_nil_or_concat all
    · cases hcount
    rw [List.concat_eq_append] at hcount hfull hgives
    obtain rfl : ws.length = n := by simpa using hcount
    obtain ⟨c, hrun⟩ := digestOf_cancelled _ _ s.sc s.env ws w s.env.reads hfull (hgives _) hp hlen
    obtain ⟨t, hexec, hd⟩ := exec_hash_endsWithout (srck := 0) rfl hrun .cancelled
    refine ⟨t, hexec, hd.rkind, hd.cause, hd.digest, hd.dighex, ?_⟩
    rw [hd.env]
    exact ⟨rfl, rfl, Env.requests_of_seen rfl⟩
  case stream =>
    obtain ⟨c, hrun⟩ := digestOf_cancelled (.stream s.srcid) (.stream s.srcid) s.sc s.env ws w rest hfull ⟨hreads, rfl⟩ hp hlen
    obtain ⟨t, hexec, hd⟩ := exec_hash_endsWithout (srck := 1) rfl hrun .cancelled
    refine ⟨t, hexec, hd.rkind, hd.cause, hd.digest, hd.dighex, ?_⟩
    rw [hd.env]
    exact ⟨rfl, rfl, Env.requests_of_seen rfl⟩
  case file =>
    obtain ⟨c, hrun⟩ := digestOf_cancelled (.stream h) (.stream h) s.sc { s.env with opens := s.env.opens.tail, seen := .envOpen s.srcid :: s.env.seen }
      ws w rest hfull ⟨hreads, rfl⟩ hp hlen
    obtain ⟨t, hexec, hd⟩ := exec_hashf_endsWithout (digestFile_of_digestOf hopen hrun) .cancelled
    refine ⟨t, hexec, hd.rkind, hd.cause, hd.digest, hd.dighex, ?_⟩
    rw [hd.env]
    exact ⟨rfl, rfl, Env.requests_of_seen (by simp [Source.name])⟩

/-! ## What any run asks and leaves unchanged (R218, R224) -/

/-- Every digest begins with a read (R213, R216). -/
theorem digestOf_reads (src : Source) (c : Streaming) (e : Env) :
    ∃ mid, (digestOf src c e).env.seen = mid ++ .srcRead src.name :: e.seen ∧ ∀ r ∈ mid, r = .cancelPoll ∨ r = .srcRead src.name := by
  obtain ⟨fuel, hfuel⟩ : ∃ fuel, digestFuel src e = fuel + 1 := by cases src <;> exact ⟨_, rfl⟩
  have hread : (e.srcRead src).2.2.seen = .srcRead src.name :: e.seen := e.srcRead_seen src
  rw [digestOf, hfuel, digestLoop_first, digestBody]
  cases (e.srcRead src).1 with
  | fail => exact ⟨[], hread, by simp⟩
  | window w =>
    dsimp only
    split
    · exact ⟨[], hread, by simp⟩
    · split
      · obtain ⟨-, -, -, mid, hseen, hmid⟩ := digestLoop_env fuel false (e.srcRead src).2.1 (c.start.fullWindow w) (e.srcRead src).2.2
        rw [Env.srcRead_name] at hmid
        exact ⟨mid, by rw [hseen, hread], hmid⟩
      · exact ⟨[], hread, by simp⟩

/-- The requests of one digest: at least one, all of them polls and reads of its source. -/
theorem digestOf_requests (src : Source) (c : Streaming) (e : Env) :
    ∃ mid, (digestOf src c e).env.seen = mid ++ e.seen ∧ mid ≠ [] ∧ ∀ r ∈ mid, r = .cancelPoll ∨ r = .srcRead src.name := by
  obtain ⟨mid, hseen, hmid⟩ := digestOf_reads src c e
  refine ⟨mid ++ [.srcRead src.name], by rw [hseen, List.append_assoc]; rfl, by simp, fun r hr => ?_⟩
  rcases List.mem_append.mp hr with hr | hr
  · exact hmid r hr
  · exact .inr (List.mem_singleton.mp hr)

theorem State.sourceOf_some_lt {s : State} {k : BitVec 2} {src : Source} (h : s.sourceOf k = some src) : k.toNat < 2 := by
  unfold State.sourceOf at h
  split at h
  case h_3 => cases h
  all_goals omega

/-- Settles O31: `HASHF` asks what `digestFile_env` says; `HASH` asks what one digest of its source asks, or nothing when its `SRCK` names none. -/
theorem handlesOpenedAreClosed : Obligations.HandlesOpenedAreClosed := by
  refine ⟨fun s t h hopen hexec => ?hashf, fun s t k hexec => ?hash⟩
  case hashf =>
    obtain ⟨-, -, -, -, henv, -⟩ := State.finish_frame hexec
    obtain ⟨-, -, -, hrun⟩ := digestFile_env s.srcid s.sc s.env
    rw [hopen] at hrun
    rw [henv]
    exact hrun
  case hash =>
    rcases execHash_next hexec with ⟨hnone, rfl⟩ | ⟨src, hsrc, hfinish⟩
    · exact ⟨rfl, rfl, [], rfl, (by rintro rfl; cases hnone), (by rintro rfl; cases hnone), fun _ => rfl⟩
    · obtain ⟨-, -, -, -, henv, -⟩ := State.finish_frame hfinish
      obtain ⟨hopens, hscans, -⟩ := digestLoop_env (digestFuel src s.env) true src s.sc.start s.env
      obtain ⟨mid, hseen, hne, hmid⟩ := digestOf_requests src s.sc s.env
      rw [henv]
      refine ⟨hopens, hscans, mid, hseen, ?_, ?_, fun hk => ?_⟩
      · rintro rfl
        obtain rfl := Option.some.inj hsrc
        exact ⟨hne, hmid⟩
      · rintro rfl
        obtain rfl := Option.some.inj hsrc
        exact ⟨hne, hmid⟩
      · exact absurd (State.sourceOf_some_lt hsrc) (Nat.not_lt.mpr hk)

/-- What a digest command leaves as it was, `DD` aside (R224, R289, R35, R36). -/
structure State.DigestFrame (s t : State) : Prop where
  st : t.st = s.st
  srcid : t.srcid = s.srcid
  params : t.params = s.params
  host : t.host = s.host
  data : t.data = s.data
  stepReq : t.stepReq = s.stepReq
  stepCtx : t.stepCtx = s.stepCtx
  rdata : t.rdata = s.rdata
  result : t.rkind ≠ .digest → t.digest = s.digest ∧ t.dighex = s.dighex

theorem State.finish_digestFrame {e : End} {s t : State} (h : s.finish e = .next t) : s.DigestFrame t := by
  obtain ⟨hsrcid, hst, -, hparams, -, hdata, hhost, hstepReq, hstepCtx, hrdata, hresult⟩ := State.finish_frame h
  exact ⟨hst, hsrcid, hparams, hhost, hdata, hstepReq, hstepCtx, hrdata, hresult⟩

theorem execHash_digestFrame {k : BitVec 2} {s t : State} (h : execHash k s = .next t) : s.DigestFrame t ∧ t.dd = s.dd := by
  rcases execHash_next h with ⟨-, rfl⟩ | ⟨src, -, hfinish⟩
  · exact ⟨⟨rfl, rfl, rfl, rfl, rfl, rfl, rfl, rfl, fun _ => ⟨rfl, rfl⟩⟩, rfl⟩
  · obtain ⟨-, -, hdd, -⟩ := State.finish_frame hfinish
    exact ⟨{ State.finish_digestFrame hfinish with }, hdd⟩

theorem execHashf_digestFrame {s t : State} (h : execHashf s = .next t) : s.DigestFrame t ∧ t.dd = s.dd := by
  obtain ⟨-, -, hdd, -⟩ := State.finish_frame h
  exact ⟨{ State.finish_digestFrame h with }, hdd⟩

theorem execHashd_digestFrame {s t : State} (h : execHashd s = .next t) : s.DigestFrame t :=
  { State.finish_digestFrame h with }

theorem exec_digestFrame {s t : State} {k : BitVec 2} {i : Instr} (hi : i ∈ [.hash k, .hashf, .hashd]) (h : exec i s = .next t) :
    s.DigestFrame t ∧ (i ≠ .hashd → t.dd = s.dd) := by
  simp only [List.mem_cons, List.not_mem_nil, or_false] at hi
  rcases hi with rfl | rfl | rfl
  · exact (execHash_digestFrame h).imp_right fun hdd _ => hdd
  · exact (execHashf_digestFrame h).imp_right fun hdd _ => hdd
  · exact ⟨execHashd_digestFrame h, fun hne => absurd rfl hne⟩

/-- Settles O32: the frame of the three commands; BLKMEM is part of `ST`. -/
theorem digestCommandsFrame : Obligations.DigestCommandsFrame := by
  intro s t k i hi h
  obtain ⟨hframe, hdd⟩ := exec_digestFrame hi h
  exact ⟨hframe.st, fun a => by rw [hframe.st], hframe.srcid, hframe.params, hframe.host, hframe.data, hframe.stepReq, hframe.stepCtx,
    hframe.rdata, hframe.result, hdd⟩

end Sys2Proof.Machine

/-! # HASHD (O34 to O41)

The walk, the sort and the run over the files are the laws of the directory sequencer. A command that ends without a digest shows the host its end as `HASH` and
`HASHF` do (`State.EndsWithout`). What comes after files that have delivered their messages is said once (`hashDirectory_afterFiles`), in the environment they leave
(`Env.HasRead`): the digest of their renderings, or the first open, read or poll that ends the command. -/

namespace Sys2Proof.Machine

/-! ## The sort (R246) -/

/-- At the first index where the two keys differ, the first has the smaller byte (R246). -/
def firstDiffLess (x y : List Byte) : Prop := ∃ p a b x' y', x = p ++ a :: x' ∧ y = p ++ b :: y' ∧ a.toNat < b.toNat

theorem not_firstDiffLess_nil_right (x : List Byte) : ¬ firstDiffLess x [] := by
  rintro ⟨p, a, b, x', y', -, hy, -⟩
  simp at hy

theorem firstDiffLess_cons {a b : Byte} {x y : List Byte} :
    firstDiffLess (a :: x) (b :: y) ↔ a.toNat < b.toNat ∨ a = b ∧ firstDiffLess x y := by
  constructor
  · rintro ⟨p, a', b', x', y', hx, hy, hlt⟩
    cases p with
    | nil =>
      cases hx
      cases hy
      exact .inl hlt
    | cons c p =>
      obtain ⟨rfl, rfl⟩ := List.cons.inj hx
      obtain ⟨rfl, rfl⟩ := List.cons.inj hy
      exact .inr ⟨rfl, p, a', b', x', y', rfl, rfl, hlt⟩
  · rintro (hlt | ⟨rfl, p, a', b', x', y', rfl, rfl, hlt⟩)
    · exact ⟨[], a, b, x, y, rfl, rfl, hlt⟩
    · exact ⟨a :: p, a', b', x', y', rfl, rfl, hlt⟩

/-- The order of the model is that of R246: prefixes first, then the first difference. -/
theorem keyLe_iff (x y : List Byte) : keyLe x y = true ↔ x <+: y ∨ firstDiffLess x y := by
  induction x generalizing y with
  | nil => simp [keyLe]
  | cons a x ih =>
    cases y with
    | nil => simp [keyLe, not_firstDiffLess_nil_right]
    | cons b y =>
      simp only [keyLe, Bool.or_eq_true, Bool.and_eq_true, decide_eq_true_eq, beq_iff_eq, ih, List.cons_prefix_cons, firstDiffLess_cons]
      tauto

theorem sortEntries_pairwise (l : List (List Byte × Word)) : (sortEntries l).Pairwise fun x y => keyLe x.1 y.1 = true := by
  have : Std.Total fun x y : List Byte × Word => keyLe x.1 y.1 = true := ⟨fun x y => keyLe_total x.1 y.1⟩
  have : IsTrans (List Byte × Word) fun x y => keyLe x.1 y.1 = true := ⟨fun _ _ _ => keyLe_trans⟩
  exact List.pairwise_insertionSort _ l

theorem keysDistinct_iff {l : List (List Byte × Word)} : keysDistinct l = true ↔ (l.map Prod.fst).Nodup := decide_eq_true_iff

theorem keysDistinct_perm {l m : List (List Byte × Word)} (h : l.Perm m) : keysDistinct l = keysDistinct m := by
  rw [Bool.eq_iff_iff, keysDistinct_iff, keysDistinct_iff]
  exact (h.map Prod.fst).nodup_iff

/-- With distinct keys there is one sorted order (R246), whatever order the entries come in. -/
theorem sortEntries_congr {l m : List (List Byte × Word)} (hkeys : keysDistinct l = true) (h : l.Perm m) : sortEntries l = sortEntries m := by
  have hl : (sortEntries l).Perm l := sortEntries_perm l
  have hm : (sortEntries m).Perm l := (sortEntries_perm m).trans h.symm
  have hinj : ∀ x ∈ l, ∀ y ∈ l, x.1 = y.1 → x = y := fun x hx y hy => List.inj_on_of_nodup_map (keysDistinct_iff.mp hkeys) hx hy
  exact List.Perm.eq_of_pairwise (fun x y hx hy hxy hyx => hinj x (hl.subset hx) y (hm.subset hy) (keyLe_antisymm hxy hyx))
    (sortEntries_pairwise l) (sortEntries_pairwise m) (hl.trans hm.symm)

/-- Settles O34: the sort is the library's for a total order, which is antisymmetric on keys. -/
theorem sortByKey : Obligations.SortByKey :=
  ⟨fun l => ⟨sortEntries_perm l, sortEntries_pairwise l⟩, fun _ _ => sortEntries_congr, keyLe_iff⟩

/-! ## The walk (R242 to R245) -/

/-- What the enumeration of an answered root is: the walk from what the root presents, when the table holds it. -/
theorem enumerate_entries {p : Params} {root : Word} {e : Env} {l : List Entry} (c : Streaming) (hroot : (e.scan root).1 = .entries l) :
    enumerate p root c e =
      if (Directory.empty.enter p.pathSep [] l).fits p then
        walkLoop p c (walkFuel (Directory.empty.enter p.pathSep [] l) (e.scan root).2) (Directory.empty.enter p.pathSep [] l) (e.scan root).2
      else ⟨.refused .dirTooLarge, c, Directory.empty.enter p.pathSep [] l, (e.scan root).2⟩ := by
  simp only [enumerate, hroot]

/-- With `Entries` answers for as many directories as they present, and no bound on the table, the enumeration completes (R243). -/
theorem enumerate_finite {p : Params} {root : Word} {e : Env} {l : List Entry} {more : List ScanAnswer} (c : Streaming) (hcap : p.dirMaxEntries = none)
    (hscans : e.scans = .entries l :: more) (hall : ∀ a ∈ more, ∃ l', a = .entries l') (hcount : (e.scans.map ScanAnswer.dirs).sum ≤ more.length) :
    (enumerate p root c e).how = .done ∧ (enumerate p root c e).dd.work = [] := by
  have hroot : e.scan root = (.entries l, { e with scans := more, seen := .envScan root :: e.seen }) := Env.scan_cons root e _ _ hscans
  have hwork : (Directory.empty.enter p.pathSep [] l).work.length = (ScanAnswer.entries l).dirs := by
    rw [Directory.enter_work, List.length_append, length_dirEntries, ScanAnswer.dirs_entries]
    rfl
  rw [hscans, List.map_cons, List.sum_cons] at hcount
  rw [enumerate_entries c (by rw [hroot]), if_pos (by simp [Directory.fits, hcap]), hroot]
  have hdone := walkLoop_finite p c (walkFuel (Directory.empty.enter p.pathSep [] l) { e with scans := more, seen := .envScan root :: e.seen })
    (Directory.empty.enter p.pathSep [] l) { e with scans := more, seen := .envScan root :: e.seen } hcap hall (by rw [hwork]; exact hcount) le_rfl
  exact ⟨hdone, walkLoop_done_work p c _ _ _ hdone⟩

/-- Settles O35: the walk ends within its bound; over a tree it finds the tree's files; and one that ends was over a tree. -/
theorem finiteTreeIsEnumerated : Obligations.FiniteTreeIsEnumerated := by
  refine ⟨fun s l more => enumerate_finite s.sc, fun s f more hfits hscans => ?tree, fun s => ?converse⟩
  case tree =>
    obtain ⟨ent, hperm, hrun⟩ := (enumerate_forest s.params s.srcid s.sc s.env f more hscans).1 hfits
    rw [hrun]
    exact ⟨rfl, hperm, rfl, rfl, Env.requests_of_seen rfl⟩
  case converse =>
    intro r hdone
    obtain ⟨f, n, hperm, hfits, hscans, hseen⟩ := enumerate_done_forest s.params s.srcid s.sc s.env hdone
    exact ⟨f, n, hperm, hfits, hscans, Env.requests_of_seen hseen⟩

/-! ## Scans that fail (R242, R243, R316, R317) -/

theorem enumerate_notDir {p : Params} {root : Word} {e : Env} (c : Streaming) (hroot : (e.scan root).1 = .notDir) :
    enumerate p root c e = ⟨.failed .ioNotDir, c, Directory.empty, (e.scan root).2⟩ := by
  simp only [enumerate, hroot]

theorem enumerate_fail {p : Params} {root : Word} {e : Env} (c : Streaming) (hroot : (e.scan root).1 = .fail) :
    enumerate p root c e = ⟨.failed .ioScan, c, Directory.empty, (e.scan root).2⟩ := by
  simp only [enumerate, hroot]

/-- The next scan of the walk fails. -/
theorem walkLoop_scanFails {p : Params} {c : Streaming} {d : Directory} {e : Env} {pre : List Byte} {id : Word} {rest : List (List Byte × Word)}
    (fuel : Nat) (hwork : d.work = (pre, id) :: rest) (hscan : (e.scan id).1 = .fail ∨ (e.scan id).1 = .notDir) :
    walkLoop p c (fuel + 1) d e = ⟨.failed .ioScan, c, d, (e.scan id).2⟩ := by
  rcases hscan with h | h <;> simp only [walkLoop, hwork, h]

/-- The walk up to a scan that fails, at whatever point of it: that scan is its last request (R243). -/
theorem enumerate_scanFails {p : Params} {root : Word} {e : Env} {ls : List (List Entry)} {more : List ScanAnswer} (c : Streaming) (hne : ls ≠ [])
    (hscans : e.scans = ls.map ScanAnswer.entries ++ more) (hgoes : walkGoesOn ls) (hfits : tableHolds p (presented .file ls))
    (hfails : more.headD e.later.scan = .fail ∨ more.headD e.later.scan = .notDir) :
    ∃ (d : Directory) (f : Env) (ids : List Word), enumerate p root c e = ⟨.failed .ioScan, c, d, f⟩ ∧ ids.length = ls.length ∧
      f.requests = e.requests ++ (root :: ids).map Request.envScan := by
  obtain ⟨l, ls, rfl⟩ := List.exists_cons_of_ne_nil hne
  obtain ⟨d, ids, fuel, hcount, hwork, hrun⟩ := enumerate_run p root c e l ls more hscans hgoes hfits
  obtain ⟨⟨pre, id⟩, rest, hnext⟩ := List.exists_cons_of_ne_nil hwork
  refine ⟨d, _, ids ++ [id], hrun.trans (walkLoop_scanFails fuel hnext (by rwa [Env.scan_answer])), by simp [hcount], Env.requests_of_seen ?_⟩
  rw [Env.scan_seen]
  simp

/-! ## The log of requests only grows -/

theorem walkLoop_seen (p : Params) (c : Streaming) (fuel : Nat) (d : Directory) (e : Env) : e.seen <:+ (walkLoop p c fuel d e).env.seen := by
  induction fuel generalizing d e with
  | zero => exact List.suffix_refl _
  | succ fuel ih =>
    have hscan : ∀ id, e.seen <:+ (e.scan id).2.seen := fun id => by rw [Env.scan_seen]; exact List.suffix_cons _ _
    rcases hwork : d.work with _ | ⟨⟨pre, id⟩, rest⟩
    · simp [walkLoop, hwork]
    · rcases hans : (e.scan id).1 with l | - | -
      · simp only [walkLoop, hwork, hans]
        split
        · exact (hscan id).trans (ih _ _)
        · exact hscan id
      · rw [walkLoop_scanFails fuel hwork (.inr hans)]
        exact hscan id
      · rw [walkLoop_scanFails fuel hwork (.inl hans)]
        exact hscan id

/-- The scan of the root is the first request (R242). -/
theorem enumerate_seen (p : Params) (root : Word) (c : Streaming) (e : Env) : .envScan root :: e.seen <:+ (enumerate p root c e).env.seen := by
  rw [← Env.scan_seen root e]
  rcases hroot : (e.scan root).1 with l | - | -
  · rw [enumerate_entries c hroot]
    split
    · exact walkLoop_seen _ _ _ _ _
    · exact List.suffix_refl _
  · rw [enumerate_notDir c hroot]
  · rw [enumerate_fail c hroot]

/-- An environment is alike to itself, so what `filesTail_alike` says of the requests made holds of it alone. -/
theorem filesTail_seen (ents : List (List Byte × Word)) (c : Streaming) (d : Directory) (e : Env) : e.seen <:+ (filesTail ents c d e).env.seen := by
  have halike : Env.Alike e.seen e.seen e e := ⟨rfl, rfl, rfl, rfl, [], rfl, rfl⟩
  obtain ⟨-, -, hrun⟩ := filesTail_alike ents c (d := d) rfl halike
  obtain ⟨later, hseen, -⟩ := hrun.seen
  exact ⟨later, hseen.symm⟩

/-! ## What follows the walk (R240 parts 2 to 5) -/

theorem hashDirectory_of_not_done {p : Params} {root : Word} {c : Streaming} {e : Env} (h : (enumerate p root c e).how ≠ .done) :
    hashDirectory p root c e = enumerate p root c e := by
  unfold hashDirectory
  dsimp only
  split
  · contradiction
  all_goals rfl

theorem hashDirectory_enumerate_failed {p : Params} {root : Word} {c c' : Streaming} {d : Directory} {e e' : Env} {x : Cause}
    (h : enumerate p root c e = ⟨.failed x, c', d, e'⟩) : hashDirectory p root c e = ⟨.failed x, c', d, e'⟩ := by
  rw [hashDirectory_of_not_done (by rw [h]; exact fun hd => nomatch hd), h]

/-- No file, where that is a fault (R248). -/
theorem hashDirectory_empty {p : Params} {root : Word} {c : Streaming} {e : Env} (hdone : (enumerate p root c e).how = .done)
    (hent : (enumerate p root c e).dd.ent = []) (hp : p.emptyDirFaults = true) :
    hashDirectory p root c e = ⟨.failed .ioEmpty, (enumerate p root c e).sc, (enumerate p root c e).dd, (enumerate p root c e).env⟩ := by
  simp [hashDirectory, hdone, hashEntries, hent, hp]

/-- The first request of `HASHD` is the scan of the root (R242), for the parts after the walk only add requests. -/
theorem hashDirectory_seen (p : Params) (root : Word) (c : Streaming) (e : Env) : .envScan root :: e.seen <:+ (hashDirectory p root c e).env.seen := by
  refine (enumerate_seen p root c e).trans ?_
  by_cases hdone : (enumerate p root c e).how = .done
  · by_cases hempty : (enumerate p root c e).dd.ent = [] ∧ p.emptyDirFaults = true
    · rw [hashDirectory_empty hdone hempty.1 hempty.2]
    · by_cases hkeys : keysDistinct (enumerate p root c e).dd.ent = true
      · rw [hashDirectory_files p root c e hdone hkeys (by rwa [not_and_or, Bool.not_eq_true] at hempty)]
        exact filesTail_seen _ _ _ _
      · have hne : (enumerate p root c e).dd.ent ≠ [] := fun h => hkeys (by rw [h]; rfl)
        simp [hashDirectory, hdone, hashEntries, hkeys, hne]
  · rw [hashDirectory_of_not_done hdone]

/-! ## What the host sees of the end -/

theorem exec_hashd_endsWithout {s : State} {x : End} {k : RKind} {cause : Cause} {c : Streaming} {d : Directory} {e : Env}
    (hrun : hashDirectory s.params s.srcid s.sc s.env = ⟨x, c, d, e⟩) (hx : x.Reports k cause) :
    ∃ t, exec .hashd s = .next t ∧ s.EndsWithout k cause e t := by
  cases hx with
  | failed cause =>
    obtain ⟨t, hexec, hkind, hcause, hdigest, hdighex, henv⟩ := execHashd_failed hrun
    exact ⟨t, hexec, hkind, hcause, hdigest, hdighex, henv⟩
  | cancelled =>
    obtain ⟨t, hexec, hkind, hcause, hdigest, hdighex, henv⟩ := execHashd_cancelled hrun
    exact ⟨t, hexec, hkind, hcause, hdigest, hdighex, henv⟩

theorem exec_hashd_env {s t : State} (h : exec .hashd s = .next t) : t.env = (hashDirectory s.params s.srcid s.sc s.env).env := by
  rw [exec_hashd] at h
  obtain ⟨-, -, -, -, henv, -⟩ := State.finish_frame h
  exact henv

/-- The scan of the root fails: no other request is made (R242). -/
theorem exec_hashd_rootFails {s : State} {x : Cause} {d : Directory} (h : enumerate s.params s.srcid s.sc s.env = ⟨.failed x, s.sc, d, (s.env.scan s.srcid).2⟩) :
    ∃ t, exec .hashd s = .next t ∧ t.rkind = .error ∧ t.cause = x ∧ t.digest = s.digest ∧ t.dighex = s.dighex ∧
      t.env.seen = .envScan s.srcid :: s.env.seen := by
  obtain ⟨t, hexec, hd⟩ := exec_hashd_endsWithout (hashDirectory_enumerate_failed h) (.failed x)
  exact ⟨t, hexec, hd.rkind, hd.cause, hd.digest, hd.dighex, by rw [hd.env, Env.scan_seen]⟩

/-- Settles O38: the first request is the root's scan; a scan that fails, of the root or later, is the walk's last request and its end the command's. -/
theorem rootScanFaults : Obligations.RootScanFaults := by
  refine ⟨fun s t hexec => ?first, fun s a hroot => ⟨fun ha => ?notDir, fun ha => ?fail⟩, fun s ls a more hne hscans hgoes hfits ha hfails => ?later⟩
  case first =>
    obtain ⟨later, hseen⟩ := hashDirectory_seen s.params s.srcid s.sc s.env
    exact ⟨later, by rw [exec_hashd_env hexec, hseen]⟩
  case notDir => exact exec_hashd_rootFails (enumerate_notDir s.sc (by rw [Env.scan_answer, hroot, ha]))
  case fail => exact exec_hashd_rootFails (enumerate_fail s.sc (by rw [Env.scan_answer, hroot, ha]))
  case later =>
    obtain ⟨d, f, ids, hrun, hcount, hreq⟩ := enumerate_scanFails (root := s.srcid) s.sc hne hscans hgoes hfits (by rwa [ha])
    obtain ⟨t, hexec, hd⟩ := exec_hashd_endsWithout (hashDirectory_enumerate_failed hrun) (.failed _)
    exact ⟨t, ids, hexec, hd.rkind, hd.cause, hd.digest, hd.dighex, hcount, by rw [hd.env, hreq]⟩

/-! ## The digest of the concatenation (R252) -/

/-- With no file left, and no poll that asks to stop, the digest of `HEXCAT` completes. -/
theorem filesTail_nil_done {c : Streaming} {d : Directory} {e : Env} (hp : e.continues (d.hexcat.length / 64)) (hlen : d.hexcat.length ≤ Config.maxMsgBytes) :
    ∃ c' : Streaming, c'.ctx.h = digestOfMessage d.hexcat ∧ filesTail [] c d e = ⟨.done, c', d,
      { e with polls := e.polls.drop (d.hexcat.length / 64), seen := (readRequests .bytes d.hexcat.length).reverse ++ e.seen }⟩ := by
  obtain ⟨hdone, hdigest, henv⟩ := digestOf_run (.bytes d.hexcat) c e d.hexcat e.reads hp ⟨rfl, rfl⟩ hlen
  exact ⟨_, hdigest, by rw [filesTail, hdone, henv]; rfl⟩

/-- Settles O39: without a file, what follows the walk is the fault or the digest of an empty concatenation. -/
theorem emptyDirectory : Obligations.EmptyDirectory := by
  intro s r hdone hent
  refine ⟨fun hfaults => ?fault, fun hfaults => ?digest⟩
  case fault =>
    obtain ⟨t, hexec, hd⟩ := exec_hashd_endsWithout (hashDirectory_empty hdone hent hfaults) (.failed _)
    exact ⟨t, hexec, hd.rkind, hd.cause, hd.digest, hd.dighex, by rw [hd.env]⟩
  case digest =>
    have hkeys : keysDistinct r.dd.ent = true := by rw [hent]; rfl
    have hhex : r.dd.hexcat = [] := (enumerate_env s.params s.srcid s.sc s.env).2.1
    obtain ⟨c, hdigest, htail⟩ := filesTail_nil_done (c := r.sc) (d := r.dd) (e := r.env) (by rw [hhex]; exact fun k hk => absurd hk (Nat.not_lt_zero k))
      (by rw [hhex]; exact Nat.zero_le _)
    have hrun := hashDirectory_files s.params s.srcid s.sc s.env hdone hkeys (.inr hfaults)
    rw [hent] at hrun
    obtain ⟨t, hexec, hkind, hcause, htd, hth, henv⟩ := execHashd_done (hrun.trans htail)
    rw [hdigest, hhex] at htd hth
    exact ⟨t, hexec, hkind, hcause, htd, hth, by rw [henv, hhex]; rfl⟩

/-! ## The order of the walk does not matter (R247) -/

/-- After two walks that found the same files, the command does the same (R247). -/
theorem hashDirectory_alike {b1 b2 : List Request} {p : Params} {root : Word} {c : Streaming} {e f : Env} (he : (enumerate p root c e).how = .done)
    (hf : (enumerate p root c f).how = .done) (hent : (enumerate p root c e).dd.ent.Perm (enumerate p root c f).dd.ent)
    (hkeys : keysDistinct (enumerate p root c e).dd.ent = true) (h : Env.Alike b1 b2 (enumerate p root c e).env (enumerate p root c f).env) :
    (hashDirectory p root c f).how = (hashDirectory p root c e).how ∧ (hashDirectory p root c f).sc = (hashDirectory p root c e).sc ∧
      Env.Alike b1 b2 (hashDirectory p root c e).env (hashDirectory p root c f).env := by
  obtain ⟨hsc, hhex, -⟩ := enumerate_env p root c e
  obtain ⟨hsc', hhex', -⟩ := enumerate_env p root c f
  have hnil : (enumerate p root c f).dd.ent = [] ↔ (enumerate p root c e).dd.ent = [] := by
    rw [← List.length_eq_zero_iff, ← List.length_eq_zero_iff, hent.length_eq]
  by_cases hempty : (enumerate p root c e).dd.ent = [] ∧ p.emptyDirFaults = true
  · rw [hashDirectory_empty he hempty.1 hempty.2, hashDirectory_empty hf (hnil.mpr hempty.1) hempty.2]
    exact ⟨rfl, hsc'.trans hsc.symm, h⟩
  · rw [not_and_or, Bool.not_eq_true] at hempty
    rw [hashDirectory_files p root c e he hkeys hempty, hashDirectory_files p root c f hf (by rwa [← keysDistinct_perm hent]) (by rwa [Ne, hnil]),
      ← sortEntries_congr hkeys hent, hsc, hsc']
    exact filesTail_alike _ _ (hhex'.trans hhex.symm) h

/-- An end with the same digest in `SC` shows the host the same. -/
theorem State.finish_alike {x : End} {s s' t : State} (hsc : s'.sc = s.sc) (hdigest : s'.digest = s.digest) (hdighex : s'.dighex = s.dighex)
    (h : s.finish x = .next t) : ∃ u, s'.finish x = .next u ∧ u.digest = t.digest ∧ u.dighex = t.dighex ∧ u.rkind = t.rkind ∧ u.cause = t.cause := by
  rcases State.finish_next h with ⟨rfl, rfl⟩ | ⟨cause, rfl, rfl⟩ | ⟨rfl, rfl⟩
  · exact ⟨_, rfl, by simp [hsc]⟩
  · exact ⟨_, rfl, by simp [hdigest, hdighex]⟩
  · exact ⟨_, rfl, by simp [hdigest, hdighex]⟩

/-- Settles O37: both walks complete, since the table that holds the files of one holds those of the other, and what follows them is alike. -/
theorem enumerationOrderIrrelevant : Obligations.EnumerationOrderIrrelevant := by
  intro s f g more more' hperm hkeys hscans s' t hexec
  obtain ⟨hwalk, hfull⟩ := enumerate_forest s.params s.srcid s.sc s.env f more hscans
  have hfits : tableHolds s.params (f.files s.params.pathSep []).length := by
    by_contra hno
    rw [exec_hashd_refused (hashDirectory_enumerate_refused (hfull hno))] at hexec
    cases hexec
  obtain ⟨ent, hent, hrun⟩ := hwalk hfits
  obtain ⟨ent', hent', hrun'⟩ := (enumerate_forest s.params s.srcid s.sc s'.env g more' rfl).1 (by rwa [← hperm.length_eq])
  have hsame : ent.Perm ent' := hent.trans (hperm.trans hent'.symm)
  obtain ⟨hhow, hsc, halike⟩ := hashDirectory_alike (b1 := ((s.srcid :: f.dirs).map Request.envScan).reverse ++ s.env.seen)
    (b2 := ((s.srcid :: g.dirs).map Request.envScan).reverse ++ s.env.seen) (by rw [hrun]) (by rw [hrun']) (by rw [hrun, hrun']; exact hsame)
    (by rw [hrun, keysDistinct_perm hent, hkeys]) (by rw [hrun, hrun']; exact ⟨rfl, rfl, rfl, rfl, [], rfl, rfl⟩)
  obtain ⟨later, hseen, hseen'⟩ := halike.seen
  have htenv := exec_hashd_env hexec
  rw [exec_hashd, ← hhow] at hexec
  obtain ⟨u, huexec, hdigest, hdighex, hkind, hcause⟩ := State.finish_alike
    (s := (s.withDirRun (hashDirectory s.params s.srcid s.sc s.env)).dropDD)
    (s' := (s'.withDirRun (hashDirectory s'.params s'.srcid s'.sc s'.env)).dropDD) hsc rfl rfl hexec
  refine ⟨u, later.reverse, huexec, hdigest, hdighex, hkind, hcause, ?_, ?_⟩
  · rw [Env.requests, htenv, hseen]
    simp [Env.requests]
  · rw [Env.requests, exec_hashd_env (s := s') huexec, hseen']
    simp [Env.requests]

/-! ## Files that deliver their messages, and what comes after them (R249 to R252) -/

/-- The environment `f` once `files`, the messages of the entries `ents`, have been read after the walk that ended in `walked`: `opens` and `reads` are left,
the polls of the files are taken from those of `e`, and the files' requests follow the walk's. -/
structure Env.HasRead (e walked : Env) (ents : List (List Byte × Word)) (files : List (Word × List Byte)) (opens : List OpenAnswer)
    (reads : List ReadAnswer) (f : Env) : Prop where
  reads : f.reads = reads
  opens : f.opens = opens
  polls : f.polls = e.polls.drop (pollCount files)
  later : f.later = e.later
  requests : f.requests = walked.requests ++ filesRequests ents files

/-- A file that fails or is cancelled ends the command: no later file is touched (R249). -/
theorem filesTail_fileEnds {x : End} {k : RKind} {cause : Cause} (hx : x.Reports k cause) {y : List Byte × Word} {rest : List (List Byte × Word)}
    {c c' : Streaming} {d : Directory} {e e' : Env} (h : digestFile y.2 c e = ⟨x, c', e'⟩) : filesTail (y :: rest) c d e = ⟨x, c', d, e'⟩ := by
  cases hx <;> rw [filesTail, h]

section AfterFiles

variable {s : State} {good rest : List (List Byte × Word)} {files : List (Word × List Byte)} {opens : List OpenAnswer} {reads : List ReadAnswer}
  (hdone : (enumerate s.params s.srcid s.sc s.env).how = .done) (hne : (enumerate s.params s.srcid s.sc s.env).dd.ent ≠ [])
  (hkeys : keysDistinct (enumerate s.params s.srcid s.sc s.env).dd.ent = true)
  (hsort : sortEntries (enumerate s.params s.srcid s.sc s.env).dd.ent = good ++ rest) (hcount : files.length = good.length)
  (hlen : ∀ f ∈ files, f.2.length ≤ Config.maxMsgBytes) (hopens : s.env.opens = files.map (fun f => OpenAnswer.opened f.1) ++ opens)
  (hreads : s.env.reads = files.flatMap (fun f => windowsOf f.2) ++ reads)

include hdone hne hkeys hsort hcount hlen hopens hreads

/-- When the files of `good` have delivered, uncancelled, what is left is the rest of the files and the digest of the renderings. -/
theorem hashDirectory_afterFiles (hp : s.env.continues (pollCount files)) :
    ∃ (c : Streaming) (d : Directory) (f : Env), hashDirectory s.params s.srcid s.sc s.env = filesTail rest c d f ∧
      d.hexcat = files.flatMap (fun f => render (digestOfMessage f.2)) ∧
      s.env.HasRead (enumerate s.params s.srcid s.sc s.env).env good files opens reads f := by
  obtain ⟨-, hhex, hr, ho, hpo, hla⟩ := enumerate_env s.params s.srcid s.sc s.env
  obtain ⟨c, hrun⟩ := filesTail_run good rest files (enumerate s.params s.srcid s.sc s.env).sc (enumerate s.params s.srcid s.sc s.env).dd
    (enumerate s.params s.srcid s.sc s.env).env opens reads hcount (Env.continues_drop (n := 0) hpo hla (by rwa [Nat.zero_add])) (ho.trans hopens)
    (hr.trans hreads) hlen
  rw [hashDirectory_files _ _ _ _ hdone hkeys (.inl hne), hsort, hrun]
  exact ⟨c, _, _, rfl, by rw [hhex, List.nil_append], rfl, rfl, by rw [hpo], hla, Env.requests_of_seen rfl⟩

/-- The command ends as the rest does, without a digest, and with the requests of the rest after those of the files (R320, R325). -/
theorem exec_hashd_endsAfterFiles {x : End} {k : RKind} {cause : Cause} {asked : List Request} (hx : x.Reports k cause)
    (hp : s.env.continues (pollCount files))
    (htail : ∀ c d f, d.hexcat = files.flatMap (fun f => render (digestOfMessage f.2)) →
      s.env.HasRead (enumerate s.params s.srcid s.sc s.env).env good files opens reads f →
        ∃ c' d' f', filesTail rest c d f = ⟨x, c', d', f'⟩ ∧ f'.requests = f.requests ++ asked) :
    ∃ t, exec .hashd s = .next t ∧ t.rkind = k ∧ t.cause = cause ∧ t.digest = s.digest ∧ t.dighex = s.dighex ∧
      t.env.requests = (enumerate s.params s.srcid s.sc s.env).env.requests ++ filesRequests good files ++ asked := by
  obtain ⟨c, d, f, hrun, hhex, hf⟩ := hashDirectory_afterFiles hdone hne hkeys hsort hcount hlen hopens hreads hp
  obtain ⟨c', d', f', htail, hreq⟩ := htail c d f hhex hf
  obtain ⟨t, hexec, hd⟩ := exec_hashd_endsWithout (hrun.trans htail) hx
  exact ⟨t, hexec, hd.rkind, hd.cause, hd.digest, hd.dighex, by rw [hd.env, hreq, hf.requests]⟩

/-- The same, when it is the next file that ends it. -/
theorem exec_hashd_endsInFile {y : List Byte × Word} {rest' : List (List Byte × Word)} {x : End} {k : RKind} {cause : Cause} {asked : List Request}
    (hrest : rest = y :: rest') (hx : x.Reports k cause) (hp : s.env.continues (pollCount files))
    (hfile : ∀ c f, s.env.HasRead (enumerate s.params s.srcid s.sc s.env).env good files opens reads f →
      ∃ c' f', digestFile y.2 c f = ⟨x, c', f'⟩ ∧ f'.seen = asked.reverse ++ f.seen) :
    ∃ t, exec .hashd s = .next t ∧ t.rkind = k ∧ t.cause = cause ∧ t.digest = s.digest ∧ t.dighex = s.dighex ∧
      t.env.requests = (enumerate s.params s.srcid s.sc s.env).env.requests ++ filesRequests good files ++ asked := by
  refine exec_hashd_endsAfterFiles hdone hne hkeys hsort hcount hlen hopens hreads hx hp fun c d f _ hf => ?_
  obtain ⟨c', f', hrun, hseen⟩ := hfile c f hf
  exact ⟨c', d, f', hrest ▸ filesTail_fileEnds hx hrun, Env.requests_of_seen hseen⟩

end AfterFiles

/-- Settles O36: all the files deliver, and the rest is the digest of their renderings. -/
theorem hashDirectoryDelivers : Obligations.HashDirectoryDelivers := by
  intro s files r hdone hne hkeys hcount hcancel hdelivers hlen hmax
  obtain ⟨⟨opens, hopens⟩, ⟨reads, hreads⟩⟩ := hdelivers
  have hgoes : ∀ n, s.env.continues n := Env.neverCancels_continues hcancel
  have hsorted : files.length = (sortEntries r.dd.ent).length := by rw [hcount, (sortEntries_perm _).length_eq]
  obtain ⟨c, d, f, hrun, hhex, hf⟩ := hashDirectory_afterFiles hdone hne hkeys (List.append_nil _).symm hsorted hlen hopens.symm hreads.symm (hgoes _)
  have hhexlen : d.hexcat.length = 32 * files.length := by rw [hhex, length_renderings]
  obtain ⟨c', hdigest, htail⟩ := filesTail_nil_done (c := c) (d := d) (e := f) (Env.continues_drop hf.polls hf.later (hgoes _)) (by rwa [hhexlen])
  obtain ⟨t, hexec, hkind, hcause, htd, hth, henv⟩ := execHashd_done (hrun.trans htail)
  rw [hhex] at hdigest
  refine ⟨t, hexec, hkind, hcause, htd.trans hdigest, htd ▸ hth, ?_⟩
  rw [henv, ← hf.requests, ← hhexlen]
  exact Env.requests_of_seen rfl

/-- Settles O40: the next file's open or read fails, and with it the command. -/
theorem firstFileFailureDecides : Obligations.FirstFileFailureDecides := by
  intro s good rest y files opens reads r hdone hkeys hsort hcount hlen hopens hreads hp
  have hne : r.dd.ent ≠ [] := fun h => by rw [h] at hsort; exact absurd hsort (by simp [sortEntries])
  refine ⟨fun hopen => ?notFound, fun hopen => ?fail, fun h ws more hopen hfull hlong hstream hgoes => ?read⟩
  case notFound | fail =>
    refine exec_hashd_endsInFile hdone hne hkeys hsort hcount hlen hopens hreads rfl (.failed _) hp fun c f hf => ?_
    obtain ⟨-, -, -, hrun⟩ := digestFile_env y.2 c f
    rw [hf.opens, hf.later, hopen] at hrun
    exact ⟨c, _, hrun, Env.openFile_seen _ _⟩
  case read =>
    refine exec_hashd_endsInFile hdone hne hkeys hsort hcount hlen hopens hreads rfl (.failed _) hp fun c f hf => ?_
    obtain ⟨c', hrun⟩ := digestOf_fails h c { f with opens := f.opens.tail, seen := .envOpen y.2 :: f.seen } ws more hfull (hf.reads.trans hstream)
      (Env.continues_drop hf.polls hf.later hgoes) hlong
    exact ⟨c', _, digestFile_of_digestOf (by rw [hf.opens, hf.later, hopen]) hrun, by simp⟩

/-- Settles O41: the poll that asks to stop comes after a file, within the next file, or within the digest of the renderings. -/
theorem cancelEndsDirectory : Obligations.CancelEndsDirectory := by
  intro s good rest files opens reads r ends hdone hne hkeys hsort hcount hlen hopens hreads
  refine ⟨fun hgood hp => ?between, fun y rest' h ws w more hrest hopen hfull hlong hstream hp => ?inFile, fun j hrest hj hmax hp => ?inHexcat⟩
  case between =>
    obtain ⟨-, -, hr, ho, hpo, hla⟩ := enumerate_env s.params s.srcid s.sc s.env
    obtain ⟨c, d, hrun⟩ := filesTail_cancelled good rest files r.sc r.dd r.env opens reads hgood hcount
      (Env.cancelsAt_drop (n := 0) hpo hla (by rwa [Nat.zero_add])) (ho.trans hopens) (hr.trans hreads) hlen
    rw [← hsort, ← hashDirectory_files s.params s.srcid s.sc s.env hdone hkeys (.inl hne)] at hrun
    obtain ⟨t, hexec, hd⟩ := exec_hashd_endsWithout hrun .cancelled
    exact ⟨t, hexec, hd.rkind, hd.cause, hd.digest, hd.dighex, by rw [hd.env, List.append_nil]; exact Env.requests_of_seen rfl⟩
  case inFile =>
    have hgoes := Env.continues_mono hp.1 (Nat.le_add_right _ _)
    refine exec_hashd_endsInFile hdone hne hkeys hsort hcount hlen hopens hreads hrest .cancelled hgoes fun c f hf => ?_
    obtain ⟨c', hrun⟩ := digestOf_cancelled (.stream h) (.stream h) c { f with opens := f.opens.tail, seen := .envOpen y.2 :: f.seen } ws w more hfull
      ⟨hf.reads.trans hstream, rfl⟩ (Env.cancelsAt_drop hf.polls hf.later hp) hlong
    exact ⟨c', _, digestFile_of_digestOf (by rw [hf.opens, hf.later, hopen]) hrun, by simp [Source.name]⟩
  case inHexcat =>
    have hgoes := Env.continues_mono hp.1 (Nat.le_add_right _ _)
    refine exec_hashd_endsAfterFiles hdone hne hkeys hsort hcount hlen hopens hreads .cancelled hgoes fun c d f hhex hf => ?_
    have hhexlen : d.hexcat.length = 32 * good.length := by rw [hhex, length_renderings, hcount]
    obtain ⟨all, hwindows, hfull, hgives⟩ := Source.gives_bytes (j + 1) d.hexcat (by omega)
    obtain rfl | ⟨ws, w, rfl⟩ := List.eq_nil_or_concat all
    · cases hwindows
    rw [List.concat_eq_append] at hwindows hfull hgives
    obtain rfl : ws.length = j := by simpa using hwindows
    obtain ⟨c', hrun⟩ := digestOf_cancelled _ _ c f ws w f.reads hfull (hgives _) (Env.cancelsAt_drop hf.polls hf.later hp) (by omega)
    exact ⟨c', d, _, by rw [hrest, filesTail, hrun], Env.requests_of_seen rfl⟩

end Sys2Proof.Machine

/-! # The stepper's commands, transition by transition (O42 to O48, O50)

`STPADV` has one law for each transition (`execStpadv_ready` and the rest); what remains is to write out the state it leaves. -/

namespace Sys2Proof.Machine

/-- A counter one up, as the number it then shows. -/
theorem ofNat_toNat_succ {w : Nat} (x : BitVec w) : BitVec.ofNat w (x.toNat + 1) = x + 1 := by
  rw [BitVec.ofNat_add, BitVec.ofNat_toNat, BitVec.setWidth_eq]
  rfl

/-- Step 0 is `STEP.FF` at position 0, of round 1, with message word 0 (R111, R112). -/
theorem Context.stepAt_zero (x : Context) : x.stepAt 0#6 = x.stepFF 0 ∧ (x.stepFF 0).2.round = 1 ∧ (x.stepFF 0).2.widx = 0 :=
  ⟨Context.stepAt_FF 0#4 x, rfl, rfl⟩

/-- A block is entered with its step 0 (R276, R279). -/
theorem Stepper.enterBlock_eq (t : Stepper) (b : Nat) (blk : List Byte) :
    t.enterBlock b blk =
      { t with
        ctx := ((t.ctx.loadBlk blk).initW.stepFF 0).1, round := 1, widx := 0, pre := ((t.ctx.loadBlk blk).initW.stepFF 0).2.pre,
        blkidx := BitVec.ofNat 64 b, stepidx := 0, phase := .inStep } := by
  obtain ⟨hstep, hround, hwidx⟩ := (t.ctx.loadBlk blk).initW.stepAt_zero
  rw [Stepper.enterBlock, Stepper.withStep, hstep, hround, hwidx]
  rfl

/-- A `Ready` session has a block to enter. -/
theorem Stepper.nblk_pos_of_ready {t : Stepper} (hok : t.ok) (hp : t.phase = .ready) : 0 < t.nblk.toNat := by
  unfold Stepper.ok at hok
  rw [hp] at hok
  obtain ⟨⟨data, hholds⟩, -⟩ := hok
  exact Stepper.toNat_nblk hholds ▸ nblkOf_pos _

/-- `STPNEW` of an admitted operand that fits the block store (R270, R272). -/
theorem exec_stpnew_admitted {s : State} (hlen : s.data.length ≤ Config.maxMsgBytes) (hfits : blkmemHolds s.params (nblkOf s.data.length) = true) :
    exec (.stpnew 0) s = .next ({ s with st := Stepper.create s.data s.draws, draws := s.draws + 1 }.respond .created .none) := by
  simp [exec, execStpnew, hfits, Nat.not_lt.mpr hlen]

/-- `MSGLEN` has room for every admitted length (R6, R24). -/
theorem toNat_msglen_of_admitted {n : Nat} (h : n ≤ Config.maxMsgBytes) : (BitVec.ofNat 64 n).toNat = n := by
  unfold Config.maxMsgBytes at h
  rw [BitVec.toNat_ofNat, Nat.mod_eq_of_lt (by omega)]

/-- BLKMEM of a new session is the padded message, byte by byte (R272). -/
theorem Stepper.create_read {data : List Byte} (draw : Nat) {a : Nat} (h : a < 64 * nblkOf data.length) :
    some ((Stepper.create data draw).blkmem.read a) = (padMsg data)[a]? := by
  have ha : a < (padMsg data).length := by rwa [length_padMsg_eq]
  have hread : (Stepper.create data draw).blkmem.read a = (padMsg data).getD a 0 := by
    rw [Stepper.create, Memory.read_store 0 _ Memory.wf_nil, if_pos ⟨Nat.zero_le _, by omega⟩, Nat.sub_zero]
  rw [hread, List.getD_eq_getElem _ _ ha, List.getElem?_eq_getElem ha]

/-- Settles O42: the session `Stepper.create` makes, with its bytes read back from the block store. -/
theorem newSession : Obligations.NewSession := by
  intro s hlen hfits
  exact ⟨_, exec_stpnew_admitted hlen hfits, rfl, rfl, toNat_msglen_of_admitted hlen, toNat_nblkOf _ hlen, rfl, rfl, rfl, rfl, rfl, rfl,
    fun _ ha => Stepper.create_read s.draws ha, rfl, rfl, rfl, rfl, rfl, rfl, rfl, rfl⟩

/-- Settles O43: block 0 exists, and is entered. -/
theorem advanceFromReady : Obligations.AdvanceFromReady := by
  intro s hinv hp
  have hpos := Stepper.nblk_pos_of_ready hinv.stepperOk hp
  refine ⟨s.st.blockBytes 0, Stepper.block_eq 0 hpos, (execStpadv_ready hp hpos).trans ?_⟩
  rw [Stepper.enterBlock_eq]
  rfl

/-- Settles O44: a step keeps `H` and `M`, and the next step number is `STEPIDX + 1`. -/
theorem advanceInBlock : Obligations.AdvanceInBlock := by
  intro s hp hs
  refine ⟨Context.stepAt_h _ _, Context.stepAt_m _ _, (execStpadv_step hp hs).trans ?_⟩
  rw [ofNat_toNat_succ]
  rfl

/-- Settles O45: `STEPIDX` 63 has no next step, so the block is folded. -/
theorem advanceFolds : Obligations.AdvanceFolds := by
  intro s hp hs
  exact execStpadv_fold hp (by simp [hs])

/-- Settles O46: the next block exists, and is entered. -/
theorem advanceToNextBlock : Obligations.AdvanceToNextBlock := by
  intro s hp hb
  refine ⟨s.st.blockBytes (s.st.blkidx.toNat + 1), Stepper.block_eq _ hb, (execStpadv_nextBlock hp hb).trans ?_⟩
  rw [Stepper.enterBlock_eq, ofNat_toNat_succ]
  rfl

/-- Settles O47: at the last boundary the session completes. -/
theorem advanceCompletes : Obligations.AdvanceCompletes := by
  intro s hp hb
  exact execStpadv_complete hp hb

/-- Settles O48: neither phase has a transition, so only the status is written. -/
theorem advanceWithoutWork : Obligations.AdvanceWithoutWork := by
  intro s
  exact ⟨execStpadv_completed, execStpadv_noSession⟩

theorem State.statusWord_discarded {s : State} (hk : s.rkind = .discarded) (hc : s.cause = .none) (hp : s.st.phase = .noSession) :
    s.statusWord = 0x00000007 := by
  apply BitVec.eq_of_toNat_eq
  rw [s.statusWord_toNat, hk, hc, hp]
  rfl

/-- Settles O50: a cleared stepper shows 0 everywhere, and `STATUS` is the code of `DISCARDED` alone. -/
theorem sessionDiscarded : Obligations.SessionDiscarded := by
  intro s
  exact ⟨_, rfl, rfl, rfl, rfl, rfl, rfl, rfl, rfl, rfl, rfl, State.statusWord_discarded rfl rfl rfl,
    fun _ hlo _ => State.regRead_of_isClear (Stepper.cleared_isClear s.draws) hlo,
    rfl, rfl, rfl, rfl, rfl, rfl⟩

end Sys2Proof.Machine

/-! # What the stepper's commands leave unchanged (O51) -/

namespace Sys2Proof.Machine

/-- WHAT A STEPPER COMMAND CAN DO: if it answers a next state, it wrote `ST`, the count of free values and the status, or it completed the session. -/
theorem exec_stepperCommand_next {s t : State} {k : BitVec 2} {i : Instr} (hi : i ∈ [.stpnew k, .stpadv, .stprst]) (h : exec i s = .next t) :
    (∃ x n r c, t = ({ s with st := x, draws := n } : State).respond r c) ∨ t = s.completeSession := by
  simp only [List.mem_cons, List.not_mem_nil, or_false] at hi
  rcases hi with rfl | rfl | rfl
  · rcases execStpnew_next h with ⟨-, rfl⟩ | ⟨-, -, -, rfl⟩ <;> exact .inl ⟨_, _, _, _, rfl⟩
  · rcases execStpadv_next h with ⟨-, rfl⟩ | ⟨-, -, rfl⟩ | ⟨-, -, rfl⟩ | ⟨-, -, rfl⟩ | ⟨-, -, rfl⟩ | ⟨-, -, rfl⟩ | ⟨-, rfl⟩
    case inr.inr.inr.inr.inr.inl => exact .inr rfl
    all_goals exact .inl ⟨_, s.draws, _, _, rfl⟩
  · obtain rfl := Host.Outcome.next.inj h
    exact .inl ⟨_, _, _, _, rfl⟩

/-- The two steppers have the same message: the block store, `NBLK` and `MSGLEN` (R272). -/
structure Stepper.SameMessage (t u : Stepper) : Prop where
  blkmem : u.blkmem = t.blkmem
  nblk : u.nblk = t.nblk
  msglen : u.ctx.msglen = t.ctx.msglen

theorem Stepper.SameMessage.refl (t : Stepper) : t.SameMessage t := ⟨rfl, rfl, rfl⟩

theorem Stepper.SameMessage.trans {t u v : Stepper} (h : t.SameMessage u) (h' : u.SameMessage v) : t.SameMessage v :=
  ⟨h'.blkmem.trans h.blkmem, h'.nblk.trans h.nblk, h'.msglen.trans h.msglen⟩

theorem Stepper.enterBlock_sameMessage (t : Stepper) (b : Nat) (blk : List Byte) : t.SameMessage (t.enterBlock b blk) :=
  ⟨t.enterBlock_blkmem b blk, t.enterBlock_nblk b blk, t.enterBlock_msglen b blk⟩

theorem Stepper.nextStep_sameMessage (t : Stepper) : t.SameMessage t.nextStep := ⟨rfl, rfl, t.nextStep_msglen⟩

/-- No transition writes the message (R275). -/
theorem execStpadv_sameMessage {s t : State} (h : execStpadv s = .next t) : s.st.SameMessage t.st := by
  rcases execStpadv_next h with ⟨-, rfl⟩ | ⟨-, -, rfl⟩ | ⟨-, -, rfl⟩ | ⟨-, -, rfl⟩ | ⟨-, -, rfl⟩ | ⟨-, -, rfl⟩ | ⟨-, rfl⟩
  · exact .refl s.st
  · exact s.st.enterBlock_sameMessage _ _
  · exact s.st.nextStep_sameMessage
  · exact ⟨rfl, rfl, rfl⟩
  · exact s.st.enterBlock_sameMessage _ _
  · exact ⟨rfl, rfl, rfl⟩
  · exact .refl s.st

/-- Settles O51: the frame is that of the two next states a stepper command has; an advance keeps the message. -/
theorem stepperCommandsFrame : Obligations.StepperCommandsFrame := by
  intro s t k i hi h
  have hmessage : i = .stpadv →
      (∀ a, t.st.blkmem.read a = s.st.blkmem.read a) ∧ t.st.nblk = s.st.nblk ∧ t.st.ctx.msglen = s.st.ctx.msglen := by
    rintro rfl
    have hsame := execStpadv_sameMessage h
    exact ⟨fun a => by rw [hsame.blkmem], hsame.nblk, hsame.msglen⟩
  rcases exec_stepperCommand_next hi h with ⟨x, n, r, c, rfl⟩ | rfl
  · exact ⟨rfl, rfl, rfl, rfl, rfl, rfl, rfl, rfl, rfl, rfl, fun _ => ⟨rfl, rfl⟩, hmessage⟩
  · exact ⟨rfl, rfl, rfl, rfl, rfl, rfl, rfl, rfl, rfl, rfl, fun hne => absurd rfl hne, hmessage⟩

end Sys2Proof.Machine

/-! # Every step keeps the invariant (O56)

Only commands reach `ST`, the status and the result registers: between transactions no step number is pending, and a `CMD` word decodes to commands alone. What
a command leaves in the status is `exec_command_answered`; here it is shown what it leaves in `ST` and in the result registers. -/

namespace Sys2Proof.Machine

/-- The words of `CMD` are commands: a step number has no command word (R100, R103). -/
theorem isCommand_of_decodeCmd {w : Word} {i : Instr} (h : decodeCmd w = .ok i) : isCommand i = true := by
  obtain ⟨opc, k, -, hfields⟩ := decodeCmd_eq_ok h
  unfold decodeFields at hfields
  split at hfields
  case h_1 | h_4 =>
    obtain rfl := Except.ok.inj hfields
    rfl
  case h_2 | h_3 | h_5 | h_6 =>
    obtain ⟨-, rfl⟩ := withoutSrck_eq_ok.mp hfields
    rfl
  case h_7 => cases hfields

/-- The end of a digest command delivers both forms of the result, or writes neither (R220, R224). -/
theorem State.finish_resultOk {e : End} {s t : State} (hr : s.resultOk) (h : s.finish e = .next t) : t.resultOk := by
  rcases State.finish_next h with ⟨-, rfl⟩ | ⟨c, -, rfl⟩ | ⟨-, rfl⟩
  · exact .inl rfl
  · exact hr
  · exact hr

theorem exec_stepperCommand_resultOk {s t : State} {k : BitVec 2} {i : Instr} (hi : i ∈ [.stpnew k, .stpadv, .stprst]) (hr : s.resultOk)
    (h : exec i s = .next t) : t.resultOk := by
  rcases exec_stepperCommand_next hi h with ⟨x, n, r, c, rfl⟩ | rfl
  · exact hr
  · exact .inl rfl

theorem exec_command_resultOk {i : Instr} {s t : State} (hi : isCommand i = true) (hr : s.resultOk) (h : exec i s = .next t) : t.resultOk := by
  cases i with
  | hash k =>
    rcases execHash_next h with ⟨-, rfl⟩ | ⟨src, -, hfinish⟩
    · exact hr
    · exact State.finish_resultOk (s := s.withRun _) hr hfinish
  | hashf => exact State.finish_resultOk (s := s.withRun _) hr h
  | hashd => exact State.finish_resultOk (s := (s.withDirRun _).dropDD) hr h
  | stpnew k => exact exec_stepperCommand_resultOk (k := k) (by simp) hr h
  | stpadv | stprst => exact exec_stepperCommand_resultOk (k := 0) (by simp) hr h
  | stepFF _ | stepGG _ | stepHH _ | stepII _ => cases hi

/-- What the invariant says of `ST`: BLKMEM's canonical form, and what each phase shows. -/
def Stepper.Sound (t : Stepper) : Prop := t.blkmem.wf ∧ t.ok

theorem execStpnew_sound {k : BitVec 2} {s t : State} (hs : s.st.Sound) (h : execStpnew k s = .next t) : t.st.Sound := by
  rcases execStpnew_next h with ⟨-, rfl⟩ | ⟨-, hlen, -, rfl⟩
  · exact hs
  · obtain ⟨hholds, hready⟩ := Stepper.create_holds s.data s.draws hlen
    exact ⟨Stepper.create_wf _ _, ⟨_, hholds⟩, hready⟩

theorem execStpadv_sound {s t : State} (hs : s.st.Sound) (h : execStpadv s = .next t) : t.st.Sound :=
  ⟨(execStpadv_memory hs.1 h).1, execStpadv_ok hs.2 h⟩

theorem execStprst_sound {s t : State} (h : execStprst s = .next t) : t.st.Sound := by
  obtain rfl := Host.Outcome.next.inj h
  exact ⟨Memory.wf_nil, Stepper.cleared_isClear _⟩

/-- A command leaves `ST` sound, the digest commands because they do not write it (R289). -/
theorem exec_command_sound {i : Instr} {s t : State} (hi : isCommand i = true) (hs : s.st.Sound) (h : exec i s = .next t) : t.st.Sound := by
  cases i with
  | hash k => exact (execHash_digestFrame h).1.st ▸ hs
  | hashf => exact (execHashf_digestFrame h).1.st ▸ hs
  | hashd => exact (execHashd_digestFrame h).st ▸ hs
  | stpnew k => exact execStpnew_sound hs h
  | stpadv => exact execStpadv_sound hs h
  | stprst => exact execStprst_sound h
  | stepFF _ | stepGG _ | stepHH _ | stepII _ => cases hi

/-- No command leaves a step number pending (R83, log 4). -/
theorem exec_command_stepReq {i : Instr} {s t : State} (hi : isCommand i = true) (h : exec i s = .next t) : t.stepReq = s.stepReq := by
  cases i with
  | hash k => exact (execHash_digestFrame h).1.stepReq
  | hashf => exact (execHashf_digestFrame h).1.stepReq
  | hashd => exact (execHashd_digestFrame h).stepReq
  | stpnew k => rcases exec_stepperCommand_next (k := k) (by simp) h with ⟨x, n, r, c, rfl⟩ | rfl <;> rfl
  | stpadv | stprst => rcases exec_stepperCommand_next (k := 0) (by simp) h with ⟨x, n, r, c, rfl⟩ | rfl <;> rfl
  | stepFF _ | stepGG _ | stepHH _ | stepII _ => cases hi

/-- A COMMAND KEEPS THE INVARIANT. -/
theorem exec_command_inv {i : Instr} {s t : State} (hi : isCommand i = true) (hinv : s.Inv) (h : exec i s = .next t) : t.Inv := by
  obtain ⟨hwf, hok⟩ := exec_command_sound hi ⟨hinv.memoryCanonical, hinv.stepperOk⟩ h
  exact ⟨(exec_command_stepReq hi h).trans hinv.noStepPending, hwf, hok, (exec_command_answered hi h).1, exec_command_resultOk hi hinv.resultOk h⟩

/-- The invariant says nothing of the host's port: the queue, the operand, what was last read (logs 1, 14, 15). -/
theorem State.Inv.withPort {s : State} (hinv : s.Inv) (host : List HostOp) (data : List Byte) (rdata : Word) :
    ({ s with host := host, data := data, rdata := rdata } : State).Inv := { hinv with }

/-- An illegal word writes the status only (R106, R318). -/
theorem State.raiseFault_illegalCmd_inv {s : State} (hinv : s.Inv) : (s.raiseFault .illegalCmd).Inv :=
  { hinv with statusOk := .inl (by simp) }

theorem State.regWrite_inv {s : State} (hinv : s.Inv) (off : Nat) (v : Word) : (s.regWrite off v).Inv := by
  by_cases hoff : off = 0x08
  · subst hoff
    exact { hinv with }
  · rwa [State.regWrite_other _ _ _ hoff]

/-- The platform's reset gives the engine the state it has after power-on (R350, R351). -/
theorem State.resetEngine_inv (s : State) : s.resetEngine.Inv := { invariantAtReset with }

/-- Settles O56: by what the step did; taking a transaction from the queue, with its operand, leaves the invariant as it was. -/
theorem stepKeepsInvariant : Obligations.StepKeepsInvariant := by
  intro s t hinv h
  rcases step_next h with ⟨n, hreq, -⟩ | ⟨-, ⟨-, rfl⟩ | ⟨rest, -, rfl⟩ | ⟨off, rest, -, rfl⟩ | ⟨off, v, data, rest, -, -, rfl⟩ |
    ⟨v, data, rest, -, ⟨i, hdecode, hexec⟩ | rfl⟩⟩
  · rw [hinv.noStepPending] at hreq
    cases hreq
  · exact hinv
  · exact State.resetEngine_inv _
  · exact hinv.withPort rest s.data _
  · exact State.regWrite_inv (hinv.withPort rest s.data s.rdata) off v
  · exact exec_command_inv (isCommand_of_decodeCmd hdecode) (hinv.withPort rest data s.rdata) hexec
  · exact State.raiseFault_illegalCmd_inv (hinv.withPort rest data s.rdata)

end Sys2Proof.Machine

/-! # A session run to completion (O52, O53)

An advance of a session under way moves the cursor one position on (`execStpadv_position`) and answers with the phase it comes to, so the position counts the
advances: which phase they end in, and with which answer, is read off it. -/

namespace Sys2Proof.Machine

/-- The answer of an advance goes with the phase it has come to (R276 to R280); the one that completes has delivered `ST.H` (R220). -/
inductive State.Advanced (t : State) : Prop where
  | step (phase : t.st.phase = .inStep) (rkind : t.rkind = .step)
  | boundary (phase : t.st.phase = .blockBoundary) (rkind : t.rkind = .boundary)
  | complete (phase : t.st.phase = .completed) (rkind : t.rkind = .complete) (digest : t.digest = t.st.ctx.h)
      (dighex : t.dighex = packHex (render t.st.ctx.h))

theorem execStpadv_advanced {s t : State} (hn : s.st.phase ≠ .noSession) (hc : s.st.phase ≠ .completed) (h : execStpadv s = .next t) : t.Advanced := by
  rcases execStpadv_next h with ⟨hp, -⟩ | ⟨-, -, rfl⟩ | ⟨hp, -, rfl⟩ | ⟨-, -, rfl⟩ | ⟨-, -, rfl⟩ | ⟨-, -, rfl⟩ | ⟨hp, -⟩
  · exact absurd hp hn
  · exact .step rfl rfl
  · exact .step hp rfl
  · exact .boundary rfl rfl
  · exact .step rfl rfl
  · exact .complete rfl rfl rfl rfl
  · exact absurd hp hc

theorem State.Advanced.phase_ne_noSession {t : State} (h : t.Advanced) : t.st.phase ≠ .noSession := by
  rcases h with ⟨hp, -⟩ | ⟨hp, -⟩ | ⟨hp, -, -, -⟩ <;> simp [hp]

theorem State.Advanced.of_completed {t : State} (h : t.Advanced) (hc : t.st.phase = .completed) :
    t.rkind = .complete ∧ t.digest = t.st.ctx.h ∧ t.dighex = packHex (render t.st.ctx.h) := by
  rcases h with ⟨hp, -⟩ | ⟨hp, -⟩ | ⟨-, hr, hd, hx⟩
  · cases hp.symm.trans hc
  · cases hp.symm.trans hc
  · exact ⟨hr, hd, hx⟩

/-- `Completed` is the one position past `65 NBLK` (R31). -/
theorem Stepper.position_le_iff {t : Stepper} (hok : t.ok) : t.position ≤ 65 * t.nblk.toNat ↔ t.phase ≠ .completed := by
  unfold Stepper.ok at hok
  unfold Stepper.position
  cases hp : t.phase with
  | noSession | ready => simp
  | inStep =>
    rw [hp] at hok
    obtain ⟨-, hlt, -⟩ := hok
    have := t.stepidx.isLt
    simp only [ne_eq, reduceCtorEq, not_false_eq_true, iff_true]
    omega
  | blockBoundary =>
    rw [hp] at hok
    obtain ⟨-, hlt, -⟩ := hok
    simp only [ne_eq, reduceCtorEq, not_false_eq_true, iff_true]
    omega
  | completed => simp

/-- `n` advances have brought the session of `s` to `t` (R283). -/
structure State.AdvancesTo (n : Nat) (s t : State) : Prop where
  ok : t.st.ok
  message : s.st.SameMessage t.st
  position : t.st.position = s.st.position + n
  answer : t.Advanced

theorem State.AdvancesTo.trans {m n : Nat} {s t u : State} (h : AdvancesTo m s t) (h' : AdvancesTo n t u) : AdvancesTo (m + n) s u :=
  ⟨h'.ok, h.message.trans h'.message, by rw [h'.position, h.position, Nat.add_assoc], h'.answer⟩

theorem exec_stpadv_advancesTo {s : State} (hok : s.st.ok) (hn : s.st.phase ≠ .noSession) (hk : s.st.position ≤ 65 * s.st.nblk.toNat) :
    ∃ t, exec .stpadv s = .next t ∧ State.AdvancesTo 1 s t := by
  have hc : s.st.phase ≠ .completed := (Stepper.position_le_iff hok).mp hk
  obtain ⟨t, hexec, hpos⟩ := execStpadv_position hok hn hc
  exact ⟨t, hexec, execStpadv_ok hok hexec, execStpadv_sameMessage hexec, hpos, execStpadv_advanced hn hc hexec⟩

theorem repeatExec_succ_of_next {i : Instr} {n : Nat} {s t : State} (h : exec i s = .next t) : repeatExec i (n + 1) s = repeatExec i n t := by
  rw [repeatExec, h]

/-- A SESSION ADVANCES as often as it has positions left. -/
theorem repeatExec_stpadv_advancesTo (k : Nat) {s : State} (hok : s.st.ok) (hn : s.st.phase ≠ .noSession)
    (hk : s.st.position + k ≤ 65 * s.st.nblk.toNat) : ∃ t, repeatExec .stpadv (k + 1) s = .next t ∧ State.AdvancesTo (k + 1) s t := by
  induction k generalizing s with
  | zero =>
    obtain ⟨t, hexec, ht⟩ := exec_stpadv_advancesTo hok hn hk
    exact ⟨t, repeatExec_succ_of_next hexec, ht⟩
  | succ k ih =>
    obtain ⟨t, hexec, ht⟩ := exec_stpadv_advancesTo hok hn (by omega)
    have hkt : t.st.position + k ≤ 65 * t.st.nblk.toNat := by
      rw [ht.position, ht.message.nblk]
      omega
    obtain ⟨u, hrun, hu⟩ := ih ht.ok ht.answer.phase_ne_noSession hkt
    exact ⟨u, (repeatExec_succ_of_next hexec).trans hrun, Nat.add_comm 1 (k + 1) ▸ ht.trans hu⟩

/-! ## How often, and with which answers (R283) -/

/-- The position is the number of advances since `Ready`: a multiple of 65 at the block boundaries only. -/
theorem State.Advanced.rkind_of_position {t : State} (h : t.Advanced) (hc : t.st.phase ≠ .completed) :
    t.rkind = if t.st.position % 65 = 0 then .boundary else .step := by
  unfold Stepper.position
  rcases h with ⟨hp, hr⟩ | ⟨hp, hr⟩ | ⟨hp, -, -, -⟩
  · have := t.st.stepidx.isLt
    rw [hp, hr, if_neg (by dsimp only; omega)]
  · rw [hp, hr, if_pos (by dsimp only; omega)]
  · exact absurd hp hc

/-- After `65 NBLK + 1` advances from `Ready` the session is completed, and its digest delivered. -/
theorem repeatExec_stpadv_completes {s : State} (hok : s.st.ok) (hp : s.st.phase = .ready) :
    ∃ t, repeatExec .stpadv (65 * s.st.nblk.toNat + 1) s = .next t ∧ State.AdvancesTo (65 * s.st.nblk.toNat + 1) s t ∧ t.st.phase = .completed := by
  have hpos : s.st.position = 0 := by rw [Stepper.position, hp]
  obtain ⟨t, hrun, ht⟩ := repeatExec_stpadv_advancesTo (65 * s.st.nblk.toNat) hok (by simp [hp]) (by omega)
  refine ⟨t, hrun, ht, ?_⟩
  by_contra hc
  have hle := (Stepper.position_le_iff ht.ok).mpr hc
  rw [ht.position, ht.message.nblk] at hle
  omega

/-- Settles O52: the position after `k` advances is `k`. -/
theorem numberOfAdvances : Obligations.NumberOfAdvances := by
  intro s hinv hp
  have hpos : s.st.position = 0 := by rw [Stepper.position, hp]
  refine ⟨?completes, fun k hk hle => ?earlier⟩
  case completes =>
    obtain ⟨t, hrun, ht, hc⟩ := repeatExec_stpadv_completes hinv.stepperOk hp
    exact ⟨t, hrun, hc, (ht.answer.of_completed hc).1⟩
  case earlier =>
    obtain ⟨k, rfl⟩ := Nat.exists_eq_add_of_le' hk
    obtain ⟨t, hrun, ht⟩ := repeatExec_stpadv_advancesTo k hinv.stepperOk (by simp [hp]) (by omega)
    have htpos : t.st.position = k + 1 := by rw [ht.position, hpos, Nat.zero_add]
    have hc : t.st.phase ≠ .completed := (Stepper.position_le_iff ht.ok).mp (by rw [htpos, ht.message.nblk]; exact hle)
    exact ⟨t, hrun, hc, htpos ▸ ht.answer.rkind_of_position hc⟩

/-! ## The digest (R284) -/

/-- A completed session shows the digest of its message in `ST.H`. -/
theorem Stepper.completed_h {t : Stepper} {data : List Byte} (hok : t.ok) (hp : t.phase = .completed) (hholds : t.holdsMessage data) :
    t.ctx.h = digestOfMessage data := by
  unfold Stepper.ok at hok
  rw [hp] at hok
  obtain ⟨-, hfolded, hlast⟩ := hok
  rw [Stepper.folded_h hfolded, hlast, Stepper.chainBefore_nblk hholds]

/-- Settles O53: the completed session holds the message it was made for, and delivers its digest, as `HASH` does. -/
theorem stepperAgreesWithHash : Obligations.StepperAgreesWithHash := by
  intro s _ hlen hfits hcancel
  obtain ⟨hholds, hready⟩ := Stepper.create_holds s.data s.draws hlen
  obtain ⟨v, hhash, hvdigest, hvdighex, -, -⟩ := hashBytesDelivers s hlen hcancel
  obtain ⟨u, hrun, hu, hc⟩ := repeatExec_stpadv_completes
    (s := ({ s with st := Stepper.create s.data s.draws, draws := s.draws + 1 } : State).respond .created .none) ⟨⟨_, hholds⟩, hready⟩ rfl
  have hnblk : (Stepper.create s.data s.draws).nblk.toNat = nblkOf s.data.length := Stepper.toNat_nblk hholds
  obtain ⟨hkind, hdigest, hdighex⟩ := hu.answer.of_completed hc
  have hh : u.st.ctx.h = digestOfMessage s.data :=
    Stepper.completed_h hu.ok hc (Stepper.holdsMessage_congr hu.message.blkmem hu.message.nblk hu.message.msglen hholds)
  have hud : u.digest = digestOfMessage s.data := hdigest.trans hh
  refine ⟨_, u, v, exec_stpnew_admitted hlen hfits, hnblk ▸ hrun, hhash, hkind, hud.trans hvdigest.symm, ?_, hud⟩
  rw [hdighex, hh, hvdighex]

end Sys2Proof.Machine

/-! # The two contexts (O60)

A command commutes with a replacement of the other unit's context: each of its tests and each of its updates reads other fields. -/

namespace Sys2Proof.Machine

/-- The end of a digest command carries any `ST` along. -/
theorem State.finish_withST (s : State) (e : End) (x : Stepper) :
    ({ s with st := x } : State).finish e = mapNext (fun t => { t with st := x }) (s.finish e) := by
  cases e <;> rfl

theorem execHash_withST (s : State) (k : BitVec 2) (x : Stepper) :
    execHash k { s with st := x } = mapNext (fun t => { t with st := x }) (execHash k s) := by
  have hsource : ({ s with st := x } : State).sourceOf k = s.sourceOf k := rfl
  unfold execHash
  rw [hsource]
  cases s.sourceOf k with
  | none => rfl
  | some src => exact State.finish_withST (s.withRun _) _ x

theorem execHashf_withST (s : State) (x : Stepper) : execHashf { s with st := x } = mapNext (fun t => { t with st := x }) (execHashf s) :=
  State.finish_withST (s.withRun _) _ x

theorem execHashd_withST (s : State) (x : Stepper) : execHashd { s with st := x } = mapNext (fun t => { t with st := x }) (execHashd s) :=
  State.finish_withST ((s.withDirRun _).dropDD) _ x

theorem execStpnew_withSC (s : State) (k : BitVec 2) (x : Streaming) :
    execStpnew k { s with sc := x } = mapNext (fun t => { t with sc := x }) (execStpnew k s) := by
  unfold execStpnew
  dsimp only
  split
  · rfl
  · split
    · rfl
    · split <;> rfl

theorem State.advanceInto_withSC (s : State) (b : Nat) (x : Streaming) :
    ({ s with sc := x } : State).advanceInto b = mapNext (fun t => { t with sc := x }) (s.advanceInto b) := by
  unfold State.advanceInto
  dsimp only
  cases s.st.block b <;> rfl

theorem execStpadv_withSC (s : State) (x : Streaming) : execStpadv { s with sc := x } = mapNext (fun t => { t with sc := x }) (execStpadv s) := by
  unfold execStpadv
  dsimp only
  cases s.st.phase with
  | noSession => rfl
  | ready => exact s.advanceInto_withSC 0 x
  | inStep => dsimp only; split <;> rfl
  | blockBoundary =>
    dsimp only
    split
    · exact s.advanceInto_withSC _ x
    · split <;> rfl
  | completed => rfl

/-- Settles O60: command by command; `STPRST` reads neither context. -/
theorem contextsAreSeparate : Obligations.ContextsAreSeparate := by
  intro s k
  refine ⟨fun i x hi => ?digest, fun i x hi => ?stepper⟩
  all_goals
    simp only [List.mem_cons, List.not_mem_nil, or_false] at hi
    rcases hi with rfl | rfl | rfl
  case digest.inl => exact execHash_withST s k x
  case digest.inr.inl => exact execHashf_withST s x
  case digest.inr.inr => exact execHashd_withST s x
  case stepper.inl => exact execStpnew_withSC s k x
  case stepper.inr.inl => exact execStpadv_withSC s x
  case stepper.inr.inr => rfl

end Sys2Proof.Machine

/-! # Faults and cancelled completions (O25, O57)

The digest commands have one frame whatever their end; `STPNEW` and `STPADV` have one faulting answer each, and no stepper command is cancelled. -/

namespace Sys2Proof.Machine

/-- Settles O25: checks 4 and 5 of R102, each at its command. -/
theorem typeSourceFaults : Obligations.TypeSourceFaults := fun s _ =>
  ⟨exec_hash_badSource s, fun hk => exec_stpnew_badSource s (by rintro rfl; exact absurd hk (by decide))⟩

/-- The command ended in a fault or a cancelled completion (R320, R325). -/
def State.aborted (s : State) : Prop := s.rkind = .error ∨ s.rkind = .cancelled

/-- The result registers, `SRCID` and all of `ST` are as they were (R320). -/
def State.keepsHostState (s t : State) : Prop := t.digest = s.digest ∧ t.dighex = s.dighex ∧ t.srcid = s.srcid ∧ t.st = s.st

theorem State.raiseFault_keepsHostState (s : State) (c : Cause) : s.keepsHostState (s.raiseFault c) := ⟨rfl, rfl, rfl, rfl⟩

/-- A digest command writes the result registers only when it delivers (R224). -/
theorem State.DigestFrame.keepsHostState {s t : State} (h : s.DigestFrame t) (ha : t.aborted) : s.keepsHostState t := by
  have hkind : t.rkind ≠ .digest := by rcases ha with ha | ha <;> simp [ha]
  obtain ⟨hdigest, hdighex⟩ := h.result hkind
  exact ⟨hdigest, hdighex, h.srcid, h.st⟩

/-- The one fault of `STPNEW` (R274). -/
theorem execStpnew_aborted {k : BitVec 2} {s t : State} (h : execStpnew k s = .next t) (ha : t.aborted) : t = s.raiseFault .typeSource := by
  rcases execStpnew_next h with ⟨-, ht⟩ | ⟨-, -, -, rfl⟩
  · exact ht
  · simp [State.aborted] at ha

/-- The one fault of `STPADV` is in `NoSession` (R282). -/
theorem execStpadv_aborted {s t : State} (h : execStpadv s = .next t) (ha : t.aborted) : t = s.raiseFault .stateNoSession := by
  rcases execStpadv_next h with ⟨-, ht⟩ | ⟨-, -, rfl⟩ | ⟨-, -, rfl⟩ | ⟨-, -, rfl⟩ | ⟨-, -, rfl⟩ | ⟨-, -, rfl⟩ | ⟨-, rfl⟩
  · exact ht
  all_goals simp [State.aborted] at ha

/-- `STPRST` always completes (R285). -/
theorem execStprst_not_aborted {s t : State} (h : execStprst s = .next t) : ¬ t.aborted := by
  obtain rfl := Host.Outcome.next.inj h
  simp [State.aborted]

/-- Settles O57: the digest commands by their frame, the stepper's by the one fault each has. -/
theorem faultsLeaveHostState : Obligations.FaultsLeaveHostState := by
  intro i s t hi h ha
  cases i with
  | hash k => exact (execHash_digestFrame h).1.keepsHostState ha
  | hashf => exact (execHashf_digestFrame h).1.keepsHostState ha
  | hashd => exact (execHashd_digestFrame h).keepsHostState ha
  | stpnew k => exact execStpnew_aborted h ha ▸ s.raiseFault_keepsHostState _
  | stpadv => exact execStpadv_aborted h ha ▸ s.raiseFault_keepsHostState _
  | stprst => exact absurd ha (execStprst_not_aborted h)
  | stepFF _ | stepGG _ | stepHH _ | stepII _ => cases hi

end Sys2Proof.Machine

/-! # When a digest command never ends (O33)

A digest command faults exactly when its work is endless (`State.finish_fault_iff`), so each clause is about the work alone: one digest run, the walk, or the
files after it. -/

namespace Sys2Proof.Machine

/-! ## The command faults exactly when its work never ends (X6, R362) -/

theorem exec_hash_fault_iff {s : State} {k : BitVec 2} {src : Source} {f : Fault} (hsrc : s.sourceOf k = some src) :
    exec (.hash k) s = .fault f ↔ (digestOf src s.sc s.env).how = .endless ∧ f = .neverCompletes := by
  rw [exec_hash_source hsrc, State.finish_fault_iff]

theorem exec_hashf_fault_iff {s : State} {f : Fault} :
    exec .hashf s = .fault f ↔ (digestFile s.srcid s.sc s.env).how = .endless ∧ f = .neverCompletes := by
  rw [exec_hashf, State.finish_fault_iff]

theorem exec_hashd_fault_iff {s : State} {f : Fault} :
    exec .hashd s = .fault f ↔ (hashDirectory s.params s.srcid s.sc s.env).how = .endless ∧ f = .neverCompletes := by
  rw [exec_hashd, State.finish_fault_iff]

/-! ## The work of HASHD never ends -/

/-- Directories for ever, in a table without a bound: the converse of `enumerate_endless`. When no answer is listed, the root itself gets the later one. -/
theorem enumerate_endless_of_walkGoesOn {p : Params} {root : Word} {c : Streaming} {e : Env} {l : List Entry} {ls : List (List Entry)}
    (hcap : p.dirMaxEntries = none) (hscans : e.scans = ls.map ScanAnswer.entries) (hlater : e.later.scan = .entries l)
    (hdirs : 0 < presented .dir [l]) (hgoes : walkGoesOn ls) : (enumerate p root c e).how = .endless := by
  have hfits : ∀ n, tableHolds p n := fun n cap h => by rw [hcap] at h; cases h
  cases ls with
  | nil =>
    have hroot : (e.scan root).1 = .entries l := by rw [Env.scan_answer, hscans]; exact hlater
    have hwork : (Directory.empty.enter p.pathSep [] l).work ≠ [] := by
      rw [Directory.enter_work, ← List.length_pos_iff, List.length_append, length_dirEntries]
      exact Nat.add_pos_left hdirs _
    rw [enumerate_entries c hroot, if_pos ((Directory.fits_iff _ _).mpr (hfits _))]
    exact walkLoop_later p c _ _ _ l (by rw [Env.scan_scans, hscans]; rfl) (by rw [Env.scan_later, hlater]) hdirs hwork hcap
  | cons l₀ ls =>
    obtain ⟨d, ids, fuel, -, hwork, hrun⟩ := enumerate_run p root c e l₀ ls [] (by rw [hscans, List.append_nil]) hgoes (hfits _)
    rw [hrun]
    exact walkLoop_later p c _ d _ l rfl hlater hdirs hwork hcap

/-- Once the walk has completed, only a file can be without an end (R362): no file and equal keys end at once, and the concatenation is a byte sequence. -/
theorem hashDirectory_endless {p : Params} {root : Word} {c : Streaming} {e : Env} (h : (hashDirectory p root c e).how = .endless) :
    (enumerate p root c e).how = .endless ∨
      (enumerate p root c e).how = .done ∧ (enumerate p root c e).dd.ent ≠ [] ∧ e.neverCancels ∧ e.later.read.full := by
  by_cases hdone : (enumerate p root c e).how = .done
  · have hkeys : keysDistinct (enumerate p root c e).dd.ent = true := by
      by_contra hequal
      rw [hashDirectory_equalKeys hdone (Bool.eq_false_of_not_eq_true hequal)] at h
      cases h
    have hempty : (enumerate p root c e).dd.ent ≠ [] ∨ p.emptyDirFaults = false := by
      by_contra hno
      rw [not_or, not_not, Bool.not_eq_false] at hno
      rw [hashDirectory_empty hdone hno.1 hno.2] at h
      cases h
    rw [hashDirectory_files p root c e hdone hkeys hempty] at h
    obtain ⟨hne, hcancel, hfull⟩ := filesTail_endless _ _ _ _ h
    obtain ⟨-, -, -, -, hpolls, hlater⟩ := enumerate_env p root c e
    refine .inr ⟨hdone, fun hent => hne (by rw [hent]; rfl), Env.neverCancels_congr hpolls.symm hlater.symm hcancel, ?_⟩
    rwa [hlater] at hfull
  · rw [hashDirectory_of_not_done hdone] at h
    exact .inl h

/-- A stream without an end stays one when polls have been taken from it. -/
theorem Env.endlessStream_of_drop {e f : Env} {n : Nat} (hreads : f.reads = e.reads) (hpolls : f.polls = e.polls.drop n) (hlater : f.later = e.later)
    (h : e.endlessStream) : f.endlessStream := by
  obtain ⟨⟨hlisted, hever⟩, hfull⟩ := h
  refine ⟨⟨fun p hp => hlisted p (List.mem_of_mem_drop (hpolls ▸ hp)), by rwa [hlater]⟩, ?_⟩
  rwa [hreads, hlater]

theorem filesTail_of_digestFile_endless {y : List Byte × Word} {rest : List (List Byte × Word)} {c : Streaming} {d : Directory} {e : Env}
    (h : (digestFile y.2 c e).how = .endless) : (filesTail (y :: rest) c d e).how = .endless := by
  rw [filesTail, h]

/-- Settles O33: `HASH` and `HASHF` by the exact laws of one digest run; `HASHD` by the walk, and by the files after a walk that completed. -/
theorem endlessWhenSourceIs : Obligations.EndlessWhenSourceIs := by
  refine ⟨fun s f => ?bytes, fun s f => ?stream, fun s f => ?file, fun s f hfault => ?onlyIf,
    fun s l ls hcap hscans hlater hdirs hgoes => ?directories, ?fileInTurn⟩
  case bytes =>
    rw [Ne, exec_hash_fault_iff (src := .bytes s.data) rfl]
    exact fun hfault => digestLoop_bytes_ends _ _ _ _ _ (Nat.lt_succ_self _) hfault.1
  case stream => rw [exec_hash_fault_iff (src := .stream s.srcid) rfl, digestOf_endless, and_comm]
  case file => rw [exec_hashf_fault_iff, digestFile_endless, and_comm]
  case onlyIf =>
    obtain ⟨hwork, hf⟩ := exec_hashd_fault_iff.mp hfault
    exact ⟨hf, (hashDirectory_endless hwork).imp (enumerate_endless s.params s.srcid s.sc s.env) id⟩
  case directories =>
    have hwalk : (enumerate s.params s.srcid s.sc s.env).how = .endless := enumerate_endless_of_walkGoesOn hcap hscans hlater hdirs hgoes
    exact exec_hashd_fault_iff.mpr ⟨by rw [hashDirectory_of_not_done (by rw [hwalk]; exact fun hd => nomatch hd), hwalk], rfl⟩
  case fileInTurn =>
    intro s good rest y files h opens reads r hdone hkeys hsort hcount hlen hopens hreads hopen hendless hbound
    have hne : r.dd.ent ≠ [] := fun hent => by rw [hent] at hsort; exact absurd hsort (by simp [sortEntries])
    have hgoes : s.env.continues (pollCount files) := Env.neverCancels_continues (show s.env.neverCancels from hendless.1) _
    obtain ⟨c, d, f, hrun, -, hf⟩ := hashDirectory_afterFiles hdone hne hkeys hsort hcount hlen hopens hreads hgoes
    have hopened : f.opens.headD f.later.opened = .opened h := by rw [hf.opens, hf.later, hopen]
    have hstream : f.endlessStream := Env.endlessStream_of_drop (e := { s.env with reads := reads }) hf.reads hf.polls hf.later hendless
    have hfits : 64 * (f.reads.length + f.polls.length + 2) ≤ Config.maxMsgBytes := by rw [hf.reads, hf.polls, List.length_drop]; omega
    have hfile : (digestFile y.2 c f).how = .endless := (digestFile_endless y.2 c f).mpr ⟨⟨h, hopened⟩, hstream, hfits⟩
    exact exec_hashd_fault_iff.mpr ⟨by rw [hrun]; exact filesTail_of_digestFile_endless hfile, rfl⟩

end Sys2Proof.Machine
